-- ==== Sys2Proof/Word.lean ====
section
/-! DEFINITION. The word types of the block: bytes of the buffers, halfwords of the index buffer, words of the bus. -/

namespace Sys2Proof

/-- One byte of a buffer or of a bus transaction. -/
abbrev Byte := BitVec 8

/-- One entry of the index buffer (10_state.md R33). -/
abbrev Half := BitVec 16

/-- One register or bus word (20_memory.md R50). -/
abbrev Word := BitVec 32

/-- The answer of the hash port (20_memory.md R70). -/
abbrev Digest := Vector Byte 32

end Sys2Proof
end

