-- ==== Sys2Proof/Syntax.lean ====
section
/-! DEFINITION. The commands of the block (30_encoding.md R81, R86): one constructor per row of the opcode table. -/

namespace Sys2Proof

/-- The accounting modes (30_encoding.md R82). MODE 3 is reserved and is no mode. -/
inductive Mode where
  | std
  | rlx
  | exp
  deriving DecidableEq, Repr

/-- The commands (30_encoding.md R81). `n` is the word count (R83) and `ct` the explicit checksum-bit target (R84), both read as
unsigned numbers; CLR has no operands (R87). -/
inductive Instr where
  | acct (mode : Mode) (n ct : Nat)
  | enc (mode : Mode) (n ct : Nat)
  | dec (mode : Mode) (n ct : Nat)
  | clr
  deriving DecidableEq, Repr

end Sys2Proof
end

