-- ==== Sys2Proof/WellFormed.lean ====
section
/-! DEFINITION. Which commands the format CW can carry (30_encoding.md R80, R83, R84). -/

namespace Sys2Proof

/-- The operands fit their fields: N has 8 bits (30_encoding.md R83), CT has 9 (R84). -/
abbrev operandsFit (n ct : Nat) : Prop := n ≤ 255 ∧ ct ≤ 511

/-- A command that some command word stands for. -/
def WellFormed : Instr → Bool
  | .acct _ n ct => decide (operandsFit n ct)
  | .enc _ n ct => decide (operandsFit n ct)
  | .dec _ n ct => decide (operandsFit n ct)
  | .clr => true

end Sys2Proof
end

