-- ==== Sys2Proof/Decode.lean ====
section
/-! DEFINITION. Decoding a command word, total and rejecting by name, and after it the encoder (30_encoding.md R80 to R90). -/

namespace Sys2Proof

/-- Why a word is no command: the cases of 30_encoding.md R88. `length` is a byte string that is not one 4-byte word (R89). -/
inductive Illegal where
  | opcode
  | res0
  | res1
  | mode3
  | length
  deriving DecidableEq, Repr

/-- OP, bits [3:0] (30_encoding.md R80). -/
def opField (w : Word) : BitVec 4 := w.extractLsb' 0 4

/-- MODE, bits [5:4] (30_encoding.md R80). -/
def modeField (w : Word) : BitVec 2 := w.extractLsb' 4 2

/-- RES0, bits [7:6] (30_encoding.md R80). -/
def res0Field (w : Word) : BitVec 2 := w.extractLsb' 6 2

/-- N, bits [15:8] (30_encoding.md R80). -/
def nField (w : Word) : BitVec 8 := w.extractLsb' 8 8

/-- CT, bits [24:16] (30_encoding.md R80). -/
def ctField (w : Word) : BitVec 9 := w.extractLsb' 16 9

/-- RES1, bits [31:25] (30_encoding.md R80). -/
def res1Field (w : Word) : BitVec 7 := w.extractLsb' 25 7

/-- The mode a MODE field names (30_encoding.md R82), none for the reserved 3. -/
def modeOfBits (m : BitVec 2) : Option Mode :=
  match m.toNat with
  | 0 => some .std
  | 1 => some .rlx
  | 2 => some .exp
  | _ => none

/-- The command `k` with the operands of `w`, illegal where MODE = 3 (30_encoding.md R87). -/
def withOperands (w : Word) (k : Mode → Nat → Nat → Instr) : Except Illegal Instr :=
  match modeOfBits (modeField w) with
  | none => .error .mode3
  | some m => .ok (k m (nField w).toNat (ctField w).toNat)

/-- `Decode` (30_encoding.md R87). -/
def decode (w : Word) : Except Illegal Instr :=
  if res1Field w ≠ 0 then .error .res1
  else if res0Field w ≠ 0 then .error .res0
  else
    match (opField w).toNat with
    | 1 => withOperands w .acct
    | 2 => withOperands w .enc
    | 3 => withOperands w .dec
    | 4 => .ok .clr
    | _ => .error .opcode

/-- The halfword of two bytes, lowest address first: little-endian lanes (20_memory.md R51). -/
def halfOfBytes (b0 b1 : Byte) : Half := b0.setWidth 16 ||| b1.setWidth 16 <<< 8

/-- The word of four bytes, lowest address first: little-endian lanes (20_memory.md R51, R57). -/
def wordOfBytes (b0 b1 b2 b3 : Byte) : Word :=
  b0.setWidth 32 ||| b1.setWidth 32 <<< 8 ||| b2.setWidth 32 <<< 16 ||| b3.setWidth 32 <<< 24

/-- Decoding any bytes: a command is exactly one 4-byte word (30_encoding.md R89). -/
def decodeBytes : List Byte → Except Illegal Instr
  | [b0, b1, b2, b3] => decode (wordOfBytes b0 b1 b2 b3)
  | _ => .error .length

/-- The MODE field of a mode (30_encoding.md R82). -/
def Mode.bits : Mode → BitVec 2
  | .std => 0
  | .rlx => 1
  | .exp => 2

/-- A command word from its fields: `w = (CT << 16) | (N << 8) | (MODE << 4) | OP` (30_encoding.md R80, R90). -/
def commandWord (ct : BitVec 9) (n : BitVec 8) (mode : BitVec 2) (op : BitVec 4) : Word :=
  ct.setWidth 32 <<< 16 ||| n.setWidth 32 <<< 8 ||| mode.setWidth 32 <<< 4 ||| op.setWidth 32

/-- The encoder (30_encoding.md R81, R90). CLR encodes as its canonical word. -/
def encode : Instr → Word
  | .acct m n ct => commandWord (BitVec.ofNat 9 ct) (BitVec.ofNat 8 n) m.bits 1
  | .enc m n ct => commandWord (BitVec.ofNat 9 ct) (BitVec.ofNat 8 n) m.bits 2
  | .dec m n ct => commandWord (BitVec.ofNat 9 ct) (BitVec.ofNat 8 n) m.bits 3
  | .clr => commandWord 0 0 0 4

/-- One row of the opcode map (30_encoding.md R86). `modeOk` is the row's extra condition on MODE. -/
structure OpcodeRow where
  mnemonic : String
  pattern : Word
  mask : Word
  modeOk : BitVec 2 → Bool

/-- The opcode map (30_encoding.md R86). -/
def opcodeMap : List OpcodeRow :=
  [⟨"ACCT", 0x00000001, 0xFE0000CF, fun m => m != 3⟩,
   ⟨"ENC", 0x00000002, 0xFE0000CF, fun m => m != 3⟩,
   ⟨"DEC", 0x00000003, 0xFE0000CF, fun m => m != 3⟩,
   ⟨"CLR", 0x00000004, 0xFE0000CF, fun _ => true⟩]

/-- A word matches a row (30_encoding.md R86). -/
def OpcodeRow.matchesWord (r : OpcodeRow) (w : Word) : Bool := (w &&& r.mask == r.pattern) && r.modeOk (modeField w)

/-- The row a command belongs to (30_encoding.md R86). -/
def Instr.mnemonic : Instr → String
  | .acct _ _ _ => "ACCT"
  | .enc _ _ _ => "ENC"
  | .dec _ _ _ => "DEC"
  | .clr => "CLR"

/-- The bytes of a table word as the bus carries them, lowest lane first; every bit above `nbits` is 0. -/
def tableBytes (nbits w : Nat) : List Byte :=
  (List.range (max 4 ((nbits + 7) / 8))).map fun j => BitVec.ofNat 8 (w % 2 ^ nbits / 256 ^ j)

/-- What the decoder reads from an opcode-table word. -/
def decodeTableWord (nbits w : Nat) : Option Instr :=
  match decodeBytes (tableBytes nbits w) with
  | .ok i => some i
  | .error _ => none

end Sys2Proof
end

