-- ==== Sys2Proof/Machine/Accounting.lean ====
section
/-! DEFINITION. The shared bit-accounting helper `Acct` (42_accounting.md R140 to R143), over unbounded natural numbers (00_scope.md R9). -/

namespace Sys2Proof.Machine

/-- Standard mode: the six rows `(n, (B, C))` of 42_accounting.md R141 (90_conflicts.md C1). -/
def stdTable (n : Nat) : Option (Nat × Nat) :=
  match n with
  | 9 => some (12, 3)
  | 12 => some (16, 4)
  | 15 => some (20, 5)
  | 18 => some (24, 6)
  | 21 => some (28, 7)
  | 24 => some (32, 8)
  | _ => none

/-- Relaxed mode (42_accounting.md R142; 90_conflicts.md C2, C4). -/
def relaxedSplit (n : Nat) : Option (Nat × Nat) :=
  let b := 11 * n / 8
  let c := 11 * n - 8 * b
  if 1 ≤ b ∧ b ≤ 32 then some (b, c) else none

/-- Explicit mode (42_accounting.md R143; 90_conflicts.md C5). -/
def explicitSplit (n ct : Nat) : Option (Nat × Nat) :=
  if ct > 256 then none
  else if ct > 11 * n then none
  else if (11 * n - ct) % 8 ≠ 0 then none
  else
    let b := (11 * n - ct) / 8
    if 1 ≤ b ∧ b ≤ 32 then some (b, ct) else none

/-- `Acct(mode, n, ct)` (42_accounting.md R140): the entropy bytes B and the checksum bits C, or none. -/
def acct (mode : Mode) (n ct : Nat) : Option (Nat × Nat) :=
  if n = 0 then none
  else
    match mode with
    | .std => stdTable n
    | .rlx => relaxedSplit n
    | .exp => explicitSplit n ct

end Sys2Proof.Machine
end

