-- ==== Sys2Proof/Config.lean ====
section
/-! DEFINITION. What is fixed for the block (00_scope.md R6, 10_state.md R21) and what the spec leaves open (the OPEN parameters of
92_eei_decisions.md): the latter are constants without a body, so no proof can see a value of them. -/

namespace Sys2Proof.Config

/-- The identification word (10_state.md R21): MAGIC 0xB139, MAJOR 0x00, EDITION 0x07. -/
def idWord : Word := 0xB1390007#32

/-- `IDX_BITS` (00_scope.md R6). -/
abbrev idxBits : Nat := 11

/-- `IDX_RANGE` (00_scope.md R6). -/
abbrev idxRange : Nat := 2048

/-- `ENT_MIN` (00_scope.md R6). -/
abbrev entMin : Nat := 1

/-- `ENT_MAX` (00_scope.md R6). -/
abbrev entMax : Nat := 32

/-- `CS_MAX` (00_scope.md R6). -/
abbrev csMax : Nat := 256

/-- `DIGEST_BYTES` (00_scope.md R6). -/
abbrev digestBytes : Nat := 32

/-- `N_MAX_ENC` (00_scope.md R6). -/
abbrev nMaxEnc : Nat := 46

/-- `IDX_ENTRIES` (00_scope.md R6). -/
abbrev idxEntries : Nat := 46

/-- `S_MAX_BITS` (00_scope.md R6). -/
abbrev sMaxBits : Nat := 506

/-- `WINDOW_BYTES` (00_scope.md R6). -/
abbrev windowBytes : Nat := 256

/-- FREE VALUE (log 1). The hash capability behind the hash port (20_memory.md R70, 93_implementation_defined.md U1): a total,
deterministic function parameter, about which nothing else is assumed. Its intended instance is SHA2-256. -/
opaque hash256 : List Byte → Digest

/-- FREE VALUE (log 2). How many host transactions land between an acceptance and its completion step, for an acceptance that
`State.schedule` does not name (70_reset_and_hazards.md R243, 93_implementation_defined.md U6): finite, and otherwise open. -/
opaque latency : Nat → Nat

/-- FREE VALUE (log 3). The byte a read while BUSY returns from a register whose value is then unspecified: a fresh draw per read, per
byte (70_reset_and_hazards.md R241, 93_implementation_defined.md U5). -/
opaque busyByte : Nat → Byte

/-- FREE VALUE (log 10). `B39P_BASE` divided by 256 (20_memory.md R67, 93_implementation_defined.md U13): the base is a multiple of 256. -/
opaque windowPage : Nat

/-- `B39P_BASE` (20_memory.md R67): the window's base in the platform's address space. -/
def b39pBase : Nat := 256 * windowPage

end Sys2Proof.Config
end

