-- ==== Sys2Proof/Machine/State.lean ====
section
/-! DEFINITION. The state of the block (10_state.md R39) with the model's own fields beside it, the reasons a step can stop, and the
state after reset (10_state.md R42). -/

namespace Sys2Proof.Machine

/-- The outcome codes of a command by name (10_state.md R27). -/
inductive ErrCode where
  | none
  | invalidWordCount
  | invalidIndex
  | checksumMismatch
  | illegalCommand
  deriving DecidableEq, Repr

/-- STATUS (10_state.md R22, R39). ERR is the 4-bit field itself. -/
structure Status where
  busy : Bool
  done : Bool
  valid : Bool
  busyViol : Bool
  err : BitVec 4
  deriving DecidableEq, Repr

/-- RESULT (10_state.md R30, R39). -/
structure AcctResult where
  n : BitVec 8
  b : BitVec 6
  c : BitVec 9
  deriving DecidableEq, Repr

/-- The widths of a bus transaction, 1, 2 or 4 bytes (20_memory.md R50). -/
inductive Width where
  | byte
  | half
  | word
  deriving DecidableEq, Repr

/-- What the outside does to the block: the bus transactions of 20_memory.md R50, the poll loop `wait` of 30_encoding.md R92, and a
pulse of `rst_n` (70_reset_and_hazards.md R230). The data of a write are the low bytes of `v`, as many as the width has. -/
inductive HostEvent where
  | read (off : BitVec 8) (n : Width)
  | write (off : BitVec 8) (n : Width) (v : Word)
  | wait
  | rst
  deriving DecidableEq, Repr

/-- The response to one transaction (20_memory.md R50, R54): `busError`, and the data of a read, zero-extended. A write and an
erring read carry data 0. -/
structure Reply where
  busError : Bool
  data : Word
  deriving DecidableEq, Repr

/-- Whether the platform connected a hash unit that answers (70_reset_and_hazards.md R234 (2), R244). -/
inductive HashPort where
  | answering
  | silent
  deriving DecidableEq, Repr

/-- The machine. The first seven fields are the spec's record (10_state.md R39). The others are the model's own (log 4): the host's
side of the bus, the schedule of the completion steps and the trace of the hash port. -/
structure State where
  ent : Vector Byte 32
  idx : Vector Half 46
  digest : Digest
  entLen : BitVec 6
  result : AcctResult
  status : Status
  cmdl : Word
  /-- Host events still to come, the next one first (20_memory.md R60). -/
  script : List HostEvent
  /-- Responses given so far, the newest first. -/
  replies : List Reply
  /-- For each coming acceptance, how many host transactions land before its completion step (log 2). -/
  schedule : List Nat
  /-- How many more host transactions land before the command in flight completes (log 2). -/
  delay : Nat
  /-- Numbers the free values drawn so far (log 3). -/
  draws : Nat
  /-- Constant of the platform (log 6). -/
  hashPort : HashPort
  /-- The byte strings presented at the hash port, the newest first (log 9). -/
  hashCalls : List (List Byte)
  deriving DecidableEq, Repr

/-- Why the machine stops with a fault. -/
inductive Fault where
  /-- Raised by `step` in a state whose STATUS.ERR holds a reserved code 5 to 15, which no rule writes
  (93_implementation_defined.md U10: a model that sees one should fault). SAFE: no run from reset reaches it (log 7). -/
  | reservedErrCode
  deriving DecidableEq, Repr

/-- Why a step is refused. -/
inductive Refusal where
  /-- Raised by an arm of `exec` that has no meaning yet. SAFE: nothing is claimed of the instruction. No arm raises it. -/
  | notModelled (mnemonic : String)
  deriving DecidableEq, Repr

/-- The machine right after reset (10_state.md R42, 70_reset_and_hazards.md R230). The model's own fields start empty (log 4). -/
def State.reset : State where
  ent := Vector.replicate 32 0
  idx := Vector.replicate 46 0
  digest := Vector.replicate 32 0
  entLen := 0
  result := ⟨0, 0, 0⟩
  status := ⟨false, false, false, false, 0⟩
  cmdl := 0
  script := []
  replies := []
  schedule := []
  delay := 0
  draws := 0
  hashPort := .answering
  hashCalls := []

end Sys2Proof.Machine
end

