-- ==== Sys2Proof/Machine/Flags.lean ====
section
/-! DEFINITION. The codes and the register words of STATUS, RESULT and ENT_LEN (10_state.md R22, R27, R29, R30). The block has no
arithmetic flags (R36). -/

namespace Sys2Proof.Machine

/-- The 4-bit code of an outcome (10_state.md R27). -/
def ErrCode.code : ErrCode → BitVec 4
  | .none => 0
  | .invalidWordCount => 1
  | .invalidIndex => 2
  | .checksumMismatch => 3
  | .illegalCommand => 4

/-- A code that no rule writes (10_state.md R27, 93_implementation_defined.md U10). -/
def reservedErr (e : BitVec 4) : Bool := decide (5 ≤ e.toNat)

/-- STATUS as a register word (10_state.md R22). -/
def statusWord (st : Status) : Word :=
  (BitVec.ofBool st.busy).setWidth 32 ||| (BitVec.ofBool st.done).setWidth 32 <<< 1 ||| (BitVec.ofBool st.valid).setWidth 32 <<< 2 |||
    (BitVec.ofBool st.busyViol).setWidth 32 <<< 3 ||| st.err.setWidth 32 <<< 4

/-- RESULT as a register word (10_state.md R30, 42_accounting.md R151). -/
def resultWord (r : AcctResult) : Word := r.c.setWidth 32 <<< 16 ||| r.b.setWidth 32 <<< 8 ||| r.n.setWidth 32

/-- ENT_LEN as a register word (10_state.md R29). -/
def entLenWord (len : BitVec 6) : Word := len.setWidth 32

end Sys2Proof.Machine
end

