-- ==== Sys2Proof/Machine/Operands.lean ====
section
/-! DEFINITION. The implicit operands of the commands: prefixes of the buffers (40_encode.md R100, 41_decode.md R120). -/

namespace Sys2Proof.Machine

/-- `ENT[0..B)` as bytes, `ENT[0]` first (20_memory.md R70). -/
def entPrefix (s : State) (b : Nat) : List Byte := s.ent.toList.take b

/-- `IDX[0..N)` (41_decode.md R120). -/
def idxPrefix (s : State) (n : Nat) : List Half := s.idx.toList.take n

/-- An entry outside `0..2048`: some bit of [15:11] is set (41_decode.md R122). -/
def invalidIndex (v : Half) : Bool := v.extractLsb' 11 5 != 0

/-- Some of the first `n` entries is outside the range (41_decode.md R122). -/
def anyInvalidIndex (s : State) (n : Nat) : Bool := (idxPrefix s n).any invalidIndex

end Sys2Proof.Machine
end

