-- ==== Sys2Proof/Machine/Ops.lean ====
section
/-! DEFINITION. The named operations over the state: every write to a register or a buffer goes through one of these. -/

namespace Sys2Proof.Machine

/-- `RESULT <- (n, b, c)` (10_state.md R30). -/
def State.setResult (n b c : Nat) (s : State) : State :=
  { s with result := ⟨BitVec.ofNat 8 n, BitVec.ofNat 6 b, BitVec.ofNat 9 c⟩ }

/-- `STATUS.VALID <- v` (10_state.md R25). -/
def State.setValid (v : Bool) (s : State) : State := { s with status := { s.status with valid := v } }

/-- `finish(code)`, the completion actions (60_exceptions.md R208): the block's only "trap" mechanism. BUSY_VIOL is left as it is, nothing
is saved and nothing vectors; there is no return from it (R210). -/
def State.finish (e : ErrCode) (s : State) : State :=
  { s with status := { s.status with err := e.code, busy := false, done := true } }

/-- `DIGEST <- D` (10_state.md R32). -/
def State.setDigest (d : Digest) (s : State) : State := { s with digest := d }

/-- One call of the hash port with the byte string `x` (20_memory.md R70, log 9). -/
def State.noteHashCall (x : List Byte) (s : State) : State := { s with hashCalls := x :: s.hashCalls }

/-- `ENT[j] <- xs[j]` for every j below the length of `xs` (41_decode.md R124). -/
def State.writeEnt (xs : List Byte) (s : State) : State :=
  { s with ent := s.ent.mapIdx fun i old => xs.getD i old }

/-- `ENT_LEN.LEN <- b` (41_decode.md R124). -/
def State.writeEntLen (b : Nat) (s : State) : State := { s with entLen := BitVec.ofNat 6 b }

/-- `IDX[k] <- ks[k]` for every k below the length of `ks` (40_encode.md R104). -/
def State.writeIdx (ks : List Half) (s : State) : State :=
  { s with idx := s.idx.mapIdx fun k old => ks.getD k old }

/-- The clears of CLR before its `finish` (43_control.md R160). -/
def State.clearBuffers (s : State) : State :=
  { s with
    ent := Vector.replicate 32 0
    digest := Vector.replicate 32 0
    idx := Vector.replicate 46 0
    entLen := 0
    result := ⟨0, 0, 0⟩
    status := { s.status with valid := false } }

/-- The effect of an acceptance on the spec's state (43_control.md R161). It does not decode `v`. -/
def State.latchCommand (v : Word) (s : State) : State :=
  { s with
    cmdl := v
    status := { s.status with busy := true, done := false, err := 0, busyViol := false } }

/-- How many host transactions land before the completion step of the command now accepted: the next number of the schedule, and a
free value where the schedule names none (70_reset_and_hazards.md R243, log 2). -/
def State.drawDelay (s : State) : State :=
  { s with delay := s.schedule.headD (Config.latency s.draws), schedule := s.schedule.tail, draws := s.draws + 1 }

/-- Command acceptance (43_control.md R161). -/
def State.accept (v : Word) (s : State) : State := (s.latchCommand v).drawDelay

/-- A write dropped because BUSY = 1 (20_memory.md R58, 10_state.md R26). -/
def State.dropWrite (s : State) : State := { s with status := { s.status with busyViol := true } }

/-- The response to a transaction goes to the host. -/
def State.respond (r : Reply) (s : State) : State := { s with replies := r :: s.replies }

/-- `rst_n` asserted (70_reset_and_hazards.md R230, R231): every piece of the spec's state takes its reset value and a command in flight is
abandoned. The host's side of the bus and the platform's constant are not the block's, and stay. -/
def State.applyReset (s : State) : State :=
  { State.reset with
    script := s.script
    replies := s.replies
    schedule := s.schedule
    draws := s.draws
    hashPort := s.hashPort
    hashCalls := s.hashCalls }

end Sys2Proof.Machine
end

