-- ==== Sys2Proof/Machine/Acct.lean ====
section
/-! DEFINITION. ACCT: run the bit-accounting and report it (42_accounting.md R150). -/

namespace Sys2Proof.Machine

/-- The state ACCT leaves (42_accounting.md R150). -/
def acctState (mode : Mode) (n ct : Nat) (s : State) : State :=
  match acct mode n ct with
  | none => (s.setResult n 0 0).finish .invalidWordCount
  | some (b, c) => (s.setResult n b c).finish .none

/-- ACCT (42_accounting.md R150). -/
def execAcct (mode : Mode) (n ct : Nat) (s : State) : Host.Outcome State Fault Refusal := .next (acctState mode n ct s)

end Sys2Proof.Machine
end

