-- ==== Sys2Proof/Machine/Clr.lean ====
section
/-! DEFINITION. CLR (43_control.md R160), and what an illegal command word does (60_exceptions.md R203). -/

namespace Sys2Proof.Machine

/-- CLR (43_control.md R160): always completes with NONE. -/
def execClr (s : State) : Host.Outcome State Fault Refusal := .next (s.clearBuffers.finish .none)

/-- ILLEGAL (60_exceptions.md R203): performs nothing and completes with ILLEGAL_COMMAND. -/
def execIllegal (s : State) : Host.Outcome State Fault Refusal := .next (s.finish .illegalCommand)

end Sys2Proof.Machine
end

