-- ==== Sys2Proof/Machine/Bits.lean ====
section
/-! DEFINITION. The bit strings of 00_scope.md R8: MSB-first within each byte and across the concatenation boundary. -/

namespace Sys2Proof.Machine

/-- The bits of one byte, most significant first (00_scope.md R8). -/
def byteBits (b : Byte) : List Bool := (List.range 8).map fun t => b.getLsbD (7 - t)

/-- `BitsOf(X)` (00_scope.md R8). -/
def bitsOf (x : List Byte) : List Bool := x.flatMap byteBits

/-- `Val(S)`: the first bit is the most significant (00_scope.md R8). -/
def bitVal (bits : List Bool) : Nat := bits.foldl (fun a b => 2 * a + b.toNat) 0

/-- The sub-string of bits `i` through `j - 1` (00_scope.md R8). -/
def bitSlice (bits : List Bool) (i j : Nat) : List Bool := (bits.drop i).take (j - i)

/-- `Bits11(v[10:0])`: bit t is bit `10 - t` of the entry (00_scope.md R8, 41_decode.md R123). -/
def bits11 (v : Half) : List Bool := (List.range 11).map fun t => v.getLsbD (10 - t)

/-- The packed string of 40_encode.md R103: the entropy bits, then the first `c` digest bits (20_memory.md R71). -/
def packedBits (x : List Byte) (d : Digest) (c : Nat) : List Bool := bitsOf x ++ (bitsOf d.toList).take c

/-- The `n` groups of 11 bits as index entries (40_encode.md R104). -/
def groupIndices (bits : List Bool) (n : Nat) : List Half :=
  (List.range n).map fun k => BitVec.ofNat 16 (bitVal (bitSlice bits (11 * k) (11 * k + 11)))

/-- The string an index sequence stands for (41_decode.md R123). -/
def indexBits (ks : List Half) : List Bool := ks.flatMap bits11

/-- The leading `b` bytes of a string (41_decode.md R124). -/
def leadingBytes (bits : List Bool) (b : Nat) : List Byte :=
  (List.range b).map fun j => BitVec.ofNat 8 (bitVal (bitSlice bits (8 * j) (8 * j + 8)))

/-- The trailing `c` bits after `b` bytes: the extracted checksum (41_decode.md R124). -/
def checksumBits (bits : List Bool) (b c : Nat) : List Bool := bitSlice bits (8 * b) (8 * b + c)

end Sys2Proof.Machine
end

