-- ==== Sys2Proof/Machine/Dec.lean ====
section
/-! DEFINITION. DEC, the unpacker and checksum validator (41_decode.md R120 to R126). The hash function is an argument of the operations; the
meaning passes the parameter `Config.hash256`. -/

namespace Sys2Proof.Machine

/-- DEC after its checks: rebuild the string, split it, recompute the digest, compare (41_decode.md R123 to R126). -/
def unpackIndices (hash : List Byte → Digest) (n b c : Nat) (s : State) : State :=
  let bits := indexBits (idxPrefix s n)
  let x := leadingBytes bits b
  let d := hash x
  let ok := decide (checksumBits bits b c = (bitsOf d.toList).take c)
  (((((s.writeEnt x).writeEntLen b).noteHashCall x).setDigest d).setValid ok).finish (if ok then .none else .checksumMismatch)

/-- The state DEC leaves (41_decode.md R120). -/
def decState (hash : List Byte → Digest) (mode : Mode) (n ct : Nat) (s : State) : State :=
  match acct mode n ct with
  | none => ((s.setResult n 0 0).setValid false).finish .invalidWordCount
  | some (b, c) =>
    if anyInvalidIndex s n then ((s.setResult n b c).setValid false).finish .invalidIndex
    else unpackIndices hash n b c (s.setResult n b c)

/-- DEC (41_decode.md R120). -/
def execDec (mode : Mode) (n ct : Nat) (s : State) : Host.Outcome State Fault Refusal :=
  .next (decState Config.hash256 mode n ct s)

end Sys2Proof.Machine
end

