-- ==== Sys2Proof/Machine/Enc.lean ====
section
/-! DEFINITION. ENC, the packer (40_encode.md R100 to R105). The hash function is an argument of the operations, so that they can be read
and tested with any instance; the meaning passes the parameter `Config.hash256`. -/

namespace Sys2Proof.Machine

/-- ENC after its checks: derive the checksum, concatenate, group (40_encode.md R102 to R105). -/
def packEntropy (hash : List Byte → Digest) (n b c : Nat) (s : State) : State :=
  let x := entPrefix s b
  let d := hash x
  ((((s.noteHashCall x).setDigest d).writeIdx (groupIndices (packedBits x d c) n)).setValid true).finish .none

/-- The state ENC leaves (40_encode.md R100, R101). -/
def encState (hash : List Byte → Digest) (mode : Mode) (n ct : Nat) (s : State) : State :=
  match acct mode n ct with
  | none => ((s.setResult n 0 0).setValid false).finish .invalidWordCount
  | some (b, c) =>
    if s.entLen.toNat ≠ b then ((s.setResult n b c).setValid false).finish .invalidWordCount
    else packEntropy hash n b c (s.setResult n b c)

/-- ENC (40_encode.md R100). -/
def execEnc (mode : Mode) (n ct : Nat) (s : State) : Host.Outcome State Fault Refusal :=
  .next (encState Config.hash256 mode n ct s)

end Sys2Proof.Machine
end

