-- ==== Sys2Proof/Machine/Dispatch.lean ====
section
/-! DEFINITION. One arm per command (10_state.md R40). -/

namespace Sys2Proof.Machine

def exec (i : Instr) (s : State) : Host.Outcome State Fault Refusal :=
  match i with
  | .acct mode n ct => Sys2Proof.Machine.execAcct mode n ct s
  | .enc mode n ct => Sys2Proof.Machine.execEnc mode n ct s
  | .dec mode n ct => Sys2Proof.Machine.execDec mode n ct s
  | .clr => Sys2Proof.Machine.execClr s

end Sys2Proof.Machine
end

