-- ==== Sys2Proof/Machine/Window.lean ====
section
/-! DEFINITION. The register window (10_state.md R20): its map, the byte at every offset, and the bytes a write stores. -/

namespace Sys2Proof.Machine

/-- The regions of the window (10_state.md R20). -/
inductive Region where
  | id
  | status
  | cmd
  | entLen
  | result
  | ent
  | digest
  | idx
  | reserved
  deriving DecidableEq, Repr

/-- The register map (10_state.md R20, R34), by byte offset. -/
def regionOf (a : Nat) : Region :=
  if a < 0x04 then .id
  else if a < 0x08 then .status
  else if a < 0x0C then .cmd
  else if a < 0x10 then .entLen
  else if a < 0x14 then .result
  else if a < 0x20 then .reserved
  else if a < 0x40 then .ent
  else if a < 0x60 then .digest
  else if a < 0xBC then .idx
  else .reserved

/-- Byte lane `j` of a word: bits [8j+7:8j] (20_memory.md R51). -/
def wordLane (w : Word) (j : Nat) : Byte := w.extractLsb' (8 * j) 8

/-- Byte `h` of an index entry: bits [8h+7:8h] (20_memory.md R51, R57). -/
def halfLane (v : Half) (h : Nat) : Byte := v.extractLsb' (8 * h) 8

/-- The byte the window holds at offset `a` (10_state.md R20 to R34, 20_memory.md R51, R57): the model's read of one byte. -/
def windowByte (s : State) (a : Nat) : Byte :=
  match regionOf a with
  | .id => wordLane Config.idWord a
  | .status => wordLane (statusWord s.status) (a - 0x04)
  | .cmd => 0
  | .entLen => wordLane (entLenWord s.entLen) (a - 0x0C)
  | .result => wordLane (resultWord s.result) (a - 0x10)
  | .ent => (s.ent[a - 0x20]?).getD 0
  | .digest => (s.digest[a - 0x40]?).getD 0
  | .idx => halfLane ((s.idx[(a - 0x60) / 2]?).getD 0) ((a - 0x60) % 2)
  | .reserved => 0

/-- The regions whose value a read while BUSY does not specify (70_reset_and_hazards.md R241). -/
def Region.volatile : Region → Bool
  | .entLen | .result | .ent | .digest | .idx => true
  | .id | .status | .cmd | .reserved => false

/-- The number of bytes of a transaction (20_memory.md R50). -/
def Width.bytes : Width → Nat
  | .byte => 1
  | .half => 2
  | .word => 4

/-- Natural alignment (20_memory.md R52). -/
def aligned (off : Nat) (n : Width) : Bool := off % n.bytes == 0

/-- Offset `a` is one of the bytes of a transaction of width `n` at `off` (20_memory.md R51). -/
abbrev coversByte (off : Nat) (n : Width) (a : Nat) : Prop := off ≤ a ∧ a < off + n.bytes

/-- The byte at offset `a` after a write of `v` at `off`, where it was `old` (20_memory.md R51). -/
def overlayByte (off : Nat) (n : Width) (v : Word) (a : Nat) (old : Byte) : Byte :=
  if coversByte off n a then wordLane v (a - off) else old

/-- The bytes of a performed write, stored into ENT, IDX and ENT_LEN by the lane map (20_memory.md R57, R58). ENT_LEN stores bits [5:0] of
its lane 0 (10_state.md R29). -/
def State.storeInputs (off : Nat) (n : Width) (v : Word) (s : State) : State :=
  { s with
    ent := s.ent.mapIdx fun i old => overlayByte off n v (0x20 + i) old
    idx := s.idx.mapIdx fun k old =>
        halfOfBytes (overlayByte off n v (0x60 + 2 * k) (halfLane old 0)) (overlayByte off n v (0x61 + 2 * k) (halfLane old 1))
    entLen := (overlayByte off n v 0x0C (s.entLen.setWidth 8)).setWidth 6 }

end Sys2Proof.Machine
end

