-- ==== Sys2Proof/Machine/Bus.lean ====
section
/-! DEFINITION. The bus transactions `MemRead` and `MemWrite` (20_memory.md R50 to R58, 70_reset_and_hazards.md R240, R241), and how a
physical address reaches the window (20_memory.md R67). -/

namespace Sys2Proof.Machine

/-- Lane `j` of a read at `off` (20_memory.md R51, R56): the window's byte, and a fresh free value where the read is one whose value R241 of
70_reset_and_hazards.md leaves unspecified. -/
def readLane (s : State) (off j : Nat) : Byte :=
  if s.status.busy && (regionOf (off + j)).volatile then Config.busyByte (s.draws + j) else windowByte s (off + j)

/-- The data of an aligned read, zero-extended (20_memory.md R51). -/
def readData (s : State) (off : Nat) (n : Width) : Word :=
  match n with
  | .byte => (readLane s off 0).setWidth 32
  | .half => (halfOfBytes (readLane s off 0) (readLane s off 1)).setWidth 32
  | .word => wordOfBytes (readLane s off 0) (readLane s off 1) (readLane s off 2) (readLane s off 3)

/-- The response to `MemRead(off, n)` (20_memory.md R50, R52, R54). -/
def readReply (s : State) (off : BitVec 8) (n : Width) : Reply :=
  if aligned off.toNat n then ⟨false, readData s off.toNat n⟩ else ⟨true, 0⟩

/-- `MemRead(off, n)` (20_memory.md R50, R56): no side effect on the spec's state. -/
def memRead (off : BitVec 8) (n : Width) (s : State) : State :=
  { s.respond (readReply s off n) with draws := s.draws + n.bytes }

/-- What a write at an offset is to the block. -/
inductive WriteKind where
  | busError
  | command
  | input
  | ignored
  deriving DecidableEq, Repr

/-- Misaligned and narrow CMD writes are bus errors (20_memory.md R52, R53, R54); a 4-byte CMD write is a command issue (10_state.md R28);
ENT, IDX and lane 0 of ENT_LEN are inputs (20_memory.md R58, 10_state.md R29); every other write is ignored (20_memory.md R55, 10_state.md R34). -/
def writeKind (off : Nat) (n : Width) : WriteKind :=
  if aligned off n then
    match regionOf off with
    | .cmd => if n = .word then .command else .busError
    | .entLen => if off = 0x0C then .input else .ignored
    | .ent | .idx => .input
    | .id | .status | .result | .digest | .reserved => .ignored
  else .busError

/-- A performed write to an input (20_memory.md R58): the bytes are stored and VALID is cleared, whatever the value. -/
def State.performWrite (off : Nat) (n : Width) (v : Word) (s : State) : State := (s.storeInputs off n v).setValid false

/-- The effect of a write on the state, without the response (20_memory.md R53 to R58, 43_control.md R161, R162). -/
def writeEffect (off : Nat) (n : Width) (v : Word) (s : State) : State :=
  match writeKind off n with
  | .busError => s
  | .ignored => s
  | .command => if s.status.busy then s.dropWrite else s.accept v
  | .input => if s.status.busy then s.dropWrite else s.performWrite off n v

/-- The response to a write: Ok, or BusError (20_memory.md R54, R55, R58). -/
def writeReply (off : Nat) (n : Width) : Reply := ⟨writeKind off n == .busError, 0⟩

/-- `MemWrite(off, n, v)` (20_memory.md R50). -/
def memWrite (off : BitVec 8) (n : Width) (v : Word) (s : State) : State :=
  (writeEffect off.toNat n v s).respond (writeReply off.toNat n)

/-- The window offset a physical address selects (20_memory.md R66, R67): none where the address is not the block's. -/
def windowOffset (addr : Nat) : Option (BitVec 8) :=
  if Config.b39pBase ≤ addr ∧ addr < Config.b39pBase + 256 then some (BitVec.ofNat 8 addr) else none

/-- A platform read as the transaction the block sees (20_memory.md R67). -/
def platformRead (addr : Nat) (n : Width) : Option HostEvent := (windowOffset addr).map fun off => .read off n

/-- A platform write as the transaction the block sees (20_memory.md R67). -/
def platformWrite (addr : Nat) (n : Width) (v : Word) : Option HostEvent := (windowOffset addr).map fun off => .write off n v

end Sys2Proof.Machine
end

