-- ==== Sys2Proof/Machine/HostPort.lean ====
section
/-! DEFINITION. The host's turn: one event of the script (20_memory.md R60, 30_encoding.md R91, R92, 70_reset_and_hazards.md R230). -/

namespace Sys2Proof.Machine

/-- One poll of `wait` (30_encoding.md R92): a 4-byte read of STATUS; the loop goes on while bit 0 of the value read is 1. -/
def pollStatus (s : State) : State :=
  let t := memRead 0x04 .word s
  if (readReply s 0x04 .word).data.getLsbD 0 then { t with script := .wait :: t.script } else t

/-- The effect of one host event on the state. -/
def hostEvent (ev : HostEvent) (s : State) : State :=
  match ev with
  | .read off n => memRead off n s
  | .write off n v => memWrite off n v s
  | .wait => pollStatus s
  | .rst => s.applyReset

/-- The host takes its next event, and the command in flight is one host transaction nearer to its completion (log 2). Without an event the
block holds its state (60_exceptions.md R218). -/
def hostTurn (s : State) : State :=
  match s.script with
  | [] => s
  | ev :: rest => hostEvent ev { s with script := rest, delay := s.delay - 1 }

end Sys2Proof.Machine
end

