-- ==== Sys2Proof/Machine/Sequencer.lean ====
section
/-! DEFINITION. The sequencer: the completion step and when it is taken (10_state.md R40, 70_reset_and_hazards.md R243, R244). -/

namespace Sys2Proof.Machine

/-- The completion step `Complete` (10_state.md R40): the command CMDL decodes to, or ILLEGAL (60_exceptions.md R203). -/
def complete (s : State) : Host.Outcome State Fault Refusal :=
  match decode s.cmdl with
  | .ok i => Sys2Proof.Machine.exec i s
  | .error _ => execIllegal s

/-- The command in flight needs an answer of the hash port to complete (20_memory.md R70). -/
def needsHash (s : State) : Bool :=
  match complete s with
  | .next t => decide (s.hashCalls.length < t.hashCalls.length)
  | _ => false

/-- The completion step is the next to happen: a command is in flight (10_state.md R40), every host transaction that lands before it has
landed or none is left (70_reset_and_hazards.md R243, log 2), and the hash unit answers if the command needs it (R244, log 6). -/
def sequencerTurn (s : State) : Bool :=
  s.status.busy && (s.script.isEmpty || s.delay == 0) && (s.hashPort == .answering || !needsHash s)

/-- The command word `w` in flight with its completion step next: an acceptance (43_control.md R161) that no host transaction follows
before the completion, on a platform whose hash unit answers. -/
def State.inFlight (w : Word) (s : State) : State := { s.latchCommand w with delay := 0, hashPort := .answering }

end Sys2Proof.Machine
end

