-- ==== Sys2Proof/Machine/Step.lean ====
section
/-! DEFINITION. One step of the machine: a completion step of the sequencer, or one event of the host (20_memory.md R59, R60). -/

namespace Sys2Proof.Machine

/-- One step. A STATUS.ERR with a reserved code faults (93_implementation_defined.md U10). -/
def step (s : State) : Host.Outcome State Fault Refusal :=
  if reservedErr s.status.err then .fault .reservedErrCode
  else if sequencerTurn s then complete s
  else .next (hostTurn s)

/-- `s` with the command word `w` placed so that the very next step runs it (log 5): the machine fetches no instruction, a command word is
accepted into CMDL. -/
def State.withFetchWord (s : State) (nbits w : Nat) : State := s.inFlight (BitVec.ofNat 32 (w % 2 ^ nbits))

end Sys2Proof.Machine
end

