-- ==== Sys2Proof/Machine/Datapath.lean ====
section
/-! DEFINITION. The reference streaming datapaths with their remainder carry: the packer (40_encode.md R106) and the unpacker
(41_decode.md R127). They are required to give what the string definitions of Bits.lean give; their working state is no state of the
machine (10_state.md R38). -/

namespace Sys2Proof.Machine

/-- The packer's working state: accumulator, carry count, and the indices emitted so far in order (40_encode.md R106). -/
structure PackCarry where
  acc : Nat
  nb : Nat
  out : List Half
  deriving DecidableEq, Repr

/-- The packer's input stream of values with their count of significant bits (40_encode.md R106): the last digest byte may be partial. -/
def packFeeds (x : List Byte) (d : Digest) (c : Nat) : List (Nat × Nat) :=
  x.map (fun b => (b.toNat, 8)) ++
    (List.range ((c + 7) / 8)).map fun t =>
      let m := min 8 (c - 8 * t)
      ((d.toList.getD t 0).toNat >>> (8 - m), m)

/-- `while nb >= 11`: emit an index and keep the remainder (40_encode.md R106). The fuel bounds the loop. -/
def packEmit : Nat → PackCarry → PackCarry
  | 0, p => p
  | fuel + 1, p =>
    if 11 ≤ p.nb then
      packEmit fuel
        { acc := p.acc &&& (1 <<< (p.nb - 11) - 1)
          nb := p.nb - 11
          out := p.out ++ [BitVec.ofNat 16 ((p.acc >>> (p.nb - 11)) &&& 0x7FF)] }
    else p

/-- One feed of `m` bits (40_encode.md R106). -/
def packFeed (p : PackCarry) (f : Nat × Nat) : PackCarry :=
  packEmit (p.nb + f.2) { p with acc := (p.acc <<< f.2) ||| f.1, nb := p.nb + f.2 }

/-- The streaming packer (40_encode.md R106). -/
def packStream (x : List Byte) (d : Digest) (c : Nat) : PackCarry := (packFeeds x d c).foldl packFeed ⟨0, 0, []⟩

/-- The unpacker's working state: accumulator, carry count, the entropy bytes and the checksum bits taken so far (41_decode.md R127). -/
structure UnpackCarry where
  acc : Nat
  nb : Nat
  ent : List Byte
  chk : List Bool
  deriving DecidableEq, Repr

/-- `while nb >= 8 and j < B`: emit a byte and keep the remainder (41_decode.md R127). The fuel bounds the loop. -/
def unpackEmit (b : Nat) : Nat → UnpackCarry → UnpackCarry
  | 0, p => p
  | fuel + 1, p =>
    if 8 ≤ p.nb ∧ p.ent.length < b then
      unpackEmit b fuel
        { p with
          acc := p.acc &&& (1 <<< (p.nb - 8) - 1)
          nb := p.nb - 8
          ent := p.ent ++ [BitVec.ofNat 8 ((p.acc >>> (p.nb - 8)) &&& 0xFF)] }
    else p

/-- `if j = B`: the carried bits are checksum bits, the oldest first (41_decode.md R127). -/
def unpackSpill (b : Nat) (p : UnpackCarry) : UnpackCarry :=
  if p.ent.length = b then
    { p with
      acc := 0
      nb := 0
      chk := p.chk ++ (List.range p.nb).map fun t => p.acc.testBit (p.nb - 1 - t) }
  else p

/-- One feed of an 11-bit index (41_decode.md R127). -/
def unpackFeed (b : Nat) (p : UnpackCarry) (v : Half) : UnpackCarry :=
  unpackSpill b
    (unpackEmit b (p.nb + 11) { p with acc := (p.acc <<< 11) ||| (v.extractLsb' 0 11).toNat, nb := p.nb + 11 })

/-- The streaming unpacker (41_decode.md R127). -/
def unpackStream (ks : List Half) (b : Nat) : UnpackCarry := ks.foldl (unpackFeed b) ⟨0, 0, [], []⟩

end Sys2Proof.Machine
end

