-- ==== Sys2Proof/Machine/Assembler.lean ====
section
/-! DEFINITION. The textual form of command words: assembler and disassembler (30_encoding.md R90, R93). Text is a list of characters. -/

namespace Sys2Proof.Machine

/-- The commands with operands. -/
inductive AsmOp where
  | acct
  | enc
  | dec
  deriving DecidableEq, Repr

/-- One line of assembly (30_encoding.md R90): a command with its suffix, `clr`, or the directive `.illegal` of R93 (log 11). -/
inductive AsmLine where
  | cmd (op : AsmOp) (mode : Mode) (n : Nat) (ct : Option Nat)
  | clr
  | illegal (w : Nat)
  deriving DecidableEq, Repr

/-- The command of an operation and its operands. -/
def AsmOp.instr : AsmOp → Mode → Nat → Nat → Instr
  | .acct => .acct
  | .enc => .enc
  | .dec => .dec

/-- The word of a line, none where the assembler refuses it (30_encoding.md R90): N > 255, CT > 511, or a missing CT on `.exp`. The
directive names an illegal word only (log 11). -/
def assembleLine : AsmLine → Option Word
  | .cmd op mode n ct =>
    if n ≤ 255 ∧ ct.getD 0 ≤ 511 ∧ (mode = .exp → ct.isSome) then some (encode (op.instr mode n (ct.getD 0))) else none
  | .clr => some (encode .clr)
  | .illegal w =>
    if w < 2 ^ 32 then
      match decode (BitVec.ofNat 32 w) with
      | .ok _ => none
      | .error _ => some (BitVec.ofNat 32 w)
    else none

/-- The value of a digit character, decimal or hexadecimal. -/
def digitValue (ch : Char) : Option Nat :=
  if 48 ≤ ch.toNat ∧ ch.toNat ≤ 57 then some (ch.toNat - 48)
  else if 97 ≤ ch.toNat ∧ ch.toNat ≤ 102 then some (ch.toNat - 87)
  else if 65 ≤ ch.toNat ∧ ch.toNat ≤ 70 then some (ch.toNat - 55)
  else none

/-- Digits in a base, most significant first, after the value `acc`. -/
def digitsFrom (base acc : Nat) : List Char → Option Nat
  | [] => some acc
  | ch :: rest =>
    match digitValue ch with
    | some d => if d < base then digitsFrom base (base * acc + d) rest else none
    | none => none

/-- A decimal or `0x` hexadecimal integer (30_encoding.md R90). -/
def parseNumber : List Char → Option Nat
  | [] => none
  | '0' :: 'x' :: ds => if ds.isEmpty then none else digitsFrom 16 0 ds
  | ds => digitsFrom 10 0 ds

/-- Without the spaces at both ends. -/
def trimSpaces (cs : List Char) : List Char := ((cs.dropWhile (· == ' ')).reverse.dropWhile (· == ' ')).reverse

/-- The words before and after the first space of a line. -/
def splitWord (cs : List Char) : List Char × List Char :=
  let t := trimSpaces cs
  (t.takeWhile (· != ' '), trimSpaces (t.dropWhile (· != ' ')))

/-- The comma-separated operands of a line; an empty text has none. -/
def operandTexts (cs : List Char) : List (List Char) :=
  if cs.isEmpty then [] else (cs.splitOn ',').map trimSpaces

/-- The comma-separated numbers of a line. -/
def parseNumbers (cs : List Char) : Option (List Nat) := (operandTexts cs).mapM parseNumber

/-- The operation before the dot. -/
def asmOpOfText (cs : List Char) : Option AsmOp :=
  if cs = "acct".toList then some .acct
  else if cs = "enc".toList then some .enc
  else if cs = "dec".toList then some .dec
  else none

/-- The suffix after the dot (30_encoding.md R82). -/
def modeOfText (cs : List Char) : Option Mode :=
  if cs = "std".toList then some .std
  else if cs = "rlx".toList then some .rlx
  else if cs = "exp".toList then some .exp
  else none

/-- One line of assembly text (30_encoding.md R90), none where it is not one. -/
def parseAsm (cs : List Char) : Option AsmLine :=
  let (word, rest) := splitWord cs
  if word = "clr".toList then if rest.isEmpty then some .clr else none
  else if word = ".illegal".toList then
    match parseNumbers rest with
    | some [w] => some (.illegal w)
    | _ => none
  else
    match word.splitOn '.' with
    | [opText, modeText] =>
      match asmOpOfText opText, modeOfText modeText, parseNumbers rest with
      | some op, some mode, some [n] => some (.cmd op mode n none)
      | some op, some mode, some [n, ct] => some (.cmd op mode n (some ct))
      | _, _, _ => none
    | _ => none

/-- The assembler on text (30_encoding.md R90). -/
def assembleText (cs : List Char) : Option Word := (parseAsm cs).bind assembleLine

/-- An operation as text. -/
def AsmOp.text : AsmOp → List Char
  | .acct => "acct".toList
  | .enc => "enc".toList
  | .dec => "dec".toList

/-- A suffix as text (30_encoding.md R82). -/
def modeText : Mode → List Char
  | .std => ".std ".toList
  | .rlx => ".rlx ".toList
  | .exp => ".exp ".toList

/-- A number in decimal. -/
def decimalText (n : Nat) : List Char := Nat.toDigits 10 n

/-- One hexadecimal digit, in capitals. -/
def hexDigit (d : Nat) : Char := if d < 10 then Char.ofNat (48 + d) else Char.ofNat (55 + d)

/-- A word as eight hexadecimal digits. -/
def hexText (w : Word) : List Char := (List.range 8).map fun j => hexDigit (w.toNat / 16 ^ (7 - j) % 16)

/-- A command with its operands (30_encoding.md R90): CT is printed for `.exp`, and elsewhere where it is not 0. -/
def commandText (op : AsmOp) (mode : Mode) (n ct : Nat) : List Char :=
  op.text ++ modeText mode ++ decimalText n ++ (if mode = .exp ∨ ct ≠ 0 then ", ".toList ++ decimalText ct else [])

/-- The disassembler (30_encoding.md R90). -/
def disassemble (w : Word) : List Char :=
  match decode w with
  | .ok (.acct mode n ct) => commandText .acct mode n ct
  | .ok (.enc mode n ct) => commandText .enc mode n ct
  | .ok (.dec mode n ct) => commandText .dec mode n ct
  | .ok .clr => "clr".toList
  | .error _ => ".illegal 0x".toList ++ hexText w

end Sys2Proof.Machine
end

