-- ==== Sys2Proof/Machine/Script.lean ====
section
/-! DEFINITION. The host-script primitives and pseudo-instructions as host events, with their exact expansions (30_encoding.md R91, R92). -/

namespace Sys2Proof.Machine

/-- `wr.b OFF, V` (30_encoding.md R91). -/
def wrB (off : BitVec 8) (v : Byte) : HostEvent := .write off .byte (v.setWidth 32)

/-- `wr.h OFF, V` (30_encoding.md R91). -/
def wrH (off : BitVec 8) (v : Half) : HostEvent := .write off .half (v.setWidth 32)

/-- `wr.w OFF, V` (30_encoding.md R91). -/
def wrW (off : BitVec 8) (v : Word) : HostEvent := .write off .word v

/-- A command mnemonic as a transaction (30_encoding.md R91): `MemWrite(0x008, 4, encoding)`. -/
def issue (w : Word) : HostEvent := wrW 0x08 w

/-- `run X` (30_encoding.md R92). -/
def runCommand (w : Word) : List HostEvent := [issue w, .wait]

/-- `setent b0, b1, ...` (30_encoding.md R92). -/
def setEntropy (bs : List Byte) : List HostEvent :=
  bs.zipIdx.map (fun p => wrB (BitVec.ofNat 8 (0x20 + p.2)) p.1) ++ [wrW 0x0C (BitVec.ofNat 32 bs.length)]

/-- `setidx v0, v1, ...` (30_encoding.md R92). -/
def setIndices (vs : List Half) : List HostEvent :=
  vs.zipIdx.map fun p => wrH (BitVec.ofNat 8 (0x60 + 2 * p.2)) p.1

/-- The width a primitive's suffix names (30_encoding.md R91). -/
def widthOfText (cs : List Char) : Option Width :=
  if cs = "b".toList then some .byte
  else if cs = "h".toList then some .half
  else if cs = "w".toList then some .word
  else none

/-- Every number of a list is below a bound. -/
def allBelow (bound : Nat) (xs : List Nat) : Bool := xs.all fun x => decide (x < bound)

/-- A `wr.x` or `rd.x` line (30_encoding.md R91): an offset of the window, and a value that fits the width (log 11). -/
def parsePrimitive (word rest : List Char) : Option HostEvent :=
  match word.splitOn '.' with
  | [verb, suffix] =>
    match widthOfText suffix, parseNumbers rest with
    | some n, some [off] => if verb = "rd".toList ∧ off < 256 then some (.read (BitVec.ofNat 8 off) n) else none
    | some n, some [off, v] =>
      if verb = "wr".toList ∧ off < 256 ∧ v < 256 ^ n.bytes then some (.write (BitVec.ofNat 8 off) n (BitVec.ofNat 32 v)) else none
    | _, _ => none
  | _ => none

/-- `setent` with the numbers of its line (30_encoding.md R92): bytes, with no bound on how many but that every offset is in the window
(20_memory.md R66, log 11). -/
def setEntropyOf (bs : List Nat) : Option (List HostEvent) :=
  if allBelow 256 bs ∧ 0x20 + bs.length ≤ Config.windowBytes then some (setEntropy (bs.map (BitVec.ofNat 8))) else none

/-- `setidx` with the numbers of its line (30_encoding.md R92), bounded as `setent` is. -/
def setIndicesOf (vs : List Nat) : Option (List HostEvent) :=
  if allBelow 65536 vs ∧ 0x60 + 2 * vs.length ≤ Config.windowBytes then some (setIndices (vs.map (BitVec.ofNat 16))) else none

/-- One line of a host script as the events it expands to (30_encoding.md R91, R92), none where it is not one. DESIGN CHOICE (log 11): `run`
and a line by itself take the directive `.illegal W` where the rules say a command mnemonic, and issue the illegal word. -/
def parseScriptLine (cs : List Char) : Option (List HostEvent) :=
  let (word, rest) := splitWord cs
  if word = "wait".toList then if rest.isEmpty then some [.wait] else none
  else if word = "run".toList then (assembleText rest).map runCommand
  else if word = "setent".toList then (parseNumbers rest).bind setEntropyOf
  else if word = "setidx".toList then (parseNumbers rest).bind setIndicesOf
  else
    match parsePrimitive word rest with
    | some ev => some [ev]
    | none => (assembleText cs).map fun w => [issue w]

/-- A script is its lines' events in order (30_encoding.md R91). -/
def parseScript (lines : List (List Char)) : Option (List HostEvent) := (lines.mapM parseScriptLine).map List.flatten

end Sys2Proof.Machine
end

