-- ==== Sys2Proof/Safety.lean ====
section
/-! DEFINITION. What a safe run is, and the invariants of the block that claims are stated with. -/

namespace Sys2Proof

open Sys2Proof.Machine

/-- The step answers a next state: no fault, no refusal (60_exceptions.md R211: no error stops the block). -/
def Safe (s : State) : Prop := ∃ t, Machine.step s = .next t

/-- ERR holds one of the five codes (10_state.md R27). -/
abbrev ErrLegal (s : State) : Prop := s.status.err.toNat ≤ 4

/-- While a command is in flight neither DONE nor an error is shown (10_state.md R24, R27, 43_control.md R161). -/
def BusyClear (s : State) : Prop := s.status.busy = true → s.status.done = false ∧ s.status.err = 0

/-- RESULT is a failed accounting's echo or balances the bit budget (10_state.md R30, 42_accounting.md R144). -/
def ResultBalanced (s : State) : Prop :=
  (s.result.b = 0 ∧ s.result.c = 0) ∨
    (11 * s.result.n.toNat = 8 * s.result.b.toNat + s.result.c.toNat ∧
      1 ≤ s.result.b.toNat ∧ s.result.b.toNat ≤ 32 ∧ s.result.c.toNat ≤ 256)

/-- The invariant of the control registers. -/
def ControlInv (s : State) : Prop := ErrLegal s ∧ BusyClear s ∧ ResultBalanced s

/-- The buffers hold a genuine pair (10_state.md R22, R25): for some word count n and checksum length c, the first n indices are exactly
the entropy ENT[0..ENT_LEN) followed by the first c bits of its digest, and DIGEST is that digest. -/
def GenuinePair (s : State) : Prop :=
  ∃ n c, n ≤ 46 ∧ c ≤ 256 ∧ 11 * n = 8 * s.entLen.toNat + c ∧
    s.digest = Config.hash256 (entPrefix s s.entLen.toNat) ∧
    anyInvalidIndex s n = false ∧
    indexBits (idxPrefix s n) = packedBits (entPrefix s s.entLen.toNat) s.digest c

/-- VALID vouches for the pair (10_state.md R25). -/
def ValidInv (s : State) : Prop := s.status.valid = true → 1 ≤ s.entLen.toNat ∧ s.entLen.toNat ≤ 32 ∧ GenuinePair s

/-- The host's side of the bus, the schedule and the platform's constant are the same in both states. -/
def SameHostSide (s t : State) : Prop :=
  t.script = s.script ∧ t.replies = s.replies ∧ t.schedule = s.schedule ∧ t.delay = s.delay ∧ t.draws = s.draws ∧ t.hashPort = s.hashPort

/-- The buffers and ENT_LEN are the same in both states. -/
def SameBuffers (s t : State) : Prop :=
  t.ent = s.ent ∧ t.idx = s.idx ∧ t.digest = s.digest ∧ t.entLen = s.entLen

/-- The spec's state record is the same in both states (10_state.md R39). -/
def SameBlock (s t : State) : Prop :=
  SameBuffers s t ∧ t.result = s.result ∧ t.status = s.status ∧ t.cmdl = s.cmdl

/-- STATUS after a completion with an error code (60_exceptions.md R208) that leaves VALID at `valid`: BUSY 0, DONE 1, BUSY_VIOL as before. -/
def StatusAfter (code : BitVec 4) (valid : Bool) (s t : State) : Prop :=
  t.status = ⟨false, true, valid, s.status.busyViol, code⟩

/-- RESULT reads (n, b, c). -/
def ResultIs (n b c : Nat) (t : State) : Prop :=
  t.result.n.toNat = n ∧ t.result.b.toNat = b ∧ t.result.c.toNat = c

/-- Bit `i` of the packed string of 40_encode.md R103, from the buffers: entropy bits first, then digest bits, MSB-first. -/
def packedBit (ent : Vector Byte 32) (d : Digest) (b i : Nat) : Bool :=
  if i < 8 * b then ((ent[i / 8]?).getD 0).getLsbD (7 - i % 8)
  else ((d[(i - 8 * b) / 8]?).getD 0).getLsbD (7 - (i - 8 * b) % 8)

/-- Bit `i` of the string an index buffer holds (41_decode.md R123): bit `10 - i mod 11` of entry `i div 11`. -/
def indexBit (idx : Vector Half 46) (i : Nat) : Bool := ((idx[i / 11]?).getD 0).getLsbD (10 - i % 11)

/-- `s` with bit `i` of the string its index buffer holds flipped (41_decode.md R129). -/
def flipIndexBit (s : State) (i : Nat) : State :=
  { s with idx := s.idx.mapIdx fun k old => if k = i / 11 then old ^^^ BitVec.twoPow 16 (10 - i % 11) else old }

end Sys2Proof
end

