-- ==== Sys2Proof/Certificates/Slice0/Obligations.lean ====
section
/-! DEFINITION. The statements for the provers. Each docstring names the rule it formalises. -/

open Sys2Proof Sys2Proof.Machine

/-! ## Encoding -/

/-- 30_encoding.md R93: the examples, as text and as words. That the assembler reads the directive `.illegal` is log 11's. -/
def Obligations.EncodingExamples : Prop :=
  (assembleText "acct.std 12".toList = some 0x00000C01 ∧ decode 0x00000C01 = .ok (.acct .std 12 0)) ∧
  (assembleText "enc.std 12".toList = some 0x00000C02 ∧ decode 0x00000C02 = .ok (.enc .std 12 0)) ∧
  (assembleText "dec.std 12".toList = some 0x00000C03 ∧ decode 0x00000C03 = .ok (.dec .std 12 0)) ∧
  (assembleText "enc.std 24".toList = some 0x00001802 ∧ decode 0x00001802 = .ok (.enc .std 24 0)) ∧
  (assembleText "acct.rlx 23".toList = some 0x00001711 ∧ decode 0x00001711 = .ok (.acct .rlx 23 0)) ∧
  (assembleText "enc.rlx 1".toList = some 0x00000112 ∧ decode 0x00000112 = .ok (.enc .rlx 1 0)) ∧
  (assembleText "dec.rlx 8".toList = some 0x00000813 ∧ decode 0x00000813 = .ok (.dec .rlx 8 0)) ∧
  (assembleText "enc.exp 3, 9".toList = some 0x00090322 ∧ decode 0x00090322 = .ok (.enc .exp 3 9)) ∧
  (assembleText "dec.exp 3, 9".toList = some 0x00090323 ∧ decode 0x00090323 = .ok (.dec .exp 3 9)) ∧
  (assembleText "dec.exp 46, 250".toList = some 0x00FA2E23 ∧ decode 0x00FA2E23 = .ok (.dec .exp 46 250)) ∧
  (assembleText "clr".toList = some 0x00000004 ∧ decode 0x00000004 = .ok .clr) ∧
  (assembleText ".illegal 0x00000C32".toList = some 0x00000C32 ∧ decode 0x00000C32 = .error .mode3) ∧
  (assembleText ".illegal 0x00000000".toList = some 0x00000000 ∧ decode 0x00000000 = .error .opcode)

/-- Decode and encode agree on every well-formed command (30_encoding.md R80, R87, R90). -/
def Obligations.DecodeInvertsEncode : Prop :=
  ∀ i : Instr, WellFormed i = true → decode (encode i) = .ok i

/-- Encode and decode agree on every legal word: no bit is dropped, but for the bits a CLR word ignores (30_encoding.md R86, R87). -/
def Obligations.EncodeInvertsDecode : Prop :=
  ∀ (w : Word) (i : Instr), decode w = .ok i →
    WellFormed i = true ∧ (i ≠ .clr → encode i = w) ∧ (i = .clr → w &&& 0xFE0000CF = 0x00000004)

/-- 30_encoding.md R86: a word matches a row exactly when it decodes to that row's command, and the operands are the row's fields; CT is
read in MODE 2 only. -/
def Obligations.OpcodeMapAgreesWithDecode : Prop :=
  (∀ w : Word, ∀ r ∈ opcodeMap, (r.matchesWord w = true ↔ ∃ i, decode w = .ok i ∧ i.mnemonic = r.mnemonic)) ∧
  (∀ (w : Word) (mode : Mode) (n ct : Nat),
    (decode w = .ok (.acct mode n ct) ∨ decode w = .ok (.enc mode n ct) ∨ decode w = .ok (.dec mode n ct)) →
      mode.bits = w.extractLsb' 4 2 ∧ n = (w.extractLsb' 8 8).toNat ∧ ct = (w.extractLsb' 16 9).toNat) ∧
  (∀ (mode : Mode) (n ct ct' : Nat), mode ≠ .exp → acct mode n ct = acct mode n ct')

/-- The illegal words are exactly those of 30_encoding.md R88 (a) to (d). -/
def Obligations.IllegalWordsExactly : Prop :=
  ∀ w : Word, (∃ e, decode w = .error e) ↔
    ((w.extractLsb' 0 4 = 0 ∨ 5 ≤ (w.extractLsb' 0 4).toNat) ∨ w.extractLsb' 6 2 ≠ 0 ∨ w.extractLsb' 25 7 ≠ 0 ∨
      ((w.extractLsb' 0 4 = 1 ∨ w.extractLsb' 0 4 = 2 ∨ w.extractLsb' 0 4 = 3) ∧ w.extractLsb' 4 2 = 3))

/-- Assembling what the disassembler prints gives the word back, for every illegal word (through the directive of log 11) and every legal
one that is no CLR; every CLR word prints as `clr` (30_encoding.md R90). -/
def Obligations.AssembleInvertsDisassemble : Prop :=
  ∀ w : Word, (decode w ≠ .ok .clr → assembleText (disassemble w) = some w) ∧
    (decode w = .ok .clr → disassemble w = "clr".toList)

/-! ## Accounting -/

/-- 42_accounting.md R141: the six rows, and no other. -/
def Obligations.StandardModeRows : Prop :=
  (∀ ct, acct .std 9 ct = some (12, 3) ∧ acct .std 12 ct = some (16, 4) ∧ acct .std 15 ct = some (20, 5) ∧
    acct .std 18 ct = some (24, 6) ∧ acct .std 21 ct = some (28, 7) ∧ acct .std 24 ct = some (32, 8)) ∧
  (∀ n ct, n ∉ [9, 12, 15, 18, 21, 24] → acct .std n ct = none) ∧
  (∀ n ct, n ∈ [9, 12, 15, 18, 21, 24] →
    acct .std n ct = some (4 * n / 3, n / 3) ∧ 4 * n / 3 = (11 * n - n / 3) / 8 ∧ 11 * n = 8 * (4 * n / 3) + n / 3)

/-- 42_accounting.md R142: relaxed mode accepts exactly 1 to 23, with B = floor(11n/8) and C = 11n mod 8 = 3n mod 8. -/
def Obligations.RelaxedModeAcceptsExactly : Prop :=
  ∀ n ct, acct .rlx n ct = (if 1 ≤ n ∧ n ≤ 23 then some (11 * n / 8, 11 * n % 8) else none) ∧
    11 * n % 8 = 11 * n - 8 * (11 * n / 8) ∧ 11 * n % 8 = 3 * n % 8 ∧ (1 ≤ n → 1 ≤ 11 * n / 8)

/-- 42_accounting.md R143: explicit mode accepts exactly the balanced budgets with CT as checksum; n is at most 46, and every entropy
length is reached by every n whose checksum fits; only targets congruent to 3n are accepted. The last three (the largest n, the congruence,
the reachable lengths) are the sentences the spec itself marks as derived from R143's pseudocode. -/
def Obligations.ExplicitModeAcceptsExactly : Prop :=
  (∀ n ct b c, acct .exp n ct = some (b, c) ↔
    (c = ct ∧ ct ≤ 256 ∧ ct ≤ 11 * n ∧ 11 * n = 8 * b + ct ∧ 1 ≤ b ∧ b ≤ 32)) ∧
  acct .exp 46 250 = some (32, 250) ∧
  (∀ n ct, (acct .exp n ct).isSome = true → n ≤ 46 ∧ ct % 8 = 3 * n % 8) ∧
  (∀ b n, 1 ≤ b → b ≤ 32 → 8 * b ≤ 11 * n → 11 * n ≤ 8 * b + 256 → acct .exp n (11 * n - 8 * b) = some (b, 11 * n - 8 * b))

/-- 42_accounting.md R144: the accounting invariant. -/
def Obligations.AccountingInvariant : Prop :=
  ∀ mode n ct b c, acct mode n ct = some (b, c) →
    11 * n = 8 * b + c ∧ 1 ≤ b ∧ b ≤ 32 ∧ c ≤ 256 ∧ 1 ≤ n ∧ n ≤ 46 ∧ (mode ≠ .exp → c ≤ 8)

/-- 42_accounting.md R147: the relaxed and standard columns for n = 0 to 27, and the entropy lengths relaxed mode carries, each with exactly
one n. -/
def Obligations.AccountingTable : Prop :=
  (List.range 28).map (fun n => acct .rlx n 0) =
    [none, some (1, 3), some (2, 6), some (4, 1), some (5, 4), some (6, 7), some (8, 2), some (9, 5), some (11, 0), some (12, 3),
     some (13, 6), some (15, 1), some (16, 4), some (17, 7), some (19, 2), some (20, 5), some (22, 0), some (23, 3), some (24, 6),
     some (26, 1), some (27, 4), some (28, 7), some (30, 2), some (31, 5), none, none, none, none] ∧
  (List.range 28).map (fun n => acct .std n 0) =
    [none, none, none, none, none, none, none, none, none, some (12, 3), none, none, some (16, 4), none, none, some (20, 5), none,
     none, some (24, 6), none, none, some (28, 7), none, none, some (32, 8), none, none, none] ∧
  (∀ b, (∃ n ct c, acct .rlx n ct = some (b, c)) ↔
    b ∈ [1, 2, 4, 5, 6, 8, 9, 11, 12, 13, 15, 16, 17, 19, 20, 22, 23, 24, 26, 27, 28, 30, 31]) ∧
  (∀ b n n' ct ct' c c', acct .rlx n ct = some (b, c) → acct .rlx n' ct' = some (b, c') → n = n')

/-- 42_accounting.md R149: standard and relaxed compared, and explicit mode with ct = C reproduces both. -/
def Obligations.ModesCompared : Prop :=
  (∀ n ct, n ∈ [9, 12, 15, 18, 21] → acct .std n ct = acct .rlx n ct ∧ (acct .std n ct).isSome = true) ∧
  (∀ ct, acct .std 24 ct = some (32, 8) ∧ acct .rlx 24 ct = none ∧ 11 * 24 / 8 = 33) ∧
  (∀ n ct, n ∉ [9, 12, 15, 18, 21, 24] → acct .std n ct = none) ∧
  (∀ n ct, 1 ≤ n → n ≤ 23 → (acct .rlx n ct).isSome = true) ∧
  (∀ mode n ct b c, mode ≠ .exp → acct mode n ct = some (b, c) → acct .exp n c = some (b, c))

/-! ## ACCT -/

/-- ACCT completes in every state and reports the accounting; it reads and writes no buffer, keeps VALID and calls no hash
(42_accounting.md R150, 10_state.md R41). -/
def Obligations.AcctCompletes : Prop :=
  ∀ (mode : Mode) (n ct : Nat) (s : State), n ≤ 255 →
    ∃ t, exec (.acct mode n ct) s = .next t ∧
      (acct mode n ct = none → ResultIs n 0 0 t ∧ StatusAfter 1 s.status.valid s t) ∧
      (∀ b c, acct mode n ct = some (b, c) → ResultIs n b c t ∧ StatusAfter 0 s.status.valid s t) ∧
      SameBuffers s t ∧ t.cmdl = s.cmdl ∧ t.hashCalls = s.hashCalls ∧ SameHostSide s t

/-! ## ENC -/

/-- ENC completes with the packed indices when the accounting gives (B, C) and ENT_LEN = B; ENT, ENT_LEN and the entries from N on stay
(40_encode.md R100, R102 to R105, 10_state.md R41). -/
def Obligations.EncPacksEntropy : Prop :=
  ∀ (mode : Mode) (n ct b c : Nat) (s : State), acct mode n ct = some (b, c) → s.entLen.toNat = b →
    ∃ t, exec (.enc mode n ct) s = .next t ∧
      t.digest = Config.hash256 (entPrefix s b) ∧
      (∀ k (_ : k < 46), t.idx[k] =
        if k < n then BitVec.ofNat 16 (bitVal (bitSlice (packedBits (entPrefix s b) t.digest c) (11 * k) (11 * k + 11))) else s.idx[k]) ∧
      ResultIs n b c t ∧ StatusAfter 0 true s t ∧ t.hashCalls = entPrefix s b :: s.hashCalls ∧
      t.ent = s.ent ∧ t.entLen = s.entLen ∧ t.cmdl = s.cmdl ∧ SameHostSide s t

/-- 40_encode.md R103, R104, bit by bit: bit t of group k is bit 11k + t of the string whose first 8B bits are the entropy's and whose next C
bits are the digest's, each byte MSB-first; the upper five bits are 0. -/
def Obligations.EncIndexBits : Prop :=
  ∀ (mode : Mode) (n ct b c : Nat) (s : State), acct mode n ct = some (b, c) → s.entLen.toNat = b →
    ∃ t, exec (.enc mode n ct) s = .next t ∧ 8 * b + c = 11 * n ∧
      ∀ k (_ : k < 46), k < n →
        (∀ i, i < 11 → (t.idx[k]).getLsbD (10 - i) = packedBit s.ent t.digest b (11 * k + i)) ∧
        (∀ i, 11 ≤ i → (t.idx[k]).getLsbD i = false)

/-- 40_encode.md R101: ENC's two failures leave every buffer as it was and call no hash. -/
def Obligations.EncFailures : Prop :=
  ∀ (mode : Mode) (n ct : Nat) (s : State), n ≤ 255 →
    (acct mode n ct = none →
      ∃ t, exec (.enc mode n ct) s = .next t ∧ ResultIs n 0 0 t ∧ StatusAfter 1 false s t ∧
        SameBuffers s t ∧ t.cmdl = s.cmdl ∧ t.hashCalls = s.hashCalls ∧ SameHostSide s t) ∧
    (∀ b c, acct mode n ct = some (b, c) → s.entLen.toNat ≠ b →
      ∃ t, exec (.enc mode n ct) s = .next t ∧ ResultIs n b c t ∧ StatusAfter 1 false s t ∧
        SameBuffers s t ∧ t.cmdl = s.cmdl ∧ t.hashCalls = s.hashCalls ∧ SameHostSide s t)

/-- 40_encode.md R105: ENC's success, and that its outputs depend only on ENT[0..B), MODE, N and CT where MODE = 2. -/
def Obligations.EncIsDeterministic : Prop :=
  ∀ (mode : Mode) (n ct ct' b c : Nat) (s u : State), acct mode n ct = some (b, c) → s.entLen.toNat = b → u.entLen.toNat = b →
    (mode = .exp → ct' = ct) → (∀ i (_ : i < 32), i < b → u.ent[i] = s.ent[i]) →
    ∃ t v, exec (.enc mode n ct) s = .next t ∧ exec (.enc mode n ct') u = .next v ∧
      t.status.valid = true ∧ t.status.err = 0 ∧ v.status.valid = true ∧ v.status.err = 0 ∧
      (∀ k (_ : k < 46), k < n → v.idx[k] = t.idx[k]) ∧ v.digest = t.digest ∧ v.result = t.result

/-- 40_encode.md R108: every index ENC writes is below 2048, and a DEC of those entries never raises INVALID_INDEX. -/
def Obligations.EncIndicesBelow2048 : Prop :=
  ∀ (mode : Mode) (n ct : Nat) (s t : State), exec (.enc mode n ct) s = .next t → t.status.err = 0 →
    (∀ k (_ : k < 46), k < n → (t.idx[k]).toNat < 2048 ∧ (t.idx[k]).extractLsb' 11 5 = 0) ∧
    (∀ (mode' : Mode) (ct' : Nat) (u : State), (∀ k (_ : k < 46), k < n → u.idx[k] = t.idx[k]) →
      ∃ v, exec (.dec mode' n ct') u = .next v ∧ v.status.err ≠ 2)

/-- 40_encode.md R109: standard-table fidelity. -/
def Obligations.StandardTableFidelity : Prop :=
  ∀ (ct : Nat) (s : State),
    (s.entLen = 16 → ∃ t, exec (.enc .std 12 ct) s = .next t ∧ t.status.err = 0 ∧ t.result.c = 4) ∧
    (s.entLen = 32 → ∃ t, exec (.enc .std 24 ct) s = .next t ∧ t.status.err = 0 ∧ t.result.c = 8) ∧
    (s.entLen ≠ 16 → ∃ t, exec (.enc .std 12 ct) s = .next t ∧ t.status.err = 1) ∧
    (s.entLen ≠ 32 → ∃ t, exec (.enc .std 24 ct) s = .next t ∧ t.status.err = 1)

/-- 40_encode.md R106: the streaming packer gives the groups of R104, ends with no carried bit, and after every feed carries fewer than 11
bits: the bits of S that no index has taken, after at most 18 before emitting. -/
def Obligations.PackStreamIsGrouping : Prop :=
  ∀ (x : List Byte) (d : Digest) (c n : Nat), 8 * x.length + c = 11 * n → c ≤ 256 →
    (packStream x d c).out = groupIndices (packedBits x d c) n ∧ (packStream x d c).nb = 0 ∧
    (∀ j, j ≤ (packFeeds x d c).length →
      let fed := ((packFeeds x d c).take j).map Prod.snd |>.sum
      let p := ((packFeeds x d c).take j).foldl packFeed ⟨0, 0, []⟩
      p.nb = fed % 11 ∧ p.out.length = fed / 11 ∧ p.acc = bitVal (bitSlice (packedBits x d c) (11 * (fed / 11)) fed)) ∧
    (∀ f ∈ packFeeds x d c, f.2 ≤ 8)

/-! ## DEC -/

/-- DEC completes with the decoded entropy when the accounting gives (B, C) and every one of the N entries is in range: with NONE where the
extracted checksum is the digest's, with CHECKSUM_MISMATCH where it is not (41_decode.md R120, R124 to R126, 10_state.md R41). -/
def Obligations.DecUnpacksIndices : Prop :=
  ∀ (mode : Mode) (n ct b c : Nat) (s : State), acct mode n ct = some (b, c) →
    (∀ k (_ : k < 46), k < n → (s.idx[k]).toNat < 2048) →
    ∃ t, exec (.dec mode n ct) s = .next t ∧
      (∀ i (_ : i < 32), t.ent[i] =
        if i < b then BitVec.ofNat 8 (bitVal (bitSlice (indexBits (idxPrefix s n)) (8 * i) (8 * i + 8))) else s.ent[i]) ∧
      t.entLen.toNat = b ∧ t.digest = Config.hash256 (entPrefix t b) ∧
      (checksumBits (indexBits (idxPrefix s n)) b c = (bitsOf t.digest.toList).take c → StatusAfter 0 true s t) ∧
      (checksumBits (indexBits (idxPrefix s n)) b c ≠ (bitsOf t.digest.toList).take c → StatusAfter 3 false s t) ∧
      ResultIs n b c t ∧ t.hashCalls = entPrefix t b :: s.hashCalls ∧ t.idx = s.idx ∧ t.cmdl = s.cmdl ∧ SameHostSide s t

/-- 41_decode.md R126, bit by bit: NONE and VALID exactly when all C trailing bits equal the digest's first C bits; the decoded entropy and
its length stay in either case. -/
def Obligations.DecValidatesChecksum : Prop :=
  ∀ (mode : Mode) (n ct b c : Nat) (s : State), acct mode n ct = some (b, c) →
    (∀ k (_ : k < 46), k < n → (s.idx[k]).toNat < 2048) →
    ∃ t, exec (.dec mode n ct) s = .next t ∧ t.entLen.toNat = b ∧
      (∀ j (_ : j < 32), j < b → ∀ i, i < 8 → (t.ent[j]).getLsbD (7 - i) = indexBit s.idx (8 * j + i)) ∧
      ((∀ i, i < c → indexBit s.idx (8 * b + i) = ((t.digest[i / 8]?).getD 0).getLsbD (7 - i % 8)) →
        t.status.valid = true ∧ t.status.err = 0) ∧
      ((∃ i, i < c ∧ indexBit s.idx (8 * b + i) ≠ ((t.digest[i / 8]?).getD 0).getLsbD (7 - i % 8)) →
        t.status.valid = false ∧ t.status.err = 3)

/-- 41_decode.md R121: DEC's accounting failure. -/
def Obligations.DecAccountingFailure : Prop :=
  ∀ (mode : Mode) (n ct : Nat) (s : State), n ≤ 255 → acct mode n ct = none →
    ∃ t, exec (.dec mode n ct) s = .next t ∧ ResultIs n 0 0 t ∧ StatusAfter 1 false s t ∧
      SameBuffers s t ∧ t.cmdl = s.cmdl ∧ t.hashCalls = s.hashCalls ∧ SameHostSide s t

/-- 41_decode.md R122: an entry outside the range among the first N, and only there, ends DEC with INVALID_INDEX before anything is
unpacked. -/
def Obligations.DecInvalidIndex : Prop :=
  ∀ (mode : Mode) (n ct b c : Nat) (s : State), acct mode n ct = some (b, c) →
    ((∃ k, ∃ _ : k < 46, k < n ∧ (s.idx[k]).extractLsb' 11 5 ≠ 0) →
      ∃ t, exec (.dec mode n ct) s = .next t ∧ ResultIs n b c t ∧ StatusAfter 2 false s t ∧
        SameBuffers s t ∧ t.cmdl = s.cmdl ∧ t.hashCalls = s.hashCalls ∧ SameHostSide s t) ∧
    ((∀ k (_ : k < 46), k < n → (s.idx[k]).extractLsb' 11 5 = 0) →
      ∃ t, exec (.dec mode n ct) s = .next t ∧ t.status.err ≠ 2)

/-- 41_decode.md R127: the streaming unpacker gives the bytes and the checksum of R124, from any indices. -/
def Obligations.UnpackStreamIsSplit : Prop :=
  ∀ (ks : List Half) (b c : Nat), 8 * b + c = 11 * ks.length →
    (unpackStream ks b).ent = leadingBytes (indexBits ks) b ∧
    (unpackStream ks b).chk = checksumBits (indexBits ks) b c ∧ (unpackStream ks b).nb = 0 ∧
    (∀ j, j ≤ ks.length → ((ks.take j).foldl (unpackFeed b) ⟨0, 0, [], []⟩).nb ≤ 7)

/-- 41_decode.md R129: flipping any one bit of the checksum portion of a sequence that decodes without error makes it decode with
CHECKSUM_MISMATCH. -/
def Obligations.ChecksumSensitivity : Prop :=
  ∀ (mode : Mode) (n ct b c : Nat) (s t : State) (i : Nat), acct mode n ct = some (b, c) →
    exec (.dec mode n ct) s = .next t → t.status.err = 0 → i < c →
    ∃ u, exec (.dec mode n ct) (flipIndexBit s (8 * b + i)) = .next u ∧ u.status.err = 3 ∧ u.status.valid = false ∧
      u.digest = t.digest ∧ u.ent = t.ent

/-- 41_decode.md R130: the round trip. Whatever else changed since, a DEC over the indices an ENC wrote gives back the entropy, its
length and its digest, with NONE and VALID. -/
def Obligations.EncDecRoundTrip : Prop :=
  ∀ (mode : Mode) (n ct : Nat) (s t u : State), exec (.enc mode n ct) s = .next t → t.status.err = 0 →
    (∀ k (_ : k < 46), k < n → u.idx[k] = t.idx[k]) →
    ∃ v, exec (.dec mode n ct) u = .next v ∧ v.status.err = 0 ∧ v.status.valid = true ∧ v.entLen = s.entLen ∧
      (∀ i (_ : i < 32), i < s.entLen.toNat → v.ent[i] = s.ent[i]) ∧ v.digest = t.digest

/-! ## CLR, illegal words and the priority of errors -/

/-- CLR completes in every state with every buffer, ENT_LEN, RESULT and VALID cleared (43_control.md R160, 10_state.md R41). -/
def Obligations.ClrClears : Prop :=
  ∀ s : State, ∃ t, exec .clr s = .next t ∧
    (∀ i (_ : i < 32), t.ent[i] = 0 ∧ t.digest[i] = 0) ∧ (∀ k (_ : k < 46), t.idx[k] = 0) ∧
    t.entLen = 0 ∧ ResultIs 0 0 0 t ∧ StatusAfter 0 false s t ∧ t.cmdl = s.cmdl ∧ t.hashCalls = s.hashCalls ∧ SameHostSide s t

/-- After CLR every byte of the window outside STATUS reads as after reset, and STATUS shows DONE and BUSY_VIOL only
(70_reset_and_hazards.md R233). The hidden CMDL, which R233 does not speak of, keeps the CLR word. -/
def Obligations.ClrIsSoftReset : Prop :=
  ∀ s : State, ∃ t, exec .clr s = .next t ∧
    (∀ a, ¬(4 ≤ a ∧ a < 8) → windowByte t a = windowByte State.reset a) ∧
    statusWord t.status = (if s.status.busyViol then 0x0000000A else 0x00000002) ∧ t.cmdl = s.cmdl

/-- 60_exceptions.md R203: an illegal word performs nothing and completes with ILLEGAL_COMMAND. -/
def Obligations.IllegalCommandCompletes : Prop :=
  ∀ (s : State) (e : Illegal), decode s.cmdl = .error e →
    ∃ t, complete s = .next t ∧ StatusAfter 4 s.status.valid s t ∧ SameBuffers s t ∧ t.result = s.result ∧ t.cmdl = s.cmdl ∧
      t.hashCalls = s.hashCalls ∧ SameHostSide s t

/-- 60_exceptions.md R207: one code, the first cause in the order wins. -/
def Obligations.ErrorPriority : Prop :=
  ∀ s : State, ∃ t, complete s = .next t ∧
    ((∃ e, decode s.cmdl = .error e) → t.status.err = 4) ∧
    (∀ mode n ct, (decode s.cmdl = .ok (.acct mode n ct) ∨ decode s.cmdl = .ok (.enc mode n ct) ∨
        decode s.cmdl = .ok (.dec mode n ct)) → acct mode n ct = none → t.status.err = 1) ∧
    (∀ mode n ct b c, decode s.cmdl = .ok (.acct mode n ct) → acct mode n ct = some (b, c) → t.status.err = 0) ∧
    (∀ mode n ct b c, decode s.cmdl = .ok (.enc mode n ct) → acct mode n ct = some (b, c) →
      t.status.err = if s.entLen.toNat = b then 0 else 1) ∧
    (∀ mode n ct b c, decode s.cmdl = .ok (.dec mode n ct) → acct mode n ct = some (b, c) →
      ((∃ k, ∃ _ : k < 46, k < n ∧ 2048 ≤ (s.idx[k]).toNat) → t.status.err = 2) ∧
      ((∀ k (_ : k < 46), k < n → (s.idx[k]).toNat < 2048) →
        t.status.err = if checksumBits (indexBits (idxPrefix s n)) b c = (bitsOf t.digest.toList).take c then 0 else 3)) ∧
    (decode s.cmdl = .ok .clr → t.status.err = 0)

/-! ## The bus -/

/-- 43_control.md R161: acceptance of a command word while idle. It decodes nothing; VALID and every buffer stay. -/
def Obligations.CommandAcceptance : Prop :=
  ∀ (s : State) (v : Word), s.status.busy = false →
    (memWrite 0x08 .word v s).cmdl = v ∧
    (memWrite 0x08 .word v s).status = ⟨true, false, s.status.valid, false, 0⟩ ∧
    SameBuffers s (memWrite 0x08 .word v s) ∧ (memWrite 0x08 .word v s).result = s.result ∧
    (memWrite 0x08 .word v s).hashCalls = s.hashCalls ∧
    (memWrite 0x08 .word v s).replies = ⟨false, 0⟩ :: s.replies

/-- 20_memory.md R58: a performed write to ENT, IDX or lane 0 of ENT_LEN updates the addressed bytes and no other, and clears VALID; while
BUSY, that write and a command issue are dropped: Ok, no byte changes, BUSY_VIOL is set, VALID stays. -/
def Obligations.InputWrites : Prop :=
  ∀ (s : State) (off : BitVec 8) (n : Width) (v : Word), off.toNat % n.bytes = 0 →
    (s.status.busy = false →
      (off = 0x0C ∨ (0x20 ≤ off.toNat ∧ off.toNat < 0x40) ∨ (0x60 ≤ off.toNat ∧ off.toNat < 0xBC)) →
      (memWrite off n v s).replies = ⟨false, 0⟩ :: s.replies ∧
      (memWrite off n v s).status = { s.status with valid := false } ∧
      (∀ a, ¬(4 ≤ a ∧ a < 8) → windowByte (memWrite off n v s) a =
        if off.toNat ≤ a ∧ a < off.toNat + n.bytes then
          (if a = 0x0C then ((v.extractLsb' 0 8).setWidth 6).setWidth 8
           else if a < 0x10 then 0
           else v.extractLsb' (8 * (a - off.toNat)) 8)
        else windowByte s a) ∧
      (memWrite off n v s).digest = s.digest ∧ (memWrite off n v s).result = s.result ∧ (memWrite off n v s).cmdl = s.cmdl) ∧
    (s.status.busy = true →
      (off = 0x0C ∨ (off = 0x08 ∧ n = .word) ∨ (0x20 ≤ off.toNat ∧ off.toNat < 0x40) ∨ (0x60 ≤ off.toNat ∧ off.toNat < 0xBC)) →
      (memWrite off n v s).replies = ⟨false, 0⟩ :: s.replies ∧
      (memWrite off n v s).status = { s.status with busyViol := true } ∧
      SameBuffers s (memWrite off n v s) ∧ (memWrite off n v s).result = s.result ∧ (memWrite off n v s).cmdl = s.cmdl)

/-- 20_memory.md R54: a misaligned access or a narrow CMD write is a bus error without any effect and with data 0, and nothing else is. -/
def Obligations.BusErrors : Prop :=
  ∀ (s : State) (off : BitVec 8) (n : Width) (v : Word),
    ((off.toNat % n.bytes ≠ 0 ∨ (8 ≤ off.toNat ∧ off.toNat < 12 ∧ n ≠ .word)) →
      SameBlock s (memWrite off n v s) ∧ (memWrite off n v s).replies = ⟨true, 0⟩ :: s.replies) ∧
    (¬(off.toNat % n.bytes ≠ 0 ∨ (8 ≤ off.toNat ∧ off.toNat < 12 ∧ n ≠ .word)) →
      (memWrite off n v s).replies = ⟨false, 0⟩ :: s.replies) ∧
    (off.toNat % n.bytes ≠ 0 → SameBlock s (memRead off n s) ∧ (memRead off n s).replies = ⟨true, 0⟩ :: s.replies) ∧
    (off.toNat % n.bytes = 0 → ∃ data, (memRead off n s).replies = ⟨false, data⟩ :: s.replies)

/-- 20_memory.md R55 and 10_state.md R29 (its reserved lanes): an aligned write to ID, STATUS, RESULT, DIGEST, a reserved offset, or lanes 1
to 3 of ENT_LEN completes with Ok and changes nothing, busy or not. The clause on lanes 1 to 3 is R29's sentence, which the spec marks as
derived from R34. -/
def Obligations.IgnoredWrites : Prop :=
  ∀ (s : State) (off : BitVec 8) (n : Width) (v : Word), off.toNat % n.bytes = 0 →
    (off.toNat < 8 ∨ (12 < off.toNat ∧ off.toNat < 0x20) ∨ (0x40 ≤ off.toNat ∧ off.toNat < 0x60) ∨ 0xBC ≤ off.toNat) →
    SameBlock s (memWrite off n v s) ∧ (memWrite off n v s).replies = ⟨false, 0⟩ :: s.replies

/-- 20_memory.md R57: the mixed-width views, reading and writing. Beside them, by R51 and 10_state.md R28, R31 to R34: DIGEST reads by the same
lanes, CMD and the reserved offsets read 0, and a read of any width gives each byte of a buffer, and each byte of ID, STATUS, ENT_LEN and RESULT
as the lane it is of the register's 4-byte read (whose fields `RegisterWords` states). A read's data are zero-extended to 32 bits (log 13). -/
def Obligations.MixedWidthViews : Prop :=
  ∀ s : State, s.status.busy = false →
    (∀ j (_ : 4 * j + 3 < 32), readReply s (BitVec.ofNat 8 (0x20 + 4 * j)) .word =
      ⟨false, s.ent[4 * j].setWidth 32 ||| s.ent[4 * j + 1].setWidth 32 <<< 8 ||| s.ent[4 * j + 2].setWidth 32 <<< 16 |||
        s.ent[4 * j + 3].setWidth 32 <<< 24⟩) ∧
    (∀ k (_ : k < 46), readReply s (BitVec.ofNat 8 (0x60 + 2 * k)) .half = ⟨false, s.idx[k].setWidth 32⟩) ∧
    (∀ j (_ : 2 * j + 1 < 46), readReply s (BitVec.ofNat 8 (0x60 + 4 * j)) .word =
      ⟨false, s.idx[2 * j].setWidth 32 ||| s.idx[2 * j + 1].setWidth 32 <<< 16⟩) ∧
    (∀ k h (_ : k < 46), h < 2 →
      readReply s (BitVec.ofNat 8 (0x60 + 2 * k + h)) .byte = ⟨false, ((s.idx[k]).extractLsb' (8 * h) 8).setWidth 32⟩) ∧
    readReply s 0xB8 .word = ⟨false, s.idx[44].setWidth 32 ||| s.idx[45].setWidth 32 <<< 16⟩ ∧
    readReply s 0xBC .word = ⟨false, 0⟩ ∧
    (∀ j (_ : 4 * j + 3 < 32), readReply s (BitVec.ofNat 8 (0x40 + 4 * j)) .word =
      ⟨false, s.digest[4 * j].setWidth 32 ||| s.digest[4 * j + 1].setWidth 32 <<< 8 ||| s.digest[4 * j + 2].setWidth 32 <<< 16 |||
        s.digest[4 * j + 3].setWidth 32 <<< 24⟩) ∧
    (∀ i (_ : i < 32), readReply s (BitVec.ofNat 8 (0x40 + i)) .byte = ⟨false, s.digest[i].setWidth 32⟩) ∧
    (∀ (off : BitVec 8) (n : Width), off.toNat % n.bytes = 0 →
      ((8 ≤ off.toNat ∧ off.toNat < 12) ∨ (0x14 ≤ off.toNat ∧ off.toNat < 0x20) ∨ 0xBC ≤ off.toNat) → readReply s off n = ⟨false, 0⟩) ∧
    (∀ (off : BitVec 8) (n : Width) (lane : Nat), off.toNat % n.bytes = 0 → lane < n.bytes →
      (∀ i (_ : i < 32), off.toNat + lane = 0x20 + i → (readReply s off n).data.extractLsb' (8 * lane) 8 = s.ent[i]) ∧
      (∀ i (_ : i < 32), off.toNat + lane = 0x40 + i → (readReply s off n).data.extractLsb' (8 * lane) 8 = s.digest[i]) ∧
      (∀ k h (_ : k < 46), h < 2 → off.toNat + lane = 0x60 + 2 * k + h →
        (readReply s off n).data.extractLsb' (8 * lane) 8 = (s.idx[k]).extractLsb' (8 * h) 8) ∧
      (∀ base ∈ [0x00, 0x04, 0x0C, 0x10], ∀ h, h < 4 → off.toNat + lane = base + h →
        (readReply s off n).data.extractLsb' (8 * lane) 8 = (readReply s (BitVec.ofNat 8 base) .word).data.extractLsb' (8 * h) 8)) ∧
    (∀ j i (v : Word) (_ : 4 * j + i < 32), i < 4 →
      (memWrite (BitVec.ofNat 8 (0x20 + 4 * j)) .word v s).ent[4 * j + i] = v.extractLsb' (8 * i) 8) ∧
    (∀ k (v : Word) (_ : k < 46), (memWrite (BitVec.ofNat 8 (0x60 + 2 * k)) .half v s).idx[k] = v.extractLsb' 0 16) ∧
    (∀ j (v : Word) (_ : 2 * j + 1 < 46),
      (memWrite (BitVec.ofNat 8 (0x60 + 4 * j)) .word v s).idx[2 * j] = v.extractLsb' 0 16 ∧
      (memWrite (BitVec.ofNat 8 (0x60 + 4 * j)) .word v s).idx[2 * j + 1] = v.extractLsb' 16 16) ∧
    (∀ k h (v : Word) (_ : k < 46), h < 2 →
      (memWrite (BitVec.ofNat 8 (0x60 + 2 * k + h)) .byte v s).idx[k].extractLsb' (8 * h) 8 = v.extractLsb' 0 8 ∧
      (memWrite (BitVec.ofNat 8 (0x60 + 2 * k + h)) .byte v s).idx[k].extractLsb' (8 * (1 - h)) 8 =
        (s.idx[k]).extractLsb' (8 * (1 - h)) 8)

/-- 20_memory.md R56: reads have no side effect on the block, and while idle a second read gives what the first gave. -/
def Obligations.ReadsHaveNoSideEffect : Prop :=
  ∀ (s : State) (off off' : BitVec 8) (n n' : Width),
    SameBlock s (memRead off n s) ∧ (memRead off n s).hashCalls = s.hashCalls ∧
    (s.status.busy = false → readReply (memRead off n s) off' n' = readReply s off' n')

/-- 70_reset_and_hazards.md R241: while BUSY, ID and STATUS read exactly, CMD and reserved offsets read 0, and every byte of ENT_LEN, RESULT,
ENT, DIGEST and IDX is unspecified; no read has a side effect. The last clause, that such a byte is `Config.busyByte` at the model's own draw
counter, also where the byte holds reserved bits of ENT_LEN or RESULT, is the model's choice (log 3). -/
def Obligations.BusyReads : Prop :=
  ∀ (s : State) (off : BitVec 8) (n : Width), s.status.busy = true → off.toNat % n.bytes = 0 →
    SameBlock s (memRead off n s) ∧
    (off = 0 → n = .word → readReply s off n = ⟨false, 0xB1390007⟩) ∧
    (off = 4 → n = .word → readReply s off n = ⟨false, statusWord s.status⟩) ∧
    (off.toNat < 8 → ∀ j, j < n.bytes → (readReply s off n).data.extractLsb' (8 * j) 8 = windowByte s (off.toNat + j)) ∧
    (((8 ≤ off.toNat ∧ off.toNat < 12) ∨ (0x14 ≤ off.toNat ∧ off.toNat < 0x20) ∨ 0xBC ≤ off.toNat) →
      readReply s off n = ⟨false, 0⟩) ∧
    (((12 ≤ off.toNat ∧ off.toNat < 0x14) ∨ (0x20 ≤ off.toNat ∧ off.toNat < 0xBC)) →
      ∀ j, j < n.bytes → (readReply s off n).data.extractLsb' (8 * j) 8 = Config.busyByte (s.draws + j))

/-- 10_state.md R22, R21, R30: the bits of STATUS in every state, and of ID and RESULT, as a 4-byte read gives them. -/
def Obligations.RegisterWords : Prop :=
  ∀ s : State,
    (∃ w, readReply s 0x04 .word = ⟨false, w⟩ ∧ w.getLsbD 0 = s.status.busy ∧ w.getLsbD 1 = s.status.done ∧
      w.getLsbD 2 = s.status.valid ∧ w.getLsbD 3 = s.status.busyViol ∧ w.extractLsb' 4 4 = s.status.err ∧ w.extractLsb' 8 24 = 0) ∧
    readReply s 0x00 .word = ⟨false, 0xB1390007⟩ ∧
    (s.status.busy = false → ∃ w, readReply s 0x10 .word = ⟨false, w⟩ ∧ w.extractLsb' 0 8 = s.result.n ∧
      w.extractLsb' 8 6 = s.result.b ∧ w.extractLsb' 14 2 = 0 ∧ w.extractLsb' 16 9 = s.result.c ∧ w.extractLsb' 25 7 = 0) ∧
    (s.status.busy = false → readReply s 0x0C .word = ⟨false, s.entLen.setWidth 32⟩)

/-- 20_memory.md R67: the window stands at B39P_BASE, a multiple of 256, and the block decodes only the low 8 address bits. -/
def Obligations.WindowAddressDecode : Prop :=
  Config.b39pBase % 256 = 0 ∧
  (∀ off : BitVec 8, windowOffset (Config.b39pBase + off.toNat) = some off) ∧
  (∀ addr off, windowOffset addr = some off → off = BitVec.ofNat 8 addr ∧ addr = Config.b39pBase + off.toNat)

/-! ## Reset -/

/-- 10_state.md R42: the reset value of every piece of state, and ID's. -/
def Obligations.ResetValues : Prop :=
  (∀ i (_ : i < 32), State.reset.ent[i] = 0 ∧ State.reset.digest[i] = 0) ∧ (∀ k (_ : k < 46), State.reset.idx[k] = 0) ∧
  State.reset.entLen = 0 ∧ ResultIs 0 0 0 State.reset ∧ State.reset.status = ⟨false, false, false, false, 0⟩ ∧
  State.reset.cmdl = 0 ∧ readReply State.reset 0x00 .word = ⟨false, 0xB1390007⟩ ∧
  (∀ a, 4 ≤ a → windowByte State.reset a = 0)

/-- 70_reset_and_hazards.md R230, R231: where the next event is a reset pulse and the completion step is not due first, the step gives the reset
state of the block: while idle, with a command in flight, and with a hash request in flight that is never answered; nothing of the command
survives. The pulse as an event, and what it leaves of the host's side, are log 12's; when the completion step is due is logs 2 and 6's. -/
def Obligations.ResetPulse : Prop :=
  ∀ (s : State) (rest : List HostEvent), ErrLegal s → s.script = .rst :: rest → sequencerTurn s = false →
    ∃ t, step s = .next t ∧ SameBlock State.reset t ∧ t.script = rest ∧ t.replies = s.replies ∧ t.hashCalls = s.hashCalls ∧
      t.hashPort = s.hashPort

/-! ## The step -/

/-- A step runs the decoded command: when a command is in flight, no host transaction lands before its completion (none is left, or its
delay is over) and the hash unit answers, the step is `exec` of what CMDL decodes to (10_state.md R40). The step adds nothing around it.
The delay and the hash unit's state are the model's own fields (logs 2 and 6). -/
def Obligations.StepRunsDecodedCommand : Prop :=
  ∀ (s : State) (i : Instr), ErrLegal s → s.status.busy = true → (s.script = [] ∨ s.delay = 0) → s.hashPort = .answering →
    decode s.cmdl = .ok i → step s = exec i s

/-- A command that needs no hash completes whatever the hash unit does (10_state.md R40, 20_memory.md R70; logs 2 and 6). It needs none exactly
when the word is illegal, ACCT or CLR, an ENC that fails its accounting or length check, or a DEC that fails its accounting or index check. -/
def Obligations.StepRunsWithoutHash : Prop :=
  ∀ s : State,
    (ErrLegal s → s.status.busy = true → (s.script = [] ∨ s.delay = 0) → needsHash s = false →
      step s = complete s ∧ ∃ t, step s = .next t ∧ t.status.busy = false ∧ t.hashCalls = s.hashCalls) ∧
    (needsHash s = false ↔
      (∃ e, decode s.cmdl = .error e) ∨ (∃ mode n ct, decode s.cmdl = .ok (.acct mode n ct)) ∨ decode s.cmdl = .ok .clr ∨
      (∃ mode n ct, decode s.cmdl = .ok (.enc mode n ct) ∧ ∀ b c, acct mode n ct = some (b, c) → s.entLen.toNat ≠ b) ∨
      (∃ mode n ct, decode s.cmdl = .ok (.dec mode n ct) ∧
        ∀ b c, acct mode n ct = some (b, c) → ∃ k, ∃ _ : k < 46, k < n ∧ 2048 ≤ (s.idx[k]).toNat))

/-- Where the completion step is not due, a step is one event of the host, taken from the front of the script; without an event the state holds
(20_memory.md R60, 60_exceptions.md R218). It is not due exactly while idle, while host transactions land before the completion (the delay is log
2's), and while a command waits for a hash unit that never answers (70_reset_and_hazards.md R244, log 6). -/
def Obligations.StepTakesHostEvent : Prop :=
  ∀ s : State,
    (sequencerTurn s = false ↔
      s.status.busy = false ∨ (s.script ≠ [] ∧ 0 < s.delay) ∨ (s.hashPort = .silent ∧ needsHash s = true)) ∧
    (ErrLegal s → sequencerTurn s = false →
      (s.script = [] → step s = .next s) ∧
      (∀ ev rest, s.script = ev :: rest → step s = .next (hostEvent ev { s with script := rest, delay := s.delay - 1 })))

/-- 10_state.md R23: BUSY becomes 1 by acceptance and only so, and 0 by a completion and by reset and only so. -/
def Obligations.BusyChangesOnly : Prop :=
  (∀ (s : State) (v : Word), s.status.busy = false → (hostEvent (.write 0x08 .word v) s).status.busy = true) ∧
  (∀ s : State, ∃ t, complete s = .next t ∧ t.status.busy = false) ∧
  (∀ s : State, (hostEvent .rst s).status.busy = false) ∧
  (∀ s t : State, step s = .next t →
    (s.status.busy = false → t.status.busy = true →
      ∃ v rest, s.script = .write 0x08 .word v :: rest ∧ t.cmdl = v ∧ t.status.done = false ∧ t.status.err = 0) ∧
    (s.status.busy = true → t.status.busy = false →
      (complete s = .next t ∧ t.status.done = true) ∨ (∃ rest, s.script = .rst :: rest ∧ SameBlock State.reset t)))

/-- 10_state.md R25: VALID is set only by an ENC or DEC that completes with NONE, cleared by one that fails, by CLR, by a performed write to an
input and by reset, and else unchanged. -/
def Obligations.ValidChangesOnly : Prop :=
  (∀ s : State, ∃ t, complete s = .next t ∧
    (∀ mode n ct, (decode s.cmdl = .ok (.enc mode n ct) ∨ decode s.cmdl = .ok (.dec mode n ct)) →
      (t.status.valid = true ↔ t.status.err = 0)) ∧
    (decode s.cmdl = .ok .clr → t.status.valid = false) ∧
    (((∃ mode n ct, decode s.cmdl = .ok (.acct mode n ct)) ∨ (∃ e, decode s.cmdl = .error e)) → t.status.valid = s.status.valid)) ∧
  (∀ (s : State) (off : BitVec 8) (n : Width) (v : Word), off.toNat % n.bytes = 0 → s.status.busy = false →
    (off = 0x0C ∨ (0x20 ≤ off.toNat ∧ off.toNat < 0x40) ∨ (0x60 ≤ off.toNat ∧ off.toNat < 0xBC)) →
    (hostEvent (.write off n v) s).status.valid = false) ∧
  (∀ s : State, (hostEvent .rst s).status.valid = false) ∧
  (∀ (s : State) (ev : HostEvent), ev ≠ .rst →
    (∀ off n v, ev = .write off n v → s.status.busy = true ∨ off.toNat % n.bytes ≠ 0 ∨
      ¬(off = 0x0C ∨ (0x20 ≤ off.toNat ∧ off.toNat < 0x40) ∨ (0x60 ≤ off.toNat ∧ off.toNat < 0xBC))) →
    (hostEvent ev s).status.valid = s.status.valid)

/-- 10_state.md R24: DONE is set by every completion, cleared by acceptance and reset, and written by nothing else. -/
def Obligations.DoneChangesOnly : Prop :=
  (∀ s : State, ∃ t, complete s = .next t ∧ t.status.done = true) ∧
  (∀ (s : State) (v : Word), s.status.busy = false → (hostEvent (.write 0x08 .word v) s).status.done = false) ∧
  (∀ s : State, (hostEvent .rst s).status.done = false) ∧
  (∀ (s : State) (ev : HostEvent), ev ≠ .rst → ((∃ v, ev = .write 0x08 .word v) → s.status.busy = true) →
    (hostEvent ev s).status.done = s.status.done)

/-- 10_state.md R26: BUSY_VIOL is set by a write to CMD, ENT_LEN, ENT or IDX while BUSY (an aligned one; a narrow CMD write is a bus error and a
write to reserved lanes of ENT_LEN is ignored), cleared by the next acceptance and by reset, and survives a completion. -/
def Obligations.BusyViolIsSticky : Prop :=
  (∀ (s : State) (off : BitVec 8) (n : Width) (v : Word), off.toNat % n.bytes = 0 → s.status.busy = true →
    (off = 0x0C ∨ (off = 0x08 ∧ n = .word) ∨ (0x20 ≤ off.toNat ∧ off.toNat < 0x40) ∨ (0x60 ≤ off.toNat ∧ off.toNat < 0xBC)) →
    (hostEvent (.write off n v) s).status.busyViol = true) ∧
  (∀ (s : State) (v : Word), s.status.busy = false → (hostEvent (.write 0x08 .word v) s).status.busyViol = false) ∧
  (∀ s : State, (hostEvent .rst s).status.busyViol = false) ∧
  (∀ s : State, ∃ t, complete s = .next t ∧ t.status.busyViol = s.status.busyViol) ∧
  (∀ (s : State) (ev : HostEvent), ev ≠ .rst →
    (∀ off n v, ev = .write off n v → off.toNat % n.bytes ≠ 0 ∨
      ¬(off = 0x0C ∨ (off = 0x08 ∧ n = .word) ∨ (0x20 ≤ off.toNat ∧ off.toNat < 0x40) ∨ (0x60 ≤ off.toNat ∧ off.toNat < 0xBC)) ∨
      (s.status.busy = false ∧ ¬(off = 0x08 ∧ n = .word))) →
    (hostEvent ev s).status.busyViol = s.status.busyViol)

/-! ## Whole-machine properties -/

/-- Reset meets the invariants (10_state.md R42). -/
def Obligations.ResetMeetsInvariants : Prop := ControlInv State.reset ∧ ValidInv State.reset

/-- Every step keeps the invariant of the control registers: ERR holds one of its five codes, BUSY excludes DONE and an error, RESULT
balances the budget (10_state.md R24, R27, R30). -/
def Obligations.StepKeepsControlInv : Prop :=
  ∀ s t : State, ControlInv s → step s = .next t → ControlInv t

/-- Every step keeps what VALID vouches for: while VALID = 1 the index buffer holds exactly ENT[0..ENT_LEN) followed by a prefix of its
digest, and DIGEST is that digest (10_state.md R22, R25). -/
def Obligations.StepKeepsValidPair : Prop :=
  ∀ s t : State, ValidInv s → step s = .next t → ValidInv t

/-- No error stops the block (60_exceptions.md R211): a step answers a next state exactly when ERR holds one of its five codes, and the next
state's ERR does too. The fault for a reserved code is 93_implementation_defined.md U10's (log 7). -/
def Obligations.NoErrorIsFatal : Prop :=
  ∀ s : State, (ErrLegal s → ∃ t, step s = .next t ∧ ErrLegal t) ∧ (¬ErrLegal s → step s = .fault .reservedErrCode)

/-- 10_state.md R40, its last sentence: a command's result is a function of the state at acceptance. Whatever the host does while BUSY,
short of a reset, completing later gives the buffers, RESULT, VALID and ERR that completing at once gives. -/
def Obligations.ResultFixedAtAcceptance : Prop :=
  ∀ (s : State) (k : Nat), s.status.busy = true → (∀ ev ∈ s.script, ev ≠ .rst) →
    ∃ t u, complete s = .next t ∧ complete (hostTurn^[k] s) = .next u ∧
      SameBuffers t u ∧ u.result = t.result ∧ u.cmdl = t.cmdl ∧ u.hashCalls = t.hashCalls ∧
      u.status = { t.status with busyViol := u.status.busyViol }

/-- 70_reset_and_hazards.md R243: a command in flight completes (or is abandoned by a reset) after finitely many steps; the model's bound is
its delay (log 2). The hash unit answers (R234). -/
def Obligations.CompletionIsEventual : Prop :=
  ∀ s : State, ErrLegal s → s.status.busy = true → s.hashPort = .answering →
    ∃ k t, k ≤ s.delay + 1 ∧ core.run k s = .next t ∧ t.status.busy = false

/-- 30_encoding.md R92, 70_reset_and_hazards.md R243: a `wait` loop terminates, with BUSY = 0 in the value last read. The
schedule is log 2's. -/
def Obligations.WaitTerminates : Prop :=
  ∀ s : State, ErrLegal s → s.hashPort = .answering → s.script = [.wait] →
    ∃ k t r rs, core.run k s = .next t ∧ t.script = [] ∧ t.status.busy = false ∧ t.replies = r :: rs ∧
      r.busError = false ∧ r.data = statusWord t.status ∧ r.data.getLsbD 0 = false

/-- The life of one command, `run X` from an idle block (30_encoding.md R92, 43_control.md R163, 70_reset_and_hazards.md R242): whatever the
delay, the run ends after finitely many steps with BUSY = 0 in the last read, and the block holds what the completion step makes of the accepted
command. The hash unit answers (R234). The bound on the delay is log 2's. -/
def Obligations.RunCommandCompletes : Prop :=
  ∀ (s : State) (w : Word), ErrLegal s → s.status.busy = false → s.hashPort = .answering → s.script = runCommand w →
    ∃ k t u rs, complete (s.accept w) = .next u ∧ core.run k s = .next t ∧ t.script = [] ∧ SameBlock u t ∧ t.cmdl = w ∧
      t.replies = ⟨false, statusWord u.status⟩ :: rs ∧ (statusWord u.status).getLsbD 0 = false

/-- 20_memory.md R70: the block calls the hash once for each ENC or DEC that passes its checks, with ENT[0..B), and never else.
The trace of the calls is log 9's. -/
def Obligations.HashPortCalls : Prop :=
  ∀ s : State, ∃ t, complete s = .next t ∧
    (∀ mode n ct b c, decode s.cmdl = .ok (.enc mode n ct) → acct mode n ct = some (b, c) → s.entLen.toNat = b →
      t.hashCalls = entPrefix s b :: s.hashCalls ∧ t.digest = Config.hash256 (entPrefix s b)) ∧
    (∀ mode n ct b c, decode s.cmdl = .ok (.dec mode n ct) → acct mode n ct = some (b, c) → anyInvalidIndex s n = false →
      t.hashCalls = entPrefix t b :: s.hashCalls ∧ t.digest = Config.hash256 (entPrefix t b)) ∧
    (t.status.err = 1 ∨ t.status.err = 2 ∨ t.status.err = 4 ∨ decode s.cmdl = .ok .clr ∨
        (∃ mode n ct, decode s.cmdl = .ok (.acct mode n ct)) →
      t.hashCalls = s.hashCalls ∧ (t.digest = s.digest ∨ decode s.cmdl = .ok .clr))

/-- 70_reset_and_hazards.md R244, 93_implementation_defined.md U8: with a hash unit that never answers, an ENC or DEC that needs it stays in
flight whatever the host does short of a reset, and writes no buffer (log 6). -/
def Obligations.SilentHashUnitStaysBusy : Prop :=
  ∀ (s t : State) (mode : Mode) (n ct b c k : Nat), s.status.busy = true → s.hashPort = .silent → acct mode n ct = some (b, c) →
    ((decode s.cmdl = .ok (.enc mode n ct) ∧ s.entLen.toNat = b) ∨
      (decode s.cmdl = .ok (.dec mode n ct) ∧ ∀ j (_ : j < 46), j < n → (s.idx[j]).toNat < 2048)) →
    (∀ ev ∈ s.script, ev ≠ .rst) → core.run k s = .next t → t.status.busy = true ∧ SameBuffers s t

/-- The memory of the block is its window: every host event but a performed write and a reset leaves every byte outside STATUS as it was, and
DIGEST, RESULT and CMDL change by no data write (20_memory.md R55, R58). -/
def Obligations.HostEventFrame : Prop :=
  ∀ (s : State) (ev : HostEvent), ev ≠ .rst →
    (hostEvent ev s).digest = s.digest ∧ (hostEvent ev s).result = s.result ∧ (hostEvent ev s).hashCalls = s.hashCalls ∧
    (hostEvent ev s).hashPort = s.hashPort ∧
    ((∀ v, ev ≠ .write 0x08 .word v) → (hostEvent ev s).cmdl = s.cmdl ∧ (hostEvent ev s).status.busy = s.status.busy ∧
      (hostEvent ev s).status.done = s.status.done ∧ (hostEvent ev s).status.err = s.status.err) ∧
    (∀ a, ¬(4 ≤ a ∧ a < 8) → (∀ off n v, ev = .write off n v → ¬(off.toNat ≤ a ∧ a < off.toNat + n.bytes)) →
      windowByte (hostEvent ev s) a = windowByte s a)
end

