-- ==== Sys2Proof/Laws/Accounting.lean ====
section
/-! SUPPORT. What each accounting mode can answer: one lemma per mode, which callers cite instead of unfolding it. -/

namespace Sys2Proof.Machine

/-- The rows of the standard table (42_accounting.md R141). -/
theorem stdTable_some {n b c : Nat} (h : stdTable n = some (b, c)) :
    (n = 9 ∧ b = 12 ∧ c = 3) ∨ (n = 12 ∧ b = 16 ∧ c = 4) ∨ (n = 15 ∧ b = 20 ∧ c = 5) ∨ (n = 18 ∧ b = 24 ∧ c = 6) ∨
      (n = 21 ∧ b = 28 ∧ c = 7) ∨ (n = 24 ∧ b = 32 ∧ c = 8) := by
  unfold stdTable at h
  split at h <;> simp_all

/-- What relaxed mode accepts (42_accounting.md R142). -/
theorem relaxedSplit_some {n b c : Nat} :
    relaxedSplit n = some (b, c) ↔ b = 11 * n / 8 ∧ c = 11 * n - 8 * b ∧ 1 ≤ b ∧ b ≤ 32 := by
  simp only [relaxedSplit]
  split
  · simp only [Option.some.injEq, Prod.mk.injEq]
    constructor
    · rintro ⟨rfl, rfl⟩
      exact ⟨rfl, rfl, by omega, by omega⟩
    · rintro ⟨rfl, rfl, -, -⟩
      exact ⟨rfl, rfl⟩
  · simp only [reduceCtorEq, false_iff]
    rintro ⟨rfl, -, h1, h2⟩
    omega

/-- What explicit mode accepts (42_accounting.md R143). -/
theorem explicitSplit_some {n ct b c : Nat} :
    explicitSplit n ct = some (b, c) ↔ c = ct ∧ ct ≤ 256 ∧ 11 * n = 8 * b + ct ∧ 1 ≤ b ∧ b ≤ 32 := by
  simp only [explicitSplit]
  split
  · simp; omega
  split
  · simp; omega
  split
  · simp; omega
  split
  · simp only [Option.some.injEq, Prod.mk.injEq]
    omega
  · simp; omega

end Sys2Proof.Machine
end

