-- ==== Sys2Proof/Laws/Bits.lean ====
section
/-! SUPPORT. The bit strings: lengths, bits at a position, and the two inverse passages between strings, bytes and indices. -/

namespace Sys2Proof.Machine

@[simp] theorem length_byteBits (b : Byte) : (byteBits b).length = 8 := by simp [byteBits]

@[simp] theorem length_bits11 (v : Half) : (bits11 v).length = 11 := by simp [bits11]

theorem bitsOf_cons (b : Byte) (x : List Byte) : bitsOf (b :: x) = byteBits b ++ bitsOf x := rfl

theorem indexBits_cons (v : Half) (ks : List Half) : indexBits (v :: ks) = bits11 v ++ indexBits ks := rfl

@[simp] theorem bitsOf_nil : bitsOf [] = [] := rfl

@[simp] theorem indexBits_nil : indexBits [] = [] := rfl

@[simp] theorem bitsOf_append (x y : List Byte) : bitsOf (x ++ y) = bitsOf x ++ bitsOf y := by simp [bitsOf]

@[simp] theorem indexBits_append (x y : List Half) : indexBits (x ++ y) = indexBits x ++ indexBits y := by simp [indexBits]

@[simp] theorem length_bitsOf (x : List Byte) : (bitsOf x).length = 8 * x.length := by
  induction x with
  | nil => rfl
  | cons b x ih => simp [bitsOf_cons, ih]; omega

@[simp] theorem length_indexBits (ks : List Half) : (indexBits ks).length = 11 * ks.length := by
  induction ks with
  | nil => rfl
  | cons v ks ih => simp [indexBits_cons, ih]; omega

/-- The packed string has 8B + C bits (40_encode.md R103). -/
theorem length_packedBits {x : List Byte} {d : Digest} {c : Nat} (hc : c ≤ 256) :
    (packedBits x d c).length = 8 * x.length + c := by
  simp [packedBits]; omega

@[simp] theorem length_groupIndices (bits : List Bool) (n : Nat) : (groupIndices bits n).length = n := by simp [groupIndices]

@[simp] theorem length_leadingBytes (bits : List Bool) (b : Nat) : (leadingBytes bits b).length = b := by simp [leadingBytes]

theorem length_bitSlice {bits : List Bool} {i j : Nat} (hj : j ≤ bits.length) : (bitSlice bits i j).length = j - i := by
  simp [bitSlice]; omega

/-! ### The bit at a position -/

theorem byteBits_getElem? (b : Byte) {t : Nat} (ht : t < 8) : (byteBits b)[t]? = some (b.getLsbD (7 - t)) := by
  simp [byteBits, ht]

theorem bits11_getElem? (v : Half) {t : Nat} (ht : t < 11) : (bits11 v)[t]? = some (v.getLsbD (10 - t)) := by
  simp [bits11, ht]

/-- Bit i of `BitsOf(X)` is bit `7 - i mod 8` of byte `i div 8` (00_scope.md R8). -/
theorem bitsOf_getElem? (x : List Byte) {i : Nat} (hi : i < 8 * x.length) :
    (bitsOf x)[i]? = some ((x.getD (i / 8) 0).getLsbD (7 - i % 8)) := by
  induction x generalizing i with
  | nil => simp at hi
  | cons b x ih =>
    rw [bitsOf_cons]
    rcases Nat.lt_or_ge i 8 with h | h
    · rw [List.getElem?_append_left (by simpa using h), byteBits_getElem? b h]
      simp [Nat.div_eq_of_lt h, Nat.mod_eq_of_lt h]
    · rw [List.getElem?_append_right (by simpa using h), length_byteBits, ih (by simp at hi; omega)]
      have h1 : i / 8 = (i - 8) / 8 + 1 := by omega
      have h2 : (i - 8) % 8 = i % 8 := by omega
      rw [h1, h2]; simp

/-- Bit i of the string of an index sequence is bit `10 - i mod 11` of entry `i div 11` (41_decode.md R123). -/
theorem indexBits_getElem? (ks : List Half) {i : Nat} (hi : i < 11 * ks.length) :
    (indexBits ks)[i]? = some ((ks.getD (i / 11) 0).getLsbD (10 - i % 11)) := by
  induction ks generalizing i with
  | nil => simp at hi
  | cons b x ih =>
    rw [indexBits_cons]
    rcases Nat.lt_or_ge i 11 with h | h
    · rw [List.getElem?_append_left (by simpa using h), bits11_getElem? b h]
      simp [Nat.div_eq_of_lt h, Nat.mod_eq_of_lt h]
    · rw [List.getElem?_append_right (by simpa using h), length_bits11, ih (by simp at hi; omega)]
      have h1 : i / 11 = (i - 11) / 11 + 1 := by omega
      have h2 : (i - 11) % 11 = i % 11 := by omega
      rw [h1, h2]; simp

/-! ### The value of a string -/

theorem bitVal_append_one (bits : List Bool) (x : Bool) : bitVal (bits ++ [x]) = 2 * bitVal bits + x.toNat := by
  simp [bitVal]

@[simp] theorem bitVal_nil : bitVal [] = 0 := rfl

theorem bitVal_lt (bits : List Bool) : bitVal bits < 2 ^ bits.length := by
  induction bits using List.reverseRecOn with
  | nil => simp
  | append_singleton l x ih =>
    rw [bitVal_append_one, List.length_append, List.length_singleton, Nat.pow_succ]
    cases x <;> simp <;> omega

/-- The first bit of a string is the most significant of its value (00_scope.md R8). -/
theorem bitVal_testBit (bits : List Bool) {t : Nat} (ht : t < bits.length) :
    (bitVal bits).testBit (bits.length - 1 - t) = bits[t] := by
  induction bits using List.reverseRecOn with
  | nil => simp at ht
  | append_singleton l x ih =>
    rw [bitVal_append_one]
    simp only [List.length_append, List.length_singleton] at ht ⊢
    rcases Nat.lt_or_ge t l.length with h | h
    · have e : l.length + 1 - 1 - t = (l.length - 1 - t) + 1 := by omega
      rw [e, Nat.testBit_add_one, List.getElem_append_left h, ← ih h]
      congr 1
      cases x <;> (simp; try omega)
    · have e : t = l.length := by omega
      subst e
      rw [Nat.add_sub_cancel, Nat.sub_self, List.getElem_append_right (Nat.le_refl _)]
      cases x <;> simp [Nat.testBit_zero]

theorem bitVal_append (a b : List Bool) : bitVal (a ++ b) = bitVal a * 2 ^ b.length + bitVal b := by
  induction b using List.reverseRecOn with
  | nil => simp
  | append_singleton l x ih =>
    rw [← List.append_assoc, bitVal_append_one, ih, bitVal_append_one, List.length_append, List.length_singleton, Nat.pow_succ]
    ring

/-- `Bits11(Val(S)) = S` for an 11-bit string (00_scope.md R8). -/
theorem bits11_ofNat_bitVal {bits : List Bool} (h : bits.length = 11) : bits11 (BitVec.ofNat 16 (bitVal bits)) = bits := by
  apply List.ext_getElem?
  intro t
  rcases Nat.lt_or_ge t 11 with ht | ht
  · rw [bits11_getElem? _ ht, List.getElem?_eq_getElem (by omega), ← bitVal_testBit bits (by omega), h, BitVec.getLsbD_ofNat]
    simp [show 10 - t < 16 by omega]
  · rw [List.getElem?_eq_none (by simpa using ht), List.getElem?_eq_none (by omega)]

/-- The byte of an 8-bit string has that string as its bits. -/
theorem byteBits_ofNat_bitVal {bits : List Bool} (h : bits.length = 8) : byteBits (BitVec.ofNat 8 (bitVal bits)) = bits := by
  apply List.ext_getElem?
  intro t
  rcases Nat.lt_or_ge t 8 with ht | ht
  · rw [byteBits_getElem? _ ht, List.getElem?_eq_getElem (by omega), ← bitVal_testBit bits (by omega), h, BitVec.getLsbD_ofNat]
    simp [show 7 - t < 8 by omega]
  · rw [List.getElem?_eq_none (by simpa using ht), List.getElem?_eq_none (by omega)]

theorem byteBits_injective {a b : Byte} (h : byteBits a = byteBits b) : a = b := by
  apply BitVec.eq_of_getLsbD_eq
  intro i hi
  have := congrArg (·[7 - i]?) h
  simpa [byteBits_getElem? _ (show 7 - i < 8 by omega), show 7 - (7 - i) = i by omega] using this

/-- A byte is the value of its bits. -/
theorem ofNat_bitVal_byteBits (b : Byte) : BitVec.ofNat 8 (bitVal (byteBits b)) = b :=
  byteBits_injective (byteBits_ofNat_bitVal (length_byteBits b))

/-! ### Strings cut into groups -/

theorem bitSlice_append_left {a b : List Bool} {i j : Nat} (hj : j ≤ a.length) : bitSlice (a ++ b) i j = bitSlice a i j := by
  rcases Nat.lt_or_ge i j with h | h
  · simp only [bitSlice]
    rw [List.drop_append_of_le_length (by omega), List.take_append_of_le_length (by simp; omega)]
  · simp [bitSlice, Nat.sub_eq_zero_of_le h]

theorem take_succ_group (bits : List Bool) (w k : Nat) :
    bits.take (w * k + w) = bits.take (w * k) ++ bitSlice bits (w * k) (w * k + w) := by
  simp [bitSlice, List.take_add]

/-- The groups of a string whose length they fill give the string back (40_encode.md R104, 41_decode.md R123). -/
theorem indexBits_groupIndices {bits : List Bool} {n : Nat} (h : 11 * n ≤ bits.length) :
    indexBits (groupIndices bits n) = bits.take (11 * n) := by
  induction n with
  | zero => simp [groupIndices]
  | succ n ih =>
    have e : groupIndices bits (n + 1) =
        groupIndices bits n ++ [BitVec.ofNat 16 (bitVal (bitSlice bits (11 * n) (11 * n + 11)))] := by
      simp [groupIndices, List.range_succ]
    rw [e, indexBits_append, ih (by omega), Nat.mul_succ, take_succ_group, indexBits_cons, indexBits_nil, List.append_nil,
      bits11_ofNat_bitVal (by rw [length_bitSlice (by omega)]; omega)]

/-- The leading bytes of a string have its leading bits (41_decode.md R124). -/
theorem bitsOf_leadingBytes {bits : List Bool} {b : Nat} (h : 8 * b ≤ bits.length) :
    bitsOf (leadingBytes bits b) = bits.take (8 * b) := by
  induction b with
  | zero => simp [leadingBytes]
  | succ n ih =>
    have e : leadingBytes bits (n + 1) =
        leadingBytes bits n ++ [BitVec.ofNat 8 (bitVal (bitSlice bits (8 * n) (8 * n + 8)))] := by
      simp [leadingBytes, List.range_succ]
    rw [e, bitsOf_append, ih (by omega), Nat.mul_succ, take_succ_group, bitsOf_cons, bitsOf_nil, List.append_nil,
      byteBits_ofNat_bitVal (by rw [length_bitSlice (by omega)]; omega)]

theorem bitsOf_injective {x y : List Byte} (h : bitsOf x = bitsOf y) : x = y := by
  induction x generalizing y with
  | nil =>
    cases y with
    | nil => rfl
    | cons b y => simpa using congrArg List.length h
  | cons a x ih =>
    cases y with
    | nil => simpa using congrArg List.length h
    | cons b y =>
      rw [bitsOf_cons, bitsOf_cons] at h
      obtain ⟨h1, h2⟩ := List.append_inj h (by simp)
      rw [byteBits_injective h1, ih h2]

/-- Packing bytes and cutting the string again gives the bytes (41_decode.md R130). -/
theorem leadingBytes_bitsOf_append (x : List Byte) (r : List Bool) : leadingBytes (bitsOf x ++ r) x.length = x := by
  apply bitsOf_injective
  rw [bitsOf_leadingBytes (by simp), List.take_append_of_le_length (by simp), List.take_of_length_le (by simp)]

/-- The trailing checksum of a packed string is the digest's prefix (40_encode.md R103, 41_decode.md R126). -/
theorem checksumBits_packedBits (x : List Byte) (d : Digest) (c : Nat) :
    checksumBits (packedBits x d c) x.length c = (bitsOf d.toList).take c := by
  simp [checksumBits, bitSlice, packedBits]

/-- A string is its leading bytes' bits and its trailing checksum (41_decode.md R124). -/
theorem leadingBytes_checksumBits {bits : List Bool} {b c : Nat} (h : bits.length = 8 * b + c) :
    bitsOf (leadingBytes bits b) ++ checksumBits bits b c = bits := by
  rw [bitsOf_leadingBytes (by omega), checksumBits, bitSlice, Nat.add_sub_cancel_left,
    List.take_of_length_le (l := bits.drop (8 * b)) (by simp; omega), List.take_append_drop]

/-- A group of 11 bits is an index below 2048 (40_encode.md R108). -/
theorem groupIndices_lt {bits : List Bool} {n : Nat} {v : Half} (h : v ∈ groupIndices bits n) : v.toNat < 2048 := by
  simp only [groupIndices, List.mem_map, List.mem_range] at h
  obtain ⟨k, -, rfl⟩ := h
  have h1 := bitVal_lt (bitSlice bits (11 * k) (11 * k + 11))
  have h2 : (bitSlice bits (11 * k) (11 * k + 11)).length ≤ 11 := by simp [bitSlice]
  have h3 : 2 ^ (bitSlice bits (11 * k) (11 * k + 11)).length ≤ 2 ^ 11 := Nat.pow_le_pow_right (by omega) h2
  rw [BitVec.toNat_ofNat]
  omega

theorem bitSlice_getElem? {bits : List Bool} {i j t : Nat} (ht : t < j - i) : (bitSlice bits i j)[t]? = bits[i + t]? := by
  simp [bitSlice, ht, List.getElem?_drop]

/-- Bit t of a group is bit i + t of the string (40_encode.md R104, 41_decode.md R124). -/
theorem bitVal_bitSlice_testBit {bits : List Bool} {i w t : Nat} (h : i + w ≤ bits.length) (ht : t < w) :
    (bitVal (bitSlice bits i (i + w))).testBit (w - 1 - t) = bits[i + t]'(by omega) := by
  have hl : (bitSlice bits i (i + w)).length = w := by rw [length_bitSlice h]; omega
  have h1 := bitVal_testBit (bitSlice bits i (i + w)) (t := t) (by omega)
  simp only [hl] at h1
  have h2 := bitSlice_getElem? (bits := bits) (i := i) (j := i + w) (t := t) (by omega)
  rw [List.getElem?_eq_getElem (by omega), List.getElem?_eq_getElem (by omega)] at h2
  rw [h1]
  exact Option.some.inj h2

/-- Bit t of byte j of a string is bit 8j + t of it (41_decode.md R124). -/
theorem leadingBytes_getLsbD {bits : List Bool} {b j t : Nat} (h : 8 * b ≤ bits.length) (hj : j < b) (ht : t < 8) :
    ((leadingBytes bits b).getD j 0).getLsbD (7 - t) = bits[8 * j + t]'(by omega) := by
  have e : (leadingBytes bits b)[j]? = some (BitVec.ofNat 8 (bitVal (bitSlice bits (8 * j) (8 * j + 8)))) := by
    simp [leadingBytes, hj]
  have h1 := bitVal_bitSlice_testBit (bits := bits) (i := 8 * j) (w := 8) (t := t) (by omega) ht
  simp only [Nat.add_one_sub_one] at h1
  rw [List.getD_eq_getElem?_getD, e, Option.getD_some, BitVec.getLsbD_ofNat, h1]
  simp [show 7 - t < 8 by omega]

end Sys2Proof.Machine
end

