-- ==== Sys2Proof/Laws/State.lean ====
section
/-! SUPPORT. What every update of the state does to every field: one lemma per field per update, each true by rfl, so that no later proof unfolds a
record update. -/

namespace Sys2Proof.Machine

/-! ### `State.setResult` -/

@[simp] theorem State.setResult_ent (n b c : Nat) (s : State) : (s.setResult n b c).ent = s.ent := rfl
@[simp] theorem State.setResult_idx (n b c : Nat) (s : State) : (s.setResult n b c).idx = s.idx := rfl
@[simp] theorem State.setResult_digest (n b c : Nat) (s : State) : (s.setResult n b c).digest = s.digest := rfl
@[simp] theorem State.setResult_entLen (n b c : Nat) (s : State) : (s.setResult n b c).entLen = s.entLen := rfl
@[simp] theorem State.setResult_result (n b c : Nat) (s : State) : (s.setResult n b c).result = ⟨BitVec.ofNat 8 n, BitVec.ofNat 6 b, BitVec.ofNat 9 c⟩ := rfl
@[simp] theorem State.setResult_status (n b c : Nat) (s : State) : (s.setResult n b c).status = s.status := rfl
@[simp] theorem State.setResult_cmdl (n b c : Nat) (s : State) : (s.setResult n b c).cmdl = s.cmdl := rfl
@[simp] theorem State.setResult_script (n b c : Nat) (s : State) : (s.setResult n b c).script = s.script := rfl
@[simp] theorem State.setResult_replies (n b c : Nat) (s : State) : (s.setResult n b c).replies = s.replies := rfl
@[simp] theorem State.setResult_schedule (n b c : Nat) (s : State) : (s.setResult n b c).schedule = s.schedule := rfl
@[simp] theorem State.setResult_delay (n b c : Nat) (s : State) : (s.setResult n b c).delay = s.delay := rfl
@[simp] theorem State.setResult_draws (n b c : Nat) (s : State) : (s.setResult n b c).draws = s.draws := rfl
@[simp] theorem State.setResult_hashPort (n b c : Nat) (s : State) : (s.setResult n b c).hashPort = s.hashPort := rfl
@[simp] theorem State.setResult_hashCalls (n b c : Nat) (s : State) : (s.setResult n b c).hashCalls = s.hashCalls := rfl

/-! ### `State.setValid` -/

@[simp] theorem State.setValid_ent (v : Bool) (s : State) : (s.setValid v).ent = s.ent := rfl
@[simp] theorem State.setValid_idx (v : Bool) (s : State) : (s.setValid v).idx = s.idx := rfl
@[simp] theorem State.setValid_digest (v : Bool) (s : State) : (s.setValid v).digest = s.digest := rfl
@[simp] theorem State.setValid_entLen (v : Bool) (s : State) : (s.setValid v).entLen = s.entLen := rfl
@[simp] theorem State.setValid_result (v : Bool) (s : State) : (s.setValid v).result = s.result := rfl
@[simp] theorem State.setValid_status (v : Bool) (s : State) : (s.setValid v).status = { s.status with valid := v } := rfl
@[simp] theorem State.setValid_cmdl (v : Bool) (s : State) : (s.setValid v).cmdl = s.cmdl := rfl
@[simp] theorem State.setValid_script (v : Bool) (s : State) : (s.setValid v).script = s.script := rfl
@[simp] theorem State.setValid_replies (v : Bool) (s : State) : (s.setValid v).replies = s.replies := rfl
@[simp] theorem State.setValid_schedule (v : Bool) (s : State) : (s.setValid v).schedule = s.schedule := rfl
@[simp] theorem State.setValid_delay (v : Bool) (s : State) : (s.setValid v).delay = s.delay := rfl
@[simp] theorem State.setValid_draws (v : Bool) (s : State) : (s.setValid v).draws = s.draws := rfl
@[simp] theorem State.setValid_hashPort (v : Bool) (s : State) : (s.setValid v).hashPort = s.hashPort := rfl
@[simp] theorem State.setValid_hashCalls (v : Bool) (s : State) : (s.setValid v).hashCalls = s.hashCalls := rfl

/-! ### `State.finish` -/

@[simp] theorem State.finish_ent (e : ErrCode) (s : State) : (s.finish e).ent = s.ent := rfl
@[simp] theorem State.finish_idx (e : ErrCode) (s : State) : (s.finish e).idx = s.idx := rfl
@[simp] theorem State.finish_digest (e : ErrCode) (s : State) : (s.finish e).digest = s.digest := rfl
@[simp] theorem State.finish_entLen (e : ErrCode) (s : State) : (s.finish e).entLen = s.entLen := rfl
@[simp] theorem State.finish_result (e : ErrCode) (s : State) : (s.finish e).result = s.result := rfl
@[simp] theorem State.finish_status (e : ErrCode) (s : State) : (s.finish e).status = { s.status with err := e.code, busy := false, done := true } := rfl
@[simp] theorem State.finish_cmdl (e : ErrCode) (s : State) : (s.finish e).cmdl = s.cmdl := rfl
@[simp] theorem State.finish_script (e : ErrCode) (s : State) : (s.finish e).script = s.script := rfl
@[simp] theorem State.finish_replies (e : ErrCode) (s : State) : (s.finish e).replies = s.replies := rfl
@[simp] theorem State.finish_schedule (e : ErrCode) (s : State) : (s.finish e).schedule = s.schedule := rfl
@[simp] theorem State.finish_delay (e : ErrCode) (s : State) : (s.finish e).delay = s.delay := rfl
@[simp] theorem State.finish_draws (e : ErrCode) (s : State) : (s.finish e).draws = s.draws := rfl
@[simp] theorem State.finish_hashPort (e : ErrCode) (s : State) : (s.finish e).hashPort = s.hashPort := rfl
@[simp] theorem State.finish_hashCalls (e : ErrCode) (s : State) : (s.finish e).hashCalls = s.hashCalls := rfl

/-! ### `State.setDigest` -/

@[simp] theorem State.setDigest_ent (d : Digest) (s : State) : (s.setDigest d).ent = s.ent := rfl
@[simp] theorem State.setDigest_idx (d : Digest) (s : State) : (s.setDigest d).idx = s.idx := rfl
@[simp] theorem State.setDigest_digest (d : Digest) (s : State) : (s.setDigest d).digest = d := rfl
@[simp] theorem State.setDigest_entLen (d : Digest) (s : State) : (s.setDigest d).entLen = s.entLen := rfl
@[simp] theorem State.setDigest_result (d : Digest) (s : State) : (s.setDigest d).result = s.result := rfl
@[simp] theorem State.setDigest_status (d : Digest) (s : State) : (s.setDigest d).status = s.status := rfl
@[simp] theorem State.setDigest_cmdl (d : Digest) (s : State) : (s.setDigest d).cmdl = s.cmdl := rfl
@[simp] theorem State.setDigest_script (d : Digest) (s : State) : (s.setDigest d).script = s.script := rfl
@[simp] theorem State.setDigest_replies (d : Digest) (s : State) : (s.setDigest d).replies = s.replies := rfl
@[simp] theorem State.setDigest_schedule (d : Digest) (s : State) : (s.setDigest d).schedule = s.schedule := rfl
@[simp] theorem State.setDigest_delay (d : Digest) (s : State) : (s.setDigest d).delay = s.delay := rfl
@[simp] theorem State.setDigest_draws (d : Digest) (s : State) : (s.setDigest d).draws = s.draws := rfl
@[simp] theorem State.setDigest_hashPort (d : Digest) (s : State) : (s.setDigest d).hashPort = s.hashPort := rfl
@[simp] theorem State.setDigest_hashCalls (d : Digest) (s : State) : (s.setDigest d).hashCalls = s.hashCalls := rfl

/-! ### `State.noteHashCall` -/

@[simp] theorem State.noteHashCall_ent (x : List Byte) (s : State) : (s.noteHashCall x).ent = s.ent := rfl
@[simp] theorem State.noteHashCall_idx (x : List Byte) (s : State) : (s.noteHashCall x).idx = s.idx := rfl
@[simp] theorem State.noteHashCall_digest (x : List Byte) (s : State) : (s.noteHashCall x).digest = s.digest := rfl
@[simp] theorem State.noteHashCall_entLen (x : List Byte) (s : State) : (s.noteHashCall x).entLen = s.entLen := rfl
@[simp] theorem State.noteHashCall_result (x : List Byte) (s : State) : (s.noteHashCall x).result = s.result := rfl
@[simp] theorem State.noteHashCall_status (x : List Byte) (s : State) : (s.noteHashCall x).status = s.status := rfl
@[simp] theorem State.noteHashCall_cmdl (x : List Byte) (s : State) : (s.noteHashCall x).cmdl = s.cmdl := rfl
@[simp] theorem State.noteHashCall_script (x : List Byte) (s : State) : (s.noteHashCall x).script = s.script := rfl
@[simp] theorem State.noteHashCall_replies (x : List Byte) (s : State) : (s.noteHashCall x).replies = s.replies := rfl
@[simp] theorem State.noteHashCall_schedule (x : List Byte) (s : State) : (s.noteHashCall x).schedule = s.schedule := rfl
@[simp] theorem State.noteHashCall_delay (x : List Byte) (s : State) : (s.noteHashCall x).delay = s.delay := rfl
@[simp] theorem State.noteHashCall_draws (x : List Byte) (s : State) : (s.noteHashCall x).draws = s.draws := rfl
@[simp] theorem State.noteHashCall_hashPort (x : List Byte) (s : State) : (s.noteHashCall x).hashPort = s.hashPort := rfl
@[simp] theorem State.noteHashCall_hashCalls (x : List Byte) (s : State) : (s.noteHashCall x).hashCalls = x :: s.hashCalls := rfl

/-! ### `State.writeEnt` -/

@[simp] theorem State.writeEnt_ent (xs : List Byte) (s : State) : (s.writeEnt xs).ent = s.ent.mapIdx fun i old => xs.getD i old := rfl
@[simp] theorem State.writeEnt_idx (xs : List Byte) (s : State) : (s.writeEnt xs).idx = s.idx := rfl
@[simp] theorem State.writeEnt_digest (xs : List Byte) (s : State) : (s.writeEnt xs).digest = s.digest := rfl
@[simp] theorem State.writeEnt_entLen (xs : List Byte) (s : State) : (s.writeEnt xs).entLen = s.entLen := rfl
@[simp] theorem State.writeEnt_result (xs : List Byte) (s : State) : (s.writeEnt xs).result = s.result := rfl
@[simp] theorem State.writeEnt_status (xs : List Byte) (s : State) : (s.writeEnt xs).status = s.status := rfl
@[simp] theorem State.writeEnt_cmdl (xs : List Byte) (s : State) : (s.writeEnt xs).cmdl = s.cmdl := rfl
@[simp] theorem State.writeEnt_script (xs : List Byte) (s : State) : (s.writeEnt xs).script = s.script := rfl
@[simp] theorem State.writeEnt_replies (xs : List Byte) (s : State) : (s.writeEnt xs).replies = s.replies := rfl
@[simp] theorem State.writeEnt_schedule (xs : List Byte) (s : State) : (s.writeEnt xs).schedule = s.schedule := rfl
@[simp] theorem State.writeEnt_delay (xs : List Byte) (s : State) : (s.writeEnt xs).delay = s.delay := rfl
@[simp] theorem State.writeEnt_draws (xs : List Byte) (s : State) : (s.writeEnt xs).draws = s.draws := rfl
@[simp] theorem State.writeEnt_hashPort (xs : List Byte) (s : State) : (s.writeEnt xs).hashPort = s.hashPort := rfl
@[simp] theorem State.writeEnt_hashCalls (xs : List Byte) (s : State) : (s.writeEnt xs).hashCalls = s.hashCalls := rfl

/-! ### `State.writeEntLen` -/

@[simp] theorem State.writeEntLen_ent (b : Nat) (s : State) : (s.writeEntLen b).ent = s.ent := rfl
@[simp] theorem State.writeEntLen_idx (b : Nat) (s : State) : (s.writeEntLen b).idx = s.idx := rfl
@[simp] theorem State.writeEntLen_digest (b : Nat) (s : State) : (s.writeEntLen b).digest = s.digest := rfl
@[simp] theorem State.writeEntLen_entLen (b : Nat) (s : State) : (s.writeEntLen b).entLen = BitVec.ofNat 6 b := rfl
@[simp] theorem State.writeEntLen_result (b : Nat) (s : State) : (s.writeEntLen b).result = s.result := rfl
@[simp] theorem State.writeEntLen_status (b : Nat) (s : State) : (s.writeEntLen b).status = s.status := rfl
@[simp] theorem State.writeEntLen_cmdl (b : Nat) (s : State) : (s.writeEntLen b).cmdl = s.cmdl := rfl
@[simp] theorem State.writeEntLen_script (b : Nat) (s : State) : (s.writeEntLen b).script = s.script := rfl
@[simp] theorem State.writeEntLen_replies (b : Nat) (s : State) : (s.writeEntLen b).replies = s.replies := rfl
@[simp] theorem State.writeEntLen_schedule (b : Nat) (s : State) : (s.writeEntLen b).schedule = s.schedule := rfl
@[simp] theorem State.writeEntLen_delay (b : Nat) (s : State) : (s.writeEntLen b).delay = s.delay := rfl
@[simp] theorem State.writeEntLen_draws (b : Nat) (s : State) : (s.writeEntLen b).draws = s.draws := rfl
@[simp] theorem State.writeEntLen_hashPort (b : Nat) (s : State) : (s.writeEntLen b).hashPort = s.hashPort := rfl
@[simp] theorem State.writeEntLen_hashCalls (b : Nat) (s : State) : (s.writeEntLen b).hashCalls = s.hashCalls := rfl

/-! ### `State.writeIdx` -/

@[simp] theorem State.writeIdx_ent (ks : List Half) (s : State) : (s.writeIdx ks).ent = s.ent := rfl
@[simp] theorem State.writeIdx_idx (ks : List Half) (s : State) : (s.writeIdx ks).idx = s.idx.mapIdx fun k old => ks.getD k old := rfl
@[simp] theorem State.writeIdx_digest (ks : List Half) (s : State) : (s.writeIdx ks).digest = s.digest := rfl
@[simp] theorem State.writeIdx_entLen (ks : List Half) (s : State) : (s.writeIdx ks).entLen = s.entLen := rfl
@[simp] theorem State.writeIdx_result (ks : List Half) (s : State) : (s.writeIdx ks).result = s.result := rfl
@[simp] theorem State.writeIdx_status (ks : List Half) (s : State) : (s.writeIdx ks).status = s.status := rfl
@[simp] theorem State.writeIdx_cmdl (ks : List Half) (s : State) : (s.writeIdx ks).cmdl = s.cmdl := rfl
@[simp] theorem State.writeIdx_script (ks : List Half) (s : State) : (s.writeIdx ks).script = s.script := rfl
@[simp] theorem State.writeIdx_replies (ks : List Half) (s : State) : (s.writeIdx ks).replies = s.replies := rfl
@[simp] theorem State.writeIdx_schedule (ks : List Half) (s : State) : (s.writeIdx ks).schedule = s.schedule := rfl
@[simp] theorem State.writeIdx_delay (ks : List Half) (s : State) : (s.writeIdx ks).delay = s.delay := rfl
@[simp] theorem State.writeIdx_draws (ks : List Half) (s : State) : (s.writeIdx ks).draws = s.draws := rfl
@[simp] theorem State.writeIdx_hashPort (ks : List Half) (s : State) : (s.writeIdx ks).hashPort = s.hashPort := rfl
@[simp] theorem State.writeIdx_hashCalls (ks : List Half) (s : State) : (s.writeIdx ks).hashCalls = s.hashCalls := rfl

/-! ### `State.clearBuffers` -/

@[simp] theorem State.clearBuffers_ent (s : State) : (s.clearBuffers).ent = Vector.replicate 32 0 := rfl
@[simp] theorem State.clearBuffers_idx (s : State) : (s.clearBuffers).idx = Vector.replicate 46 0 := rfl
@[simp] theorem State.clearBuffers_digest (s : State) : (s.clearBuffers).digest = Vector.replicate 32 0 := rfl
@[simp] theorem State.clearBuffers_entLen (s : State) : (s.clearBuffers).entLen = 0 := rfl
@[simp] theorem State.clearBuffers_result (s : State) : (s.clearBuffers).result = ⟨0, 0, 0⟩ := rfl
@[simp] theorem State.clearBuffers_status (s : State) : (s.clearBuffers).status = { s.status with valid := false } := rfl
@[simp] theorem State.clearBuffers_cmdl (s : State) : (s.clearBuffers).cmdl = s.cmdl := rfl
@[simp] theorem State.clearBuffers_script (s : State) : (s.clearBuffers).script = s.script := rfl
@[simp] theorem State.clearBuffers_replies (s : State) : (s.clearBuffers).replies = s.replies := rfl
@[simp] theorem State.clearBuffers_schedule (s : State) : (s.clearBuffers).schedule = s.schedule := rfl
@[simp] theorem State.clearBuffers_delay (s : State) : (s.clearBuffers).delay = s.delay := rfl
@[simp] theorem State.clearBuffers_draws (s : State) : (s.clearBuffers).draws = s.draws := rfl
@[simp] theorem State.clearBuffers_hashPort (s : State) : (s.clearBuffers).hashPort = s.hashPort := rfl
@[simp] theorem State.clearBuffers_hashCalls (s : State) : (s.clearBuffers).hashCalls = s.hashCalls := rfl

/-! ### `State.latchCommand` -/

@[simp] theorem State.latchCommand_ent (v : Word) (s : State) : (s.latchCommand v).ent = s.ent := rfl
@[simp] theorem State.latchCommand_idx (v : Word) (s : State) : (s.latchCommand v).idx = s.idx := rfl
@[simp] theorem State.latchCommand_digest (v : Word) (s : State) : (s.latchCommand v).digest = s.digest := rfl
@[simp] theorem State.latchCommand_entLen (v : Word) (s : State) : (s.latchCommand v).entLen = s.entLen := rfl
@[simp] theorem State.latchCommand_result (v : Word) (s : State) : (s.latchCommand v).result = s.result := rfl
@[simp] theorem State.latchCommand_status (v : Word) (s : State) : (s.latchCommand v).status = { s.status with busy := true, done := false, err := 0, busyViol := false } := rfl
@[simp] theorem State.latchCommand_cmdl (v : Word) (s : State) : (s.latchCommand v).cmdl = v := rfl
@[simp] theorem State.latchCommand_script (v : Word) (s : State) : (s.latchCommand v).script = s.script := rfl
@[simp] theorem State.latchCommand_replies (v : Word) (s : State) : (s.latchCommand v).replies = s.replies := rfl
@[simp] theorem State.latchCommand_schedule (v : Word) (s : State) : (s.latchCommand v).schedule = s.schedule := rfl
@[simp] theorem State.latchCommand_delay (v : Word) (s : State) : (s.latchCommand v).delay = s.delay := rfl
@[simp] theorem State.latchCommand_draws (v : Word) (s : State) : (s.latchCommand v).draws = s.draws := rfl
@[simp] theorem State.latchCommand_hashPort (v : Word) (s : State) : (s.latchCommand v).hashPort = s.hashPort := rfl
@[simp] theorem State.latchCommand_hashCalls (v : Word) (s : State) : (s.latchCommand v).hashCalls = s.hashCalls := rfl

/-! ### `State.drawDelay` -/

@[simp] theorem State.drawDelay_ent (s : State) : (s.drawDelay).ent = s.ent := rfl
@[simp] theorem State.drawDelay_idx (s : State) : (s.drawDelay).idx = s.idx := rfl
@[simp] theorem State.drawDelay_digest (s : State) : (s.drawDelay).digest = s.digest := rfl
@[simp] theorem State.drawDelay_entLen (s : State) : (s.drawDelay).entLen = s.entLen := rfl
@[simp] theorem State.drawDelay_result (s : State) : (s.drawDelay).result = s.result := rfl
@[simp] theorem State.drawDelay_status (s : State) : (s.drawDelay).status = s.status := rfl
@[simp] theorem State.drawDelay_cmdl (s : State) : (s.drawDelay).cmdl = s.cmdl := rfl
@[simp] theorem State.drawDelay_script (s : State) : (s.drawDelay).script = s.script := rfl
@[simp] theorem State.drawDelay_replies (s : State) : (s.drawDelay).replies = s.replies := rfl
@[simp] theorem State.drawDelay_schedule (s : State) : (s.drawDelay).schedule = s.schedule.tail := rfl
@[simp] theorem State.drawDelay_delay (s : State) : (s.drawDelay).delay = s.schedule.headD (Config.latency s.draws) := rfl
@[simp] theorem State.drawDelay_draws (s : State) : (s.drawDelay).draws = s.draws + 1 := rfl
@[simp] theorem State.drawDelay_hashPort (s : State) : (s.drawDelay).hashPort = s.hashPort := rfl
@[simp] theorem State.drawDelay_hashCalls (s : State) : (s.drawDelay).hashCalls = s.hashCalls := rfl

/-! ### `State.accept` -/

@[simp] theorem State.accept_ent (v : Word) (s : State) : (s.accept v).ent = s.ent := rfl
@[simp] theorem State.accept_idx (v : Word) (s : State) : (s.accept v).idx = s.idx := rfl
@[simp] theorem State.accept_digest (v : Word) (s : State) : (s.accept v).digest = s.digest := rfl
@[simp] theorem State.accept_entLen (v : Word) (s : State) : (s.accept v).entLen = s.entLen := rfl
@[simp] theorem State.accept_result (v : Word) (s : State) : (s.accept v).result = s.result := rfl
@[simp] theorem State.accept_status (v : Word) (s : State) : (s.accept v).status = { s.status with busy := true, done := false, err := 0, busyViol := false } := rfl
@[simp] theorem State.accept_cmdl (v : Word) (s : State) : (s.accept v).cmdl = v := rfl
@[simp] theorem State.accept_script (v : Word) (s : State) : (s.accept v).script = s.script := rfl
@[simp] theorem State.accept_replies (v : Word) (s : State) : (s.accept v).replies = s.replies := rfl
@[simp] theorem State.accept_schedule (v : Word) (s : State) : (s.accept v).schedule = s.schedule.tail := rfl
@[simp] theorem State.accept_delay (v : Word) (s : State) : (s.accept v).delay = s.schedule.headD (Config.latency s.draws) := rfl
@[simp] theorem State.accept_draws (v : Word) (s : State) : (s.accept v).draws = s.draws + 1 := rfl
@[simp] theorem State.accept_hashPort (v : Word) (s : State) : (s.accept v).hashPort = s.hashPort := rfl
@[simp] theorem State.accept_hashCalls (v : Word) (s : State) : (s.accept v).hashCalls = s.hashCalls := rfl

/-! ### `State.dropWrite` -/

@[simp] theorem State.dropWrite_ent (s : State) : (s.dropWrite).ent = s.ent := rfl
@[simp] theorem State.dropWrite_idx (s : State) : (s.dropWrite).idx = s.idx := rfl
@[simp] theorem State.dropWrite_digest (s : State) : (s.dropWrite).digest = s.digest := rfl
@[simp] theorem State.dropWrite_entLen (s : State) : (s.dropWrite).entLen = s.entLen := rfl
@[simp] theorem State.dropWrite_result (s : State) : (s.dropWrite).result = s.result := rfl
@[simp] theorem State.dropWrite_status (s : State) : (s.dropWrite).status = { s.status with busyViol := true } := rfl
@[simp] theorem State.dropWrite_cmdl (s : State) : (s.dropWrite).cmdl = s.cmdl := rfl
@[simp] theorem State.dropWrite_script (s : State) : (s.dropWrite).script = s.script := rfl
@[simp] theorem State.dropWrite_replies (s : State) : (s.dropWrite).replies = s.replies := rfl
@[simp] theorem State.dropWrite_schedule (s : State) : (s.dropWrite).schedule = s.schedule := rfl
@[simp] theorem State.dropWrite_delay (s : State) : (s.dropWrite).delay = s.delay := rfl
@[simp] theorem State.dropWrite_draws (s : State) : (s.dropWrite).draws = s.draws := rfl
@[simp] theorem State.dropWrite_hashPort (s : State) : (s.dropWrite).hashPort = s.hashPort := rfl
@[simp] theorem State.dropWrite_hashCalls (s : State) : (s.dropWrite).hashCalls = s.hashCalls := rfl

/-! ### `State.respond` -/

@[simp] theorem State.respond_ent (r : Reply) (s : State) : (s.respond r).ent = s.ent := rfl
@[simp] theorem State.respond_idx (r : Reply) (s : State) : (s.respond r).idx = s.idx := rfl
@[simp] theorem State.respond_digest (r : Reply) (s : State) : (s.respond r).digest = s.digest := rfl
@[simp] theorem State.respond_entLen (r : Reply) (s : State) : (s.respond r).entLen = s.entLen := rfl
@[simp] theorem State.respond_result (r : Reply) (s : State) : (s.respond r).result = s.result := rfl
@[simp] theorem State.respond_status (r : Reply) (s : State) : (s.respond r).status = s.status := rfl
@[simp] theorem State.respond_cmdl (r : Reply) (s : State) : (s.respond r).cmdl = s.cmdl := rfl
@[simp] theorem State.respond_script (r : Reply) (s : State) : (s.respond r).script = s.script := rfl
@[simp] theorem State.respond_replies (r : Reply) (s : State) : (s.respond r).replies = r :: s.replies := rfl
@[simp] theorem State.respond_schedule (r : Reply) (s : State) : (s.respond r).schedule = s.schedule := rfl
@[simp] theorem State.respond_delay (r : Reply) (s : State) : (s.respond r).delay = s.delay := rfl
@[simp] theorem State.respond_draws (r : Reply) (s : State) : (s.respond r).draws = s.draws := rfl
@[simp] theorem State.respond_hashPort (r : Reply) (s : State) : (s.respond r).hashPort = s.hashPort := rfl
@[simp] theorem State.respond_hashCalls (r : Reply) (s : State) : (s.respond r).hashCalls = s.hashCalls := rfl

/-! ### `State.applyReset` -/

@[simp] theorem State.applyReset_ent (s : State) : (s.applyReset).ent = State.reset.ent := rfl
@[simp] theorem State.applyReset_idx (s : State) : (s.applyReset).idx = State.reset.idx := rfl
@[simp] theorem State.applyReset_digest (s : State) : (s.applyReset).digest = State.reset.digest := rfl
@[simp] theorem State.applyReset_entLen (s : State) : (s.applyReset).entLen = 0 := rfl
@[simp] theorem State.applyReset_result (s : State) : (s.applyReset).result = ⟨0, 0, 0⟩ := rfl
@[simp] theorem State.applyReset_status (s : State) : (s.applyReset).status = ⟨false, false, false, false, 0⟩ := rfl
@[simp] theorem State.applyReset_cmdl (s : State) : (s.applyReset).cmdl = 0 := rfl
@[simp] theorem State.applyReset_script (s : State) : (s.applyReset).script = s.script := rfl
@[simp] theorem State.applyReset_replies (s : State) : (s.applyReset).replies = s.replies := rfl
@[simp] theorem State.applyReset_schedule (s : State) : (s.applyReset).schedule = s.schedule := rfl
@[simp] theorem State.applyReset_delay (s : State) : (s.applyReset).delay = 0 := rfl
@[simp] theorem State.applyReset_draws (s : State) : (s.applyReset).draws = s.draws := rfl
@[simp] theorem State.applyReset_hashPort (s : State) : (s.applyReset).hashPort = s.hashPort := rfl
@[simp] theorem State.applyReset_hashCalls (s : State) : (s.applyReset).hashCalls = s.hashCalls := rfl

/-! ### `State.storeInputs` -/

@[simp] theorem State.storeInputs_ent (off : Nat) (n : Width) (v : Word) (s : State) : (s.storeInputs off n v).ent = s.ent.mapIdx fun i old => overlayByte off n v (0x20 + i) old := rfl
@[simp] theorem State.storeInputs_idx (off : Nat) (n : Width) (v : Word) (s : State) : (s.storeInputs off n v).idx = s.idx.mapIdx fun k old =>
        halfOfBytes (overlayByte off n v (0x60 + 2 * k) (halfLane old 0)) (overlayByte off n v (0x61 + 2 * k) (halfLane old 1)) := rfl
@[simp] theorem State.storeInputs_digest (off : Nat) (n : Width) (v : Word) (s : State) : (s.storeInputs off n v).digest = s.digest := rfl
@[simp] theorem State.storeInputs_entLen (off : Nat) (n : Width) (v : Word) (s : State) : (s.storeInputs off n v).entLen = (overlayByte off n v 0x0C (s.entLen.setWidth 8)).setWidth 6 := rfl
@[simp] theorem State.storeInputs_result (off : Nat) (n : Width) (v : Word) (s : State) : (s.storeInputs off n v).result = s.result := rfl
@[simp] theorem State.storeInputs_status (off : Nat) (n : Width) (v : Word) (s : State) : (s.storeInputs off n v).status = s.status := rfl
@[simp] theorem State.storeInputs_cmdl (off : Nat) (n : Width) (v : Word) (s : State) : (s.storeInputs off n v).cmdl = s.cmdl := rfl
@[simp] theorem State.storeInputs_script (off : Nat) (n : Width) (v : Word) (s : State) : (s.storeInputs off n v).script = s.script := rfl
@[simp] theorem State.storeInputs_replies (off : Nat) (n : Width) (v : Word) (s : State) : (s.storeInputs off n v).replies = s.replies := rfl
@[simp] theorem State.storeInputs_schedule (off : Nat) (n : Width) (v : Word) (s : State) : (s.storeInputs off n v).schedule = s.schedule := rfl
@[simp] theorem State.storeInputs_delay (off : Nat) (n : Width) (v : Word) (s : State) : (s.storeInputs off n v).delay = s.delay := rfl
@[simp] theorem State.storeInputs_draws (off : Nat) (n : Width) (v : Word) (s : State) : (s.storeInputs off n v).draws = s.draws := rfl
@[simp] theorem State.storeInputs_hashPort (off : Nat) (n : Width) (v : Word) (s : State) : (s.storeInputs off n v).hashPort = s.hashPort := rfl
@[simp] theorem State.storeInputs_hashCalls (off : Nat) (n : Width) (v : Word) (s : State) : (s.storeInputs off n v).hashCalls = s.hashCalls := rfl

/-! ### `State.performWrite` -/

@[simp] theorem State.performWrite_ent (off : Nat) (n : Width) (v : Word) (s : State) : (s.performWrite off n v).ent = (s.storeInputs off n v).ent := rfl
@[simp] theorem State.performWrite_idx (off : Nat) (n : Width) (v : Word) (s : State) : (s.performWrite off n v).idx = (s.storeInputs off n v).idx := rfl
@[simp] theorem State.performWrite_digest (off : Nat) (n : Width) (v : Word) (s : State) : (s.performWrite off n v).digest = s.digest := rfl
@[simp] theorem State.performWrite_entLen (off : Nat) (n : Width) (v : Word) (s : State) : (s.performWrite off n v).entLen = (s.storeInputs off n v).entLen := rfl
@[simp] theorem State.performWrite_result (off : Nat) (n : Width) (v : Word) (s : State) : (s.performWrite off n v).result = s.result := rfl
@[simp] theorem State.performWrite_status (off : Nat) (n : Width) (v : Word) (s : State) : (s.performWrite off n v).status = { s.status with valid := false } := rfl
@[simp] theorem State.performWrite_cmdl (off : Nat) (n : Width) (v : Word) (s : State) : (s.performWrite off n v).cmdl = s.cmdl := rfl
@[simp] theorem State.performWrite_script (off : Nat) (n : Width) (v : Word) (s : State) : (s.performWrite off n v).script = s.script := rfl
@[simp] theorem State.performWrite_replies (off : Nat) (n : Width) (v : Word) (s : State) : (s.performWrite off n v).replies = s.replies := rfl
@[simp] theorem State.performWrite_schedule (off : Nat) (n : Width) (v : Word) (s : State) : (s.performWrite off n v).schedule = s.schedule := rfl
@[simp] theorem State.performWrite_delay (off : Nat) (n : Width) (v : Word) (s : State) : (s.performWrite off n v).delay = s.delay := rfl
@[simp] theorem State.performWrite_draws (off : Nat) (n : Width) (v : Word) (s : State) : (s.performWrite off n v).draws = s.draws := rfl
@[simp] theorem State.performWrite_hashPort (off : Nat) (n : Width) (v : Word) (s : State) : (s.performWrite off n v).hashPort = s.hashPort := rfl
@[simp] theorem State.performWrite_hashCalls (off : Nat) (n : Width) (v : Word) (s : State) : (s.performWrite off n v).hashCalls = s.hashCalls := rfl

/-! ### `State.inFlight` -/

@[simp] theorem State.inFlight_ent (v : Word) (s : State) : (s.inFlight v).ent = s.ent := rfl
@[simp] theorem State.inFlight_idx (v : Word) (s : State) : (s.inFlight v).idx = s.idx := rfl
@[simp] theorem State.inFlight_digest (v : Word) (s : State) : (s.inFlight v).digest = s.digest := rfl
@[simp] theorem State.inFlight_entLen (v : Word) (s : State) : (s.inFlight v).entLen = s.entLen := rfl
@[simp] theorem State.inFlight_result (v : Word) (s : State) : (s.inFlight v).result = s.result := rfl
@[simp] theorem State.inFlight_status (v : Word) (s : State) : (s.inFlight v).status = { s.status with busy := true, done := false, err := 0, busyViol := false } := rfl
@[simp] theorem State.inFlight_cmdl (v : Word) (s : State) : (s.inFlight v).cmdl = v := rfl
@[simp] theorem State.inFlight_script (v : Word) (s : State) : (s.inFlight v).script = s.script := rfl
@[simp] theorem State.inFlight_replies (v : Word) (s : State) : (s.inFlight v).replies = s.replies := rfl
@[simp] theorem State.inFlight_schedule (v : Word) (s : State) : (s.inFlight v).schedule = s.schedule := rfl
@[simp] theorem State.inFlight_delay (v : Word) (s : State) : (s.inFlight v).delay = 0 := rfl
@[simp] theorem State.inFlight_draws (v : Word) (s : State) : (s.inFlight v).draws = s.draws := rfl
@[simp] theorem State.inFlight_hashPort (v : Word) (s : State) : (s.inFlight v).hashPort = .answering := rfl
@[simp] theorem State.inFlight_hashCalls (v : Word) (s : State) : (s.inFlight v).hashCalls = s.hashCalls := rfl

end Sys2Proof.Machine
end

