-- ==== Sys2Proof/Laws/Buffers.lean ====
section
/-! SUPPORT. The buffer operations: what a write leaves at every position, and what a prefix reads after it. -/

namespace Sys2Proof.Machine

theorem length_entPrefix (s : State) {b : Nat} (hb : b ≤ 32) : (entPrefix s b).length = b := by
  simp [entPrefix, hb]

theorem length_idxPrefix (s : State) {n : Nat} (hn : n ≤ 46) : (idxPrefix s n).length = n := by
  simp [idxPrefix, hn]

/-- The prefixes depend on the buffer alone. -/
theorem entPrefix_congr {s t : State} (h : t.ent = s.ent) (b : Nat) : entPrefix t b = entPrefix s b := by
  simp [entPrefix, h]

theorem idxPrefix_congr {s t : State} (h : t.idx = s.idx) (n : Nat) : idxPrefix t n = idxPrefix s n := by
  simp [idxPrefix, h]

theorem anyInvalidIndex_congr {s t : State} (h : t.idx = s.idx) (n : Nat) : anyInvalidIndex t n = anyInvalidIndex s n := by
  simp [anyInvalidIndex, idxPrefix_congr h]

theorem entPrefix_getElem? (s : State) {b i : Nat} (hi : i < 32) (hb : i < b) : (entPrefix s b)[i]? = some s.ent[i] := by
  simp [entPrefix, hi, hb]

theorem idxPrefix_getElem? (s : State) {n k : Nat} (hk : k < 46) (hn : k < n) : (idxPrefix s n)[k]? = some s.idx[k] := by
  simp [idxPrefix, hk, hn]

/-- Two states that agree below n have the same prefix. -/
theorem idxPrefix_eq_of_agree {s t : State} {n : Nat} (h : ∀ k (_ : k < 46), k < n → t.idx[k] = s.idx[k]) :
    idxPrefix t n = idxPrefix s n := by
  apply List.ext_getElem?
  intro k
  rcases Nat.lt_or_ge k (min n 46) with hk | hk
  · rw [idxPrefix_getElem? t (by omega) (by omega), idxPrefix_getElem? s (by omega) (by omega), h k (by omega) (by omega)]
  · rw [List.getElem?_eq_none (by simp [idxPrefix]; omega), List.getElem?_eq_none (by simp [idxPrefix]; omega)]

theorem entPrefix_eq_of_agree {s t : State} {b : Nat} (h : ∀ k (_ : k < 32), k < b → t.ent[k] = s.ent[k]) :
    entPrefix t b = entPrefix s b := by
  apply List.ext_getElem?
  intro k
  rcases Nat.lt_or_ge k (min b 32) with hk | hk
  · rw [entPrefix_getElem? t (by omega) (by omega), entPrefix_getElem? s (by omega) (by omega), h k (by omega) (by omega)]
  · rw [List.getElem?_eq_none (by simp [entPrefix]; omega), List.getElem?_eq_none (by simp [entPrefix]; omega)]

/-- Every byte after a DEC's write (41_decode.md R124). -/
theorem writeEnt_getElem (xs : List Byte) (s : State) {i : Nat} (hi : i < 32) :
    (s.writeEnt xs).ent[i] = xs.getD i s.ent[i] := by
  simp

/-- Every entry after an ENC's write (40_encode.md R104). -/
theorem writeIdx_getElem (ks : List Half) (s : State) {k : Nat} (hk : k < 46) :
    (s.writeIdx ks).idx[k] = ks.getD k s.idx[k] := by
  simp

theorem entPrefix_writeEnt (xs : List Byte) (s : State) (h : xs.length ≤ 32) : entPrefix (s.writeEnt xs) xs.length = xs := by
  apply List.ext_getElem?
  intro i
  rcases Nat.lt_or_ge i xs.length with hi | hi
  · rw [entPrefix_getElem? _ (by omega) hi, writeEnt_getElem _ _ (by omega)]
    simp [hi]
  · rw [List.getElem?_eq_none (by rw [length_entPrefix _ h]; omega), List.getElem?_eq_none hi]

theorem idxPrefix_writeIdx (ks : List Half) (s : State) (h : ks.length ≤ 46) : idxPrefix (s.writeIdx ks) ks.length = ks := by
  apply List.ext_getElem?
  intro i
  rcases Nat.lt_or_ge i ks.length with hi | hi
  · rw [idxPrefix_getElem? _ (by omega) hi, writeIdx_getElem _ _ (by omega)]
    simp [hi]
  · rw [List.getElem?_eq_none (by rw [length_idxPrefix _ h]; omega), List.getElem?_eq_none hi]

/-- An entry is in range exactly when its upper five bits are 0 (41_decode.md R122). -/
theorem invalidIndex_eq_false_iff {v : Half} : invalidIndex v = false ↔ v.toNat < 2048 := by
  simp only [invalidIndex, bne_eq_false_iff_eq, ← BitVec.toNat_inj, BitVec.extractLsb'_toNat, Nat.shiftRight_eq_div_pow]
  have := v.isLt
  simp
  omega

theorem upper_bits_zero_iff {v : Half} : v.extractLsb' 11 5 = 0 ↔ v.toNat < 2048 := by
  simpa [invalidIndex] using invalidIndex_eq_false_iff (v := v)

/-- No entry is out of range exactly when every one of the first n is below 2048 (41_decode.md R122). -/
theorem anyInvalidIndex_eq_false_iff {s : State} {n : Nat} :
    anyInvalidIndex s n = false ↔ ∀ k (_ : k < 46), k < n → (s.idx[k]).toNat < 2048 := by
  simp only [anyInvalidIndex, List.any_eq_false, Bool.not_eq_true, invalidIndex_eq_false_iff]
  constructor
  · intro h k hk hn
    exact h _ (List.mem_of_getElem? (idxPrefix_getElem? s hk hn))
  · intro h v hv
    obtain ⟨k, hk⟩ := List.getElem?_of_mem hv
    have hlt : k < (idxPrefix s n).length := by
      rcases Nat.lt_or_ge k (idxPrefix s n).length with h1 | h1
      · exact h1
      · rw [List.getElem?_eq_none h1] at hk; simp at hk
    simp only [idxPrefix, List.length_take, Vector.length_toList] at hlt
    rw [idxPrefix_getElem? s (by omega) (by omega)] at hk
    injection hk with hk
    rw [← hk]
    exact h k (by omega) (by omega)

end Sys2Proof.Machine
end

