-- ==== Sys2Proof/Laws/Bus.lean ====
section
/-! SUPPORT. The bus: which write is what, everything a write can do, and what the host events leave alone. -/

namespace Sys2Proof.Machine

theorem aligned_iff {off : Nat} {n : Width} : aligned off n = true ↔ off % n.bytes = 0 := by simp [aligned]

theorem width_bytes_cases (n : Width) : n.bytes = 1 ∨ n.bytes = 2 ∨ n.bytes = 4 := by cases n <;> simp [Width.bytes]

/-- The register map, range by range (10_state.md R20). -/
theorem regionOf_cases (a : Nat) :
    (a < 0x04 ∧ regionOf a = .id) ∨ ((0x04 ≤ a ∧ a < 0x08) ∧ regionOf a = .status) ∨ ((0x08 ≤ a ∧ a < 0x0C) ∧ regionOf a = .cmd) ∨
    ((0x0C ≤ a ∧ a < 0x10) ∧ regionOf a = .entLen) ∨ ((0x10 ≤ a ∧ a < 0x14) ∧ regionOf a = .result) ∨
    ((0x14 ≤ a ∧ a < 0x20) ∧ regionOf a = .reserved) ∨ ((0x20 ≤ a ∧ a < 0x40) ∧ regionOf a = .ent) ∨
    ((0x40 ≤ a ∧ a < 0x60) ∧ regionOf a = .digest) ∨ ((0x60 ≤ a ∧ a < 0xBC) ∧ regionOf a = .idx) ∨
    (0xBC ≤ a ∧ regionOf a = .reserved) := by
  unfold regionOf
  repeat' split
  all_goals simp only [and_true, reduceCtorEq, and_false, or_false, false_or]; omega

theorem regionOf_cmd_iff {a : Nat} : regionOf a = .cmd ↔ 0x08 ≤ a ∧ a < 0x0C := by
  rcases regionOf_cases a with h | h | h | h | h | h | h | h | h | h <;> simp only [h.2, reduceCtorEq, true_iff, false_iff] <;> omega

theorem regionOf_entLen_iff {a : Nat} : regionOf a = .entLen ↔ 0x0C ≤ a ∧ a < 0x10 := by
  rcases regionOf_cases a with h | h | h | h | h | h | h | h | h | h <;> simp only [h.2, reduceCtorEq, true_iff, false_iff] <;> omega

theorem regionOf_ent_iff {a : Nat} : regionOf a = .ent ↔ 0x20 ≤ a ∧ a < 0x40 := by
  rcases regionOf_cases a with h | h | h | h | h | h | h | h | h | h <;> simp only [h.2, reduceCtorEq, true_iff, false_iff] <;> omega

theorem regionOf_digest_iff {a : Nat} : regionOf a = .digest ↔ 0x40 ≤ a ∧ a < 0x60 := by
  rcases regionOf_cases a with h | h | h | h | h | h | h | h | h | h <;> simp only [h.2, reduceCtorEq, true_iff, false_iff] <;> omega

theorem regionOf_idx_iff {a : Nat} : regionOf a = .idx ↔ 0x60 ≤ a ∧ a < 0xBC := by
  rcases regionOf_cases a with h | h | h | h | h | h | h | h | h | h <;> simp only [h.2, reduceCtorEq, true_iff, false_iff] <;> omega

/-- A command issue is a 4-byte write to 0x008 (10_state.md R28, 20_memory.md R53). -/
theorem writeKind_eq_command {off : Nat} {n : Width} : writeKind off n = .command ↔ off = 8 ∧ n = .word := by
  simp only [writeKind, aligned_iff]
  rcases regionOf_cases off with h | h | h | h | h | h | h | h | h | h <;> cases n <;> simp only [h.2, Width.bytes] <;> split_ifs <;>
    first | contradiction | (simp; done) | (simp; omega)

/-- The writes to inputs (20_memory.md R58, 10_state.md R29). -/
theorem writeKind_eq_input {off : Nat} {n : Width} : writeKind off n = .input ↔
    off % n.bytes = 0 ∧ (off = 12 ∨ (0x20 ≤ off ∧ off < 0x40) ∨ (0x60 ≤ off ∧ off < 0xBC)) := by
  simp only [writeKind, aligned_iff]
  rcases regionOf_cases off with h | h | h | h | h | h | h | h | h | h <;> cases n <;> simp only [h.2, Width.bytes] <;> split_ifs <;>
    first | contradiction | (simp; done) | (simp; omega)

/-- The bus errors (20_memory.md R54). -/
theorem writeKind_eq_busError {off : Nat} {n : Width} : writeKind off n = .busError ↔
    off % n.bytes ≠ 0 ∨ (8 ≤ off ∧ off < 12 ∧ n ≠ .word) := by
  simp only [writeKind, aligned_iff]
  rcases regionOf_cases off with h | h | h | h | h | h | h | h | h | h <;> cases n <;> simp only [h.2, Width.bytes] <;> split_ifs <;>
    first | contradiction | (simp; done) | (simp; omega)

/-- Everything a write can do to the state (20_memory.md R53 to R58). -/
theorem writeEffect_cases (off : Nat) (n : Width) (v : Word) (s : State) :
    ((writeKind off n = .busError ∨ writeKind off n = .ignored) ∧ writeEffect off n v s = s) ∨
    (writeKind off n = .command ∧ s.status.busy = false ∧ writeEffect off n v s = s.accept v) ∨
    (writeKind off n = .input ∧ s.status.busy = false ∧ writeEffect off n v s = s.performWrite off n v) ∨
    ((writeKind off n = .command ∨ writeKind off n = .input) ∧ s.status.busy = true ∧ writeEffect off n v s = s.dropWrite) := by
  unfold writeEffect
  cases hk : writeKind off n <;> cases hb : s.status.busy <;> simp

/-- A read changes only the model's own response list and draw counter (20_memory.md R56). -/
theorem memRead_eq (off : BitVec 8) (n : Width) (s : State) :
    memRead off n s = { s with replies := readReply s off n :: s.replies, draws := s.draws + n.bytes } := rfl

/-- One poll of `wait`: the read, and the loop's next round while BUSY is read as 1 (30_encoding.md R92). -/
theorem pollStatus_eq (s : State) :
    pollStatus s =
      if (readReply s 0x04 .word).data.getLsbD 0 then { memRead 0x04 .word s with script := .wait :: s.script }
      else memRead 0x04 .word s := rfl

/-- STATUS reads exactly, busy or not (70_reset_and_hazards.md R241). -/
theorem readReply_status (s : State) : readReply s 0x04 .word = ⟨false, statusWord s.status⟩ := by
  have h : ∀ w : Word, wordOfBytes (wordLane w 0) (wordLane w 1) (wordLane w 2) (wordLane w 3) = w := by
    intro w
    ext i hi
    interval_cases i <;> simp [wordOfBytes, wordLane]
  simp [readReply, aligned, Width.bytes, readData, readLane, regionOf, Region.volatile, windowByte, h]

theorem statusWord_busy (st : Status) : (statusWord st).getLsbD 0 = st.busy := by simp [statusWord]

/-- The poll loop goes on exactly while BUSY = 1. -/
theorem pollStatus_continue (s : State) :
    pollStatus s = if s.status.busy then { memRead 0x04 .word s with script := .wait :: s.script } else memRead 0x04 .word s := by
  rw [pollStatus_eq, readReply_status, statusWord_busy]

/-- What a host event short of a reset leaves alone while a command is in flight: all but BUSY_VIOL of the spec's state (20_memory.md R58, R63,
70_reset_and_hazards.md R240). -/
theorem hostEvent_busy_frame {s : State} {ev : HostEvent} (hb : s.status.busy = true) (hev : ev ≠ .rst) :
    (hostEvent ev s).ent = s.ent ∧ (hostEvent ev s).idx = s.idx ∧ (hostEvent ev s).digest = s.digest ∧
    (hostEvent ev s).entLen = s.entLen ∧ (hostEvent ev s).result = s.result ∧ (hostEvent ev s).cmdl = s.cmdl ∧
    (hostEvent ev s).hashCalls = s.hashCalls ∧ (hostEvent ev s).hashPort = s.hashPort ∧ (hostEvent ev s).delay = s.delay ∧
    ∃ viol, (hostEvent ev s).status = { s.status with busyViol := viol } := by
  cases ev with
  | rst => exact absurd rfl hev
  | read off n => exact ⟨rfl, rfl, rfl, rfl, rfl, rfl, rfl, rfl, rfl, _, rfl⟩
  | wait =>
    simp only [hostEvent, pollStatus_continue]
    split <;> exact ⟨rfl, rfl, rfl, rfl, rfl, rfl, rfl, rfl, rfl, _, rfl⟩
  | write off n v =>
    simp only [hostEvent, memWrite]
    rcases writeEffect_cases off.toNat n v s with ⟨-, h⟩ | ⟨-, h1, -⟩ | ⟨-, h1, -⟩ | ⟨-, -, h⟩
    · rw [h]; exact ⟨rfl, rfl, rfl, rfl, rfl, rfl, rfl, rfl, rfl, _, rfl⟩
    · simp [hb] at h1
    · simp [hb] at h1
    · rw [h]; exact ⟨rfl, rfl, rfl, rfl, rfl, rfl, rfl, rfl, rfl, _, rfl⟩

/-! ### Lanes -/

/-- A covered byte takes its lane of the data (20_memory.md R51). -/
theorem overlayByte_of_covers {off a : Nat} {n : Width} (v : Word) (old : Byte) (h : coversByte off n a) :
    overlayByte off n v a old = wordLane v (a - off) := if_pos h

/-- An uncovered byte stays. -/
theorem overlayByte_of_not_covers {off a : Nat} {n : Width} (v : Word) (old : Byte) (h : ¬coversByte off n a) :
    overlayByte off n v a old = old := if_neg h

/-- The four lanes of a word make the word (20_memory.md R51). -/
theorem wordOfBytes_wordLane (w : Word) : wordOfBytes (wordLane w 0) (wordLane w 1) (wordLane w 2) (wordLane w 3) = w := by
  ext i hi
  interval_cases i <;> simp [wordOfBytes, wordLane]

/-- The two lanes of an entry make the entry (20_memory.md R51). -/
theorem halfOfBytes_halfLane (x : Half) : halfOfBytes (halfLane x 0) (halfLane x 1) = x := by
  ext i hi
  interval_cases i <;> simp [halfLane, halfOfBytes]

theorem halfLane_zero_halfOfBytes (b0 b1 : Byte) : halfLane (halfOfBytes b0 b1) 0 = b0 := by
  ext i hi
  interval_cases i <;> simp [halfLane, halfOfBytes]

theorem halfLane_one_halfOfBytes (b0 b1 : Byte) : halfLane (halfOfBytes b0 b1) 1 = b1 := by
  ext i hi
  interval_cases i <;> simp [halfLane, halfOfBytes]

/-- Lanes 1 to 3 of ENT_LEN read 0 (10_state.md R29). -/
theorem wordLane_entLenWord (x : BitVec 6) {j : Nat} (h : 1 ≤ j) (h' : j < 4) : wordLane (entLenWord x) j = 0 := by
  apply BitVec.eq_of_getLsbD_eq
  intro i hi
  simp only [entLenWord, wordLane, BitVec.getLsbD_extractLsb', hi, decide_true, Bool.true_and, BitVec.getLsbD_setWidth]
  rw [BitVec.getLsbD_of_ge x _ (by omega)]
  simp

theorem wordOfBytes_lane (b0 b1 b2 b3 : Byte) {j : Nat} (hj : j < 4) :
    (wordOfBytes b0 b1 b2 b3).extractLsb' (8 * j) 8 = [b0, b1, b2, b3].getD j 0 := by
  interval_cases j <;> simp [wordOfBytes] <;> ext i hi <;> interval_cases i <;> simp

theorem halfOfBytes_lane (b0 b1 : Byte) {j : Nat} (hj : j < 2) :
    ((halfOfBytes b0 b1).setWidth 32).extractLsb' (8 * j) 8 = [b0, b1].getD j 0 := by
  interval_cases j <;> simp [halfOfBytes] <;> ext i hi <;> interval_cases i <;> simp

/-- An aligned read of any width gives in data bits [8j+7:8j] the byte at offset `off + j` (20_memory.md R51). -/
theorem readReply_lane (s : State) {off : BitVec 8} {n : Width} {j : Nat} (ha : off.toNat % n.bytes = 0) (hj : j < n.bytes) :
    (readReply s off n).data.extractLsb' (8 * j) 8 = readLane s off.toNat j := by
  rw [readReply, if_pos (aligned_iff.mpr ha)]
  cases n with
  | byte =>
    obtain rfl : j = 0 := by simp only [Width.bytes] at hj; omega
    simp only [readData]
    ext i hi
    simp [hi]
    omega
  | half => simp only [readData, halfOfBytes_lane _ _ hj]; simp only [Width.bytes] at hj; interval_cases j <;> rfl
  | word => simp only [readData, wordOfBytes_lane _ _ _ _ hj]; simp only [Width.bytes] at hj; interval_cases j <;> rfl

/-- While idle a read lane is the window's byte (20_memory.md R56, R60). -/
theorem readLane_of_idle {s : State} (hb : s.status.busy = false) (off j : Nat) : readLane s off j = windowByte s (off + j) := by
  simp [readLane, hb]

theorem windowByte_ent (s : State) {i : Nat} (h : i < 32) : windowByte s (0x20 + i) = s.ent[i] := by
  simp [windowByte, regionOf_ent_iff.mpr (show 0x20 ≤ 32 + i ∧ 32 + i < 0x40 by omega), h]

theorem windowByte_digest (s : State) {i : Nat} (h : i < 32) : windowByte s (0x40 + i) = s.digest[i] := by
  simp [windowByte, regionOf_digest_iff.mpr (show 0x40 ≤ 64 + i ∧ 64 + i < 0x60 by omega), h]

theorem windowByte_idx (s : State) {k h : Nat} (hk : k < 46) (hh : h < 2) :
    windowByte s (0x60 + 2 * k + h) = halfLane s.idx[k] h := by
  simp [windowByte, regionOf_idx_iff.mpr (show 0x60 ≤ 96 + 2 * k + h ∧ 96 + 2 * k + h < 0xBC by omega),
    show (96 + 2 * k + h - 96) / 2 = k by omega, show (96 + 2 * k + h - 96) % 2 = h by omega, hk]

/-! ### Everything a host event can do -/

/-- A write to an input (20_memory.md R58, 10_state.md R29). -/
abbrev inputWrite (off : BitVec 8) (n : Width) : Prop :=
  off.toNat % n.bytes = 0 ∧ (off.toNat = 12 ∨ (0x20 ≤ off.toNat ∧ off.toNat < 0x40) ∨ (0x60 ≤ off.toNat ∧ off.toNat < 0xBC))

theorem sameBlock_refl (s : State) : SameBlock s s := ⟨⟨rfl, rfl, rfl, rfl⟩, rfl, rfl, rfl⟩

/-- The window shows the block's state and nothing else. -/
theorem windowByte_congr {s t : State} (h : SameBlock s t) (a : Nat) : windowByte t a = windowByte s a := by
  obtain ⟨⟨h1, h2, h3, h4⟩, h5, h6, -⟩ := h
  simp [windowByte, h1, h2, h3, h4, h5, h6]

/-- A write's response where it is no bus error. -/
theorem memWrite_of_ok {off : BitVec 8} {n : Width} {v : Word} {s : State} (h : writeKind off.toNat n ≠ .busError) :
    memWrite off n v s = (writeEffect off.toNat n v s).respond ⟨false, 0⟩ := by
  simp [memWrite, writeReply, beq_eq_false_iff_ne.mpr h]

/-- A command issue while idle is an acceptance (43_control.md R161). -/
theorem memWrite_accept {s : State} (v : Word) (hb : s.status.busy = false) :
    memWrite 0x08 .word v s = (s.accept v).respond ⟨false, 0⟩ := by
  have hk : writeKind (BitVec.toNat (0x08 : BitVec 8)) .word = .command := writeKind_eq_command.mpr ⟨rfl, rfl⟩
  rw [memWrite_of_ok (by rw [hk]; simp), writeEffect, hk]
  simp [hb]

/-- An input write while idle is performed (20_memory.md R58). -/
theorem memWrite_perform {s : State} {off : BitVec 8} {n : Width} (v : Word) (h : inputWrite off n) (hb : s.status.busy = false) :
    memWrite off n v s = (s.performWrite off.toNat n v).respond ⟨false, 0⟩ := by
  have hk := writeKind_eq_input.mpr h
  rw [memWrite_of_ok (by rw [hk]; simp), writeEffect, hk]
  simp [hb]

/-- An input write while BUSY is dropped (20_memory.md R58). -/
theorem memWrite_drop {s : State} {off : BitVec 8} {n : Width} (v : Word) (h : inputWrite off n) (hb : s.status.busy = true) :
    memWrite off n v s = s.dropWrite.respond ⟨false, 0⟩ := by
  have hk := writeKind_eq_input.mpr h
  rw [memWrite_of_ok (by rw [hk]; simp), writeEffect, hk]
  simp [hb]

/-- Everything a host event can do: a reset, an acceptance, a performed input write, a dropped write, or nothing to the block. -/
theorem hostEvent_cases (ev : HostEvent) (s : State) :
    (ev = .rst ∧ hostEvent ev s = s.applyReset) ∨
    (∃ v, ev = .write 0x08 .word v ∧ s.status.busy = false ∧ hostEvent ev s = (s.accept v).respond ⟨false, 0⟩) ∨
    (∃ off n v, ev = .write off n v ∧ inputWrite off n ∧ s.status.busy = false ∧
      hostEvent ev s = (s.performWrite off.toNat n v).respond ⟨false, 0⟩) ∨
    (∃ off n v, ev = .write off n v ∧ ((off = 0x08 ∧ n = .word) ∨ inputWrite off n) ∧ s.status.busy = true ∧
      hostEvent ev s = s.dropWrite.respond ⟨false, 0⟩) ∨
    (ev ≠ .rst ∧ (∀ off n v, ev = .write off n v → ¬(off = 0x08 ∧ n = .word) ∧ ¬inputWrite off n) ∧ SameBlock s (hostEvent ev s) ∧
      (hostEvent ev s).hashCalls = s.hashCalls ∧ (hostEvent ev s).hashPort = s.hashPort ∧ (hostEvent ev s).delay = s.delay) := by
  cases ev with
  | rst => exact .inl ⟨rfl, rfl⟩
  | read off n => exact .inr (.inr (.inr (.inr ⟨by simp, by simp, ⟨⟨rfl, rfl, rfl, rfl⟩, rfl, rfl, rfl⟩, rfl, rfl, rfl⟩)))
  | wait =>
    refine .inr (.inr (.inr (.inr ⟨by simp, by simp, ?_⟩)))
    simp only [hostEvent, pollStatus_continue]
    split <;> exact ⟨⟨⟨rfl, rfl, rfl, rfl⟩, rfl, rfl, rfl⟩, rfl, rfl, rfl⟩
  | write off n v =>
    have hcmd : ∀ {o : BitVec 8}, o.toNat = 8 → o = 0x08 := fun h => BitVec.eq_of_toNat_eq h
    rcases writeEffect_cases off.toNat n v s with ⟨hk, h⟩ | ⟨hk, hb, h⟩ | ⟨hk, hb, h⟩ | ⟨hk, hb, h⟩
    · refine .inr (.inr (.inr (.inr ⟨by simp, ?_, ?_⟩)))
      · rintro _ _ _ ⟨⟩
        refine ⟨?_, fun hc => ?_⟩
        · rintro ⟨rfl, rfl⟩
          have := writeKind_eq_command (off := 8) (n := .word) |>.mpr ⟨rfl, rfl⟩
          simp [this] at hk
        · have := writeKind_eq_input.mpr hc
          simp [this] at hk
      · simp only [hostEvent, memWrite, h]
        exact ⟨⟨⟨rfl, rfl, rfl, rfl⟩, rfl, rfl, rfl⟩, rfl, rfl, rfl⟩
    · obtain ⟨h1, rfl⟩ := writeKind_eq_command.mp hk
      obtain rfl := hcmd h1
      exact .inr (.inl ⟨v, rfl, hb, by rw [hostEvent, memWrite_of_ok (by rw [hk]; simp), h]⟩)
    · exact .inr (.inr (.inl ⟨off, n, v, rfl, writeKind_eq_input.mp hk, hb,
        by rw [hostEvent, memWrite_of_ok (by rw [hk]; simp), h]⟩))
    · refine .inr (.inr (.inr (.inl ⟨off, n, v, rfl, ?_, hb, ?_⟩)))
      · rcases hk with hk | hk
        · obtain ⟨h1, rfl⟩ := writeKind_eq_command.mp hk
          exact .inl ⟨hcmd h1, rfl⟩
        · exact .inr (writeKind_eq_input.mp hk)
      · rw [hostEvent, memWrite_of_ok (by rcases hk with hk | hk <;> rw [hk] <;> simp), h]

end Sys2Proof.Machine
end

