-- ==== Sys2Proof/Laws/Commands.lean ====
section
/-! SUPPORT. The commands: what each leaves in every case, and everything a completion step can do. -/

namespace Sys2Proof.Machine

/-! ### The steps of ENC and DEC after their checks -/

@[simp] theorem packEntropy_ent (hash : List Byte → Digest) (n b c : Nat) (s : State) :
    (packEntropy hash n b c s).ent = s.ent := rfl
@[simp] theorem packEntropy_idx (hash : List Byte → Digest) (n b c : Nat) (s : State) :
    (packEntropy hash n b c s).idx = s.idx.mapIdx fun k old => (groupIndices (packedBits (entPrefix s b) (hash (entPrefix s b)) c) n).getD k old := rfl
@[simp] theorem packEntropy_digest (hash : List Byte → Digest) (n b c : Nat) (s : State) :
    (packEntropy hash n b c s).digest = hash (entPrefix s b) := rfl
@[simp] theorem packEntropy_entLen (hash : List Byte → Digest) (n b c : Nat) (s : State) :
    (packEntropy hash n b c s).entLen = s.entLen := rfl
@[simp] theorem packEntropy_result (hash : List Byte → Digest) (n b c : Nat) (s : State) :
    (packEntropy hash n b c s).result = s.result := rfl
@[simp] theorem packEntropy_status (hash : List Byte → Digest) (n b c : Nat) (s : State) :
    (packEntropy hash n b c s).status = ⟨false, true, true, s.status.busyViol, 0⟩ := rfl
@[simp] theorem packEntropy_cmdl (hash : List Byte → Digest) (n b c : Nat) (s : State) :
    (packEntropy hash n b c s).cmdl = s.cmdl := rfl
@[simp] theorem packEntropy_script (hash : List Byte → Digest) (n b c : Nat) (s : State) :
    (packEntropy hash n b c s).script = s.script := rfl
@[simp] theorem packEntropy_replies (hash : List Byte → Digest) (n b c : Nat) (s : State) :
    (packEntropy hash n b c s).replies = s.replies := rfl
@[simp] theorem packEntropy_schedule (hash : List Byte → Digest) (n b c : Nat) (s : State) :
    (packEntropy hash n b c s).schedule = s.schedule := rfl
@[simp] theorem packEntropy_delay (hash : List Byte → Digest) (n b c : Nat) (s : State) :
    (packEntropy hash n b c s).delay = s.delay := rfl
@[simp] theorem packEntropy_draws (hash : List Byte → Digest) (n b c : Nat) (s : State) :
    (packEntropy hash n b c s).draws = s.draws := rfl
@[simp] theorem packEntropy_hashPort (hash : List Byte → Digest) (n b c : Nat) (s : State) :
    (packEntropy hash n b c s).hashPort = s.hashPort := rfl
@[simp] theorem packEntropy_hashCalls (hash : List Byte → Digest) (n b c : Nat) (s : State) :
    (packEntropy hash n b c s).hashCalls = entPrefix s b :: s.hashCalls := rfl

/-- The bytes DEC decodes (41_decode.md R124). -/
abbrev decodedBytes (n b : Nat) (s : State) : List Byte := leadingBytes (indexBits (idxPrefix s n)) b

@[simp] theorem unpackIndices_ent (hash : List Byte → Digest) (n b c : Nat) (s : State) :
    (unpackIndices hash n b c s).ent = s.ent.mapIdx fun i old => (decodedBytes n b s).getD i old := rfl
@[simp] theorem unpackIndices_idx (hash : List Byte → Digest) (n b c : Nat) (s : State) :
    (unpackIndices hash n b c s).idx = s.idx := rfl
@[simp] theorem unpackIndices_digest (hash : List Byte → Digest) (n b c : Nat) (s : State) :
    (unpackIndices hash n b c s).digest = hash (decodedBytes n b s) := rfl
@[simp] theorem unpackIndices_entLen (hash : List Byte → Digest) (n b c : Nat) (s : State) :
    (unpackIndices hash n b c s).entLen = BitVec.ofNat 6 b := rfl
@[simp] theorem unpackIndices_result (hash : List Byte → Digest) (n b c : Nat) (s : State) :
    (unpackIndices hash n b c s).result = s.result := rfl
@[simp] theorem unpackIndices_status (hash : List Byte → Digest) (n b c : Nat) (s : State) :
    (unpackIndices hash n b c s).status = (let ok := decide (checksumBits (indexBits (idxPrefix s n)) b c = (bitsOf (hash (decodedBytes n b s)).toList).take c)
      { s.status with valid := ok, err := (if ok then ErrCode.none else .checksumMismatch).code, busy := false, done := true }) := rfl
@[simp] theorem unpackIndices_cmdl (hash : List Byte → Digest) (n b c : Nat) (s : State) :
    (unpackIndices hash n b c s).cmdl = s.cmdl := rfl
@[simp] theorem unpackIndices_script (hash : List Byte → Digest) (n b c : Nat) (s : State) :
    (unpackIndices hash n b c s).script = s.script := rfl
@[simp] theorem unpackIndices_replies (hash : List Byte → Digest) (n b c : Nat) (s : State) :
    (unpackIndices hash n b c s).replies = s.replies := rfl
@[simp] theorem unpackIndices_schedule (hash : List Byte → Digest) (n b c : Nat) (s : State) :
    (unpackIndices hash n b c s).schedule = s.schedule := rfl
@[simp] theorem unpackIndices_delay (hash : List Byte → Digest) (n b c : Nat) (s : State) :
    (unpackIndices hash n b c s).delay = s.delay := rfl
@[simp] theorem unpackIndices_draws (hash : List Byte → Digest) (n b c : Nat) (s : State) :
    (unpackIndices hash n b c s).draws = s.draws := rfl
@[simp] theorem unpackIndices_hashPort (hash : List Byte → Digest) (n b c : Nat) (s : State) :
    (unpackIndices hash n b c s).hashPort = s.hashPort := rfl
@[simp] theorem unpackIndices_hashCalls (hash : List Byte → Digest) (n b c : Nat) (s : State) :
    (unpackIndices hash n b c s).hashCalls = decodedBytes n b s :: s.hashCalls := rfl

/-- After a DEC, ENT[0..B) holds the decoded bytes (41_decode.md R124). -/
theorem entPrefix_unpackIndices (hash : List Byte → Digest) {n b c : Nat} (s : State) (hb : b ≤ 32) :
    entPrefix (unpackIndices hash n b c s) b = decodedBytes n b s := by
  have h := entPrefix_writeEnt (decodedBytes n b s) s (by simpa using hb)
  rw [length_leadingBytes] at h
  rw [← h]
  exact entPrefix_congr rfl b

/-! ### The cases of each command -/

theorem acctState_of_none {mode : Mode} {n ct : Nat} {s : State} (h : acct mode n ct = none) :
    acctState mode n ct s = (s.setResult n 0 0).finish .invalidWordCount := by simp [acctState, h]

theorem acctState_of_some {mode : Mode} {n ct b c : Nat} {s : State} (h : acct mode n ct = some (b, c)) :
    acctState mode n ct s = (s.setResult n b c).finish .none := by simp [acctState, h]

theorem encState_of_none {hash : List Byte → Digest} {mode : Mode} {n ct : Nat} {s : State} (h : acct mode n ct = none) :
    encState hash mode n ct s = ((s.setResult n 0 0).setValid false).finish .invalidWordCount := by simp [encState, h]

theorem encState_of_mismatch {hash : List Byte → Digest} {mode : Mode} {n ct b c : Nat} {s : State}
    (h : acct mode n ct = some (b, c)) (hb : s.entLen.toNat ≠ b) :
    encState hash mode n ct s = ((s.setResult n b c).setValid false).finish .invalidWordCount := by simp [encState, h, hb]

theorem encState_of_match {hash : List Byte → Digest} {mode : Mode} {n ct b c : Nat} {s : State}
    (h : acct mode n ct = some (b, c)) (hb : s.entLen.toNat = b) :
    encState hash mode n ct s = packEntropy hash n b c (s.setResult n b c) := by simp [encState, h, hb]

theorem decState_of_none {hash : List Byte → Digest} {mode : Mode} {n ct : Nat} {s : State} (h : acct mode n ct = none) :
    decState hash mode n ct s = ((s.setResult n 0 0).setValid false).finish .invalidWordCount := by simp [decState, h]

theorem decState_of_invalid {hash : List Byte → Digest} {mode : Mode} {n ct b c : Nat} {s : State}
    (h : acct mode n ct = some (b, c)) (hi : anyInvalidIndex s n = true) :
    decState hash mode n ct s = ((s.setResult n b c).setValid false).finish .invalidIndex := by simp [decState, h, hi]

theorem decState_of_valid {hash : List Byte → Digest} {mode : Mode} {n ct b c : Nat} {s : State}
    (h : acct mode n ct = some (b, c)) (hi : anyInvalidIndex s n = false) :
    decState hash mode n ct s = unpackIndices hash n b c (s.setResult n b c) := by simp [decState, h, hi]

/-! ### What every command does -/

/-- What no command touches, and what each does to STATUS beside VALID (60_exceptions.md R208). -/
def CompletionFrame (s t : State) : Prop :=
  SameHostSide s t ∧ t.cmdl = s.cmdl ∧ t.status.busy = false ∧ t.status.done = true ∧ t.status.busyViol = s.status.busyViol ∧
    t.status.err.toNat ≤ 4

theorem finish_completionFrame {s u : State} (e : ErrCode) (hs : SameHostSide s u) (hc : u.cmdl = s.cmdl)
    (hv : u.status.busyViol = s.status.busyViol) : CompletionFrame s (u.finish e) :=
  ⟨hs, hc, rfl, rfl, hv, by cases e <;> simp [ErrCode.code]⟩

theorem sameHostSide_refl (s : State) : SameHostSide s s := ⟨rfl, rfl, rfl, rfl, rfl, rfl⟩

/-- Every command ends in a next state within the frame (10_state.md R41). -/
theorem exec_next (i : Instr) (s : State) : ∃ t, exec i s = .next t ∧ CompletionFrame s t := by
  cases i with
  | acct mode n ct =>
    refine ⟨_, rfl, ?_⟩
    cases h : acct mode n ct with
    | none => rw [acctState_of_none h]; exact finish_completionFrame _ (sameHostSide_refl s) rfl rfl
    | some p => rw [acctState_of_some h]; exact finish_completionFrame _ (sameHostSide_refl s) rfl rfl
  | enc mode n ct =>
    refine ⟨_, rfl, ?_⟩
    cases h : acct mode n ct with
    | none => rw [encState_of_none h]; exact finish_completionFrame _ (sameHostSide_refl s) rfl rfl
    | some p =>
      by_cases hb : s.entLen.toNat = p.1
      · rw [encState_of_match h hb]; exact finish_completionFrame _ (sameHostSide_refl s) rfl rfl
      · rw [encState_of_mismatch h hb]; exact finish_completionFrame _ (sameHostSide_refl s) rfl rfl
  | dec mode n ct =>
    refine ⟨_, rfl, ?_⟩
    cases h : acct mode n ct with
    | none => rw [decState_of_none h]; exact finish_completionFrame _ (sameHostSide_refl s) rfl rfl
    | some p =>
      cases hi : anyInvalidIndex s n with
      | true => rw [decState_of_invalid h hi]; exact finish_completionFrame _ (sameHostSide_refl s) rfl rfl
      | false => rw [decState_of_valid h hi]; exact finish_completionFrame _ (sameHostSide_refl s) rfl rfl
  | clr => exact ⟨_, rfl, finish_completionFrame _ (sameHostSide_refl s) rfl rfl⟩

theorem complete_of_ok {s : State} {i : Instr} (h : decode s.cmdl = .ok i) : complete s = exec i s := by simp [complete, h]

theorem complete_of_error {s : State} {e : Illegal} (h : decode s.cmdl = .error e) : complete s = .next (s.finish .illegalCommand) := by
  simp [complete, h, execIllegal]

/-- The completion step always answers a next state within the frame (10_state.md R40). -/
theorem complete_next (s : State) : ∃ t, complete s = .next t ∧ CompletionFrame s t := by
  cases h : decode s.cmdl with
  | ok i => rw [complete_of_ok h]; exact exec_next i s
  | error e =>
    rw [complete_of_error h]
    exact ⟨_, rfl, finish_completionFrame _ (sameHostSide_refl s) rfl rfl⟩

theorem complete_frame {s t : State} (h : complete s = .next t) : CompletionFrame s t := by
  obtain ⟨u, hu, hf⟩ := complete_next s
  rw [h] at hu
  injection hu with hu
  exact hu ▸ hf

end Sys2Proof.Machine
end

