-- ==== Sys2Proof/Laws/Decode.lean ====
section
/-! SUPPORT. What the decoder can answer (30_encoding.md R87): one inversion lemma, and the fields of an encoded word. -/

namespace Sys2Proof

theorem modeOfBits_bits (m : Mode) : modeOfBits m.bits = some m := by cases m <;> rfl

theorem modeOfBits_some {b : BitVec 2} {m : Mode} (h : modeOfBits b = some m) : m.bits = b := by
  revert h
  revert b
  cases m <;> decide

theorem modeOfBits_none {b : BitVec 2} : modeOfBits b = none ↔ b = 3 := by
  revert b
  decide

/-- A command with operands carries the word's mode, N and CT (30_encoding.md R82 to R84). -/
theorem withOperands_ok {w : Word} {k : Mode → Nat → Nat → Instr} {i : Instr} (h : withOperands w k = .ok i) :
    ∃ m, m.bits = modeField w ∧ i = k m (nField w).toNat (ctField w).toNat := by
  unfold withOperands at h
  split at h
  · simp at h
  · rename_i m hm
    exact ⟨m, modeOfBits_some hm, by simpa using h.symm⟩

/-- Everything the decoder can answer with a command (30_encoding.md R87). -/
theorem decode_ok {w : Word} {i : Instr} (h : decode w = .ok i) :
    res1Field w = 0 ∧ res0Field w = 0 ∧
      ((opField w = 1 ∧ withOperands w .acct = .ok i) ∨ (opField w = 2 ∧ withOperands w .enc = .ok i) ∨
        (opField w = 3 ∧ withOperands w .dec = .ok i) ∨ (opField w = 4 ∧ i = .clr)) := by
  unfold decode at h
  split at h
  · simp at h
  rename_i h1
  split at h
  · simp at h
  rename_i h2
  refine ⟨by simpa using h1, by simpa using h2, ?_⟩
  split at h
  · exact .inl ⟨BitVec.eq_of_toNat_eq (by simpa using ‹_›), h⟩
  · exact .inr (.inl ⟨BitVec.eq_of_toNat_eq (by simpa using ‹_›), h⟩)
  · exact .inr (.inr (.inl ⟨BitVec.eq_of_toNat_eq (by simpa using ‹_›), h⟩))
  · exact .inr (.inr (.inr ⟨BitVec.eq_of_toNat_eq (by simpa using ‹_›), by simpa using h.symm⟩))
  · simp at h

/-! ### The fields of a word put together (30_encoding.md R80) -/

theorem opField_commandWord (ct : BitVec 9) (n : BitVec 8) (m : BitVec 2) (op : BitVec 4) :
    opField (commandWord ct n m op) = op := by
  ext i hi
  interval_cases i <;> simp [opField, commandWord]

theorem modeField_commandWord (ct : BitVec 9) (n : BitVec 8) (m : BitVec 2) (op : BitVec 4) :
    modeField (commandWord ct n m op) = m := by
  ext i hi
  interval_cases i <;> simp [modeField, commandWord, BitVec.getLsbD_of_ge]

theorem res0Field_commandWord (ct : BitVec 9) (n : BitVec 8) (m : BitVec 2) (op : BitVec 4) :
    res0Field (commandWord ct n m op) = 0 := by
  ext i hi
  interval_cases i <;> simp [res0Field, commandWord, BitVec.getLsbD_of_ge]

theorem nField_commandWord (ct : BitVec 9) (n : BitVec 8) (m : BitVec 2) (op : BitVec 4) :
    nField (commandWord ct n m op) = n := by
  ext i hi
  interval_cases i <;> simp [nField, commandWord, BitVec.getLsbD_of_ge]

theorem ctField_commandWord (ct : BitVec 9) (n : BitVec 8) (m : BitVec 2) (op : BitVec 4) :
    ctField (commandWord ct n m op) = ct := by
  ext i hi
  interval_cases i <;> simp [ctField, commandWord, BitVec.getLsbD_of_ge]

theorem res1Field_commandWord (ct : BitVec 9) (n : BitVec 8) (m : BitVec 2) (op : BitVec 4) :
    res1Field (commandWord ct n m op) = 0 := by
  ext i hi
  interval_cases i <;> simp [res1Field, commandWord, BitVec.getLsbD_of_ge]

end Sys2Proof
end

