-- ==== Sys2Proof/Laws/PerInstr.lean ====
section
/-! SUPPORT. Statements about every command as syntax, one lemma per constructor. -/

namespace Sys2Proof.Laws.EncodeFields

/-- The OP field of a command (30_encoding.md R81). -/
def opOf : Instr → BitVec 4
  | .acct _ _ _ => 1
  | .enc _ _ _ => 2
  | .dec _ _ _ => 3
  | .clr => 4

/-- The MODE, N and CT fields of a command; CLR's canonical word has zeros (30_encoding.md R82 to R84, R90). -/
def operandsOf : Instr → BitVec 2 × BitVec 8 × BitVec 9
  | .acct m n ct => (m.bits, BitVec.ofNat 8 n, BitVec.ofNat 9 ct)
  | .enc m n ct => (m.bits, BitVec.ofNat 8 n, BitVec.ofNat 9 ct)
  | .dec m n ct => (m.bits, BitVec.ofNat 8 n, BitVec.ofNat 9 ct)
  | .clr => (0, 0, 0)

/-- The encoded word has the command's OP, both reserved fields 0, and the operands in their places (30_encoding.md R80, R85). -/
def Statement (i : Instr) : Prop :=
  opField (encode i) = opOf i ∧ res0Field (encode i) = 0 ∧ res1Field (encode i) = 0 ∧
    (modeField (encode i), nField (encode i), ctField (encode i)) = operandsOf i

theorem commandWord_fields (ct : BitVec 9) (n : BitVec 8) (m : BitVec 2) (op : BitVec 4) :
    opField (commandWord ct n m op) = op ∧ res0Field (commandWord ct n m op) = 0 ∧ res1Field (commandWord ct n m op) = 0 ∧
      (modeField (commandWord ct n m op), nField (commandWord ct n m op), ctField (commandWord ct n m op)) = (m, n, ct) :=
  ⟨opField_commandWord .., res0Field_commandWord .., res1Field_commandWord ..,
    by rw [modeField_commandWord, nField_commandWord, ctField_commandWord]⟩

theorem acct (mode : Mode) (n ct : Nat) : Statement (.acct mode n ct) := commandWord_fields ..

theorem enc (mode : Mode) (n ct : Nat) : Statement (.enc mode n ct) := commandWord_fields ..

theorem dec (mode : Mode) (n ct : Nat) : Statement (.dec mode n ct) := commandWord_fields ..

theorem clr : Statement .clr := commandWord_fields ..

end Sys2Proof.Laws.EncodeFields
end

