-- ==== Sys2Proof/Laws/Script.lean ====
section
/-! SUPPORT. The expansions of `setent` and `setidx` (30_encoding.md R92): which lines expand, and to which writes, position by position. -/

namespace Sys2Proof.Machine

theorem allBelow_iff {bound : Nat} {xs : List Nat} : allBelow bound xs = true ↔ ∀ x ∈ xs, x < bound := by simp [allBelow]

/-- A `setent` expands exactly when its values are bytes and its writes stay in the window: 224 bytes at most. -/
theorem setEntropyOf_eq_some {bs : List Nat} {es : List HostEvent} :
    setEntropyOf bs = some es ↔ (∀ b ∈ bs, b < 256) ∧ bs.length ≤ 224 ∧ es = setEntropy (bs.map (BitVec.ofNat 8)) := by
  have h : (0x20 + bs.length ≤ Config.windowBytes) ↔ bs.length ≤ 224 := by simp only [Config.windowBytes]; omega
  simp only [setEntropyOf, allBelow_iff, h, Option.ite_none_right_eq_some, Option.some.injEq, and_assoc, eq_comm (b := es)]

/-- A `setidx` expands exactly when its values are halfwords and its writes stay in the window: 80 entries at most. -/
theorem setIndicesOf_eq_some {vs : List Nat} {es : List HostEvent} :
    setIndicesOf vs = some es ↔ (∀ v ∈ vs, v < 65536) ∧ vs.length ≤ 80 ∧ es = setIndices (vs.map (BitVec.ofNat 16)) := by
  have h : (0x60 + 2 * vs.length ≤ Config.windowBytes) ↔ vs.length ≤ 80 := by simp only [Config.windowBytes]; omega
  simp only [setIndicesOf, allBelow_iff, h, Option.ite_none_right_eq_some, Option.some.injEq, and_assoc, eq_comm (b := es)]

/-- Byte i of a `setent` goes to offset 0x20 + i, in order. -/
theorem setEntropy_getElem? (bs : List Byte) {i : Nat} (hi : i < bs.length) :
    (setEntropy bs)[i]? = some (wrB (BitVec.ofNat 8 (0x20 + i)) bs[i]) := by
  simp [setEntropy, List.getElem?_append_left, hi]

/-- The last write of a `setent` gives ENT_LEN the number of its bytes. -/
theorem setEntropy_last (bs : List Byte) : (setEntropy bs)[bs.length]? = some (wrW 0x0C (BitVec.ofNat 32 bs.length)) := by
  rw [setEntropy, List.getElem?_append_right (by simp)]
  simp

/-- Entry k of a `setidx` goes to offset 0x60 + 2k, in order. -/
theorem setIndices_getElem? (vs : List Half) {k : Nat} (hk : k < vs.length) :
    (setIndices vs)[k]? = some (wrH (BitVec.ofNat 8 (0x60 + 2 * k)) vs[k]) := by
  simp [setIndices, hk]

end Sys2Proof.Machine
end

