-- ==== Sys2Proof/Laws/Step.lean ====
section
/-! SUPPORT. Everything a step can do: one inversion lemma, from which the invariants are derived. -/

namespace Sys2Proof.Machine

theorem reservedErr_iff {e : BitVec 4} : reservedErr e = true ↔ ¬e.toNat ≤ 4 := by simp [reservedErr]; omega

/-- Everything a step that answers a next state can have done: the completion step, or the host's turn. -/
theorem step_cases {s t : State} (h : step s = .next t) :
    ErrLegal s ∧ ((sequencerTurn s = true ∧ complete s = .next t) ∨ (sequencerTurn s = false ∧ t = hostTurn s)) := by
  unfold step at h
  split at h
  · cases h
  rename_i h1
  refine ⟨by rw [reservedErr_iff] at h1; exact not_not.mp h1, ?_⟩
  split at h
  · exact .inl ⟨‹_›, h⟩
  · injection h with h
    exact .inr ⟨by simpa using ‹¬sequencerTurn s = true›, h.symm⟩

theorem step_of_sequencerTurn {s : State} (he : ErrLegal s) (h : sequencerTurn s = true) : step s = complete s := by
  have h1 : reservedErr s.status.err = false := by rw [Bool.eq_false_iff, ne_eq, reservedErr_iff]; exact not_not.mpr he
  simp [step, h1, h]

theorem step_of_hostTurn {s : State} (he : ErrLegal s) (h : sequencerTurn s = false) : step s = .next (hostTurn s) := by
  have h1 : reservedErr s.status.err = false := by rw [Bool.eq_false_iff, ne_eq, reservedErr_iff]; exact not_not.mpr he
  simp [step, h1, h]

/-- The sequencer moves only while a command is in flight (10_state.md R40). -/
theorem sequencerTurn_busy {s : State} (h : sequencerTurn s = true) : s.status.busy = true := by
  simp only [sequencerTurn, Bool.and_eq_true] at h
  exact h.1.1

/-- With a hash unit that answers, it moves as soon as no host transaction is left to land before the completion. -/
theorem sequencerTurn_of_ready {s : State} (hb : s.status.busy = true) (hd : s.script = [] ∨ s.delay = 0)
    (hp : s.hashPort = .answering) : sequencerTurn s = true := by
  rcases hd with hd | hd <;> simp [sequencerTurn, hb, hd, hp]

theorem sequencerTurn_idle {s : State} (hb : s.status.busy = false) : sequencerTurn s = false := by simp [sequencerTurn, hb]

/-- When the completion step is the next to happen (10_state.md R40, 70_reset_and_hazards.md R243, R244). -/
theorem sequencerTurn_iff {s : State} : sequencerTurn s = true ↔
    s.status.busy = true ∧ (s.script = [] ∨ s.delay = 0) ∧ (s.hashPort = .answering ∨ needsHash s = false) := by
  simp [sequencerTurn, and_assoc]

/-! ### Which commands need the hash port (20_memory.md R70) -/

theorem needsHash_of_error {s : State} {e : Illegal} (h : decode s.cmdl = .error e) : needsHash s = false := by
  simp [needsHash, complete_of_error h]

theorem needsHash_acct {s : State} {mode : Mode} {n ct : Nat} (h : decode s.cmdl = .ok (.acct mode n ct)) : needsHash s = false := by
  simp only [needsHash, complete_of_ok h, exec, execAcct]
  cases ha : acct mode n ct with
  | none => simp [acctState_of_none ha]
  | some p => simp [acctState_of_some ha]

theorem needsHash_clr {s : State} (h : decode s.cmdl = .ok .clr) : needsHash s = false := by
  simp [needsHash, complete_of_ok h, exec, execClr]

/-- ENC needs the hash exactly when it passes its accounting and length checks. -/
theorem needsHash_enc {s : State} {mode : Mode} {n ct : Nat} (h : decode s.cmdl = .ok (.enc mode n ct)) :
    needsHash s = true ↔ ∃ b c, acct mode n ct = some (b, c) ∧ s.entLen.toNat = b := by
  simp only [needsHash, complete_of_ok h, exec, execEnc]
  cases ha : acct mode n ct with
  | none => simp [encState_of_none ha]
  | some p =>
    obtain ⟨b, c⟩ := p
    by_cases hb : s.entLen.toNat = b
    · simp [encState_of_match ha hb, hb]
    · simpa [encState_of_mismatch ha hb] using fun h => hb h.symm

/-- DEC needs the hash exactly when it passes its accounting and index checks. -/
theorem needsHash_dec {s : State} {mode : Mode} {n ct : Nat} (h : decode s.cmdl = .ok (.dec mode n ct)) :
    needsHash s = true ↔ (acct mode n ct).isSome = true ∧ anyInvalidIndex s n = false := by
  simp only [needsHash, complete_of_ok h, exec, execDec]
  cases ha : acct mode n ct with
  | none => simp [decState_of_none ha]
  | some p =>
    cases hi : anyInvalidIndex s n with
    | true => simp [decState_of_invalid ha hi]
    | false => simp [decState_of_valid ha hi]

theorem hostTurn_nil {s : State} (h : s.script = []) : hostTurn s = s := by simp [hostTurn, h]

theorem hostTurn_cons {s : State} {ev : HostEvent} {rest : List HostEvent} (h : s.script = ev :: rest) :
    hostTurn s = hostEvent ev { s with script := rest, delay := s.delay - 1 } := by simp [hostTurn, h]

/-- One step of a run. -/
theorem run_succ {s t : State} (k : Nat) (h : step s = .next t) : core.run (k + 1) s = core.run k t := by
  have h' : core.step s = .next t := h
  simp only [Host.Core.run]
  rw [h']

end Sys2Proof.Machine
end

