-- ==== Sys2Proof/Tests/Slice0.lean ====
section
/-! SUPPORT. Tests from the spec's own tables and vectors, and for each obligation with hypotheses a witness that meets them. Expected values
are taken from spec/ (the file and rule, or the vector, stands in each docstring); digests are those of 95_test_vectors.md, section 3. -/

namespace Sys2Proof.Tests

open Sys2Proof.Machine

/-! ### WellFormed -/

/-- N has 8 bits (30_encoding.md R83), for each command. -/
theorem test_wellFormed_refuses_wide_n :
    WellFormed (.acct .std 256 0) = false ∧ WellFormed (.enc .rlx 256 0) = false ∧ WellFormed (.dec .exp 256 511) = false := by decide

/-- CT has 9 bits (30_encoding.md R84), for each command. -/
theorem test_wellFormed_refuses_wide_ct :
    WellFormed (.acct .exp 255 512) = false ∧ WellFormed (.enc .std 0 512) = false ∧ WellFormed (.dec .rlx 1 512) = false := by decide

theorem test_wellFormed_admits_bounds :
    WellFormed (.acct .exp 255 511) = true ∧ WellFormed (.enc .std 0 0) = true ∧ WellFormed (.dec .rlx 255 511) = true ∧
      WellFormed .clr = true := by decide

/-! ### Words written bit by bit from 30_encoding.md R80: RRRRRRR CCCCCCCCC NNNNNNNN rr MM OOOO -/

/-- ACCT, MODE 1, N = 23 (R93: `acct.rlx 23`), and with every N and CT bit set. -/
theorem test_decode_acct :
    decode 0b0000000_000000000_00010111_00_01_0001 = .ok (.acct .rlx 23 0) ∧
      decode 0b0000000_111111111_11111111_00_10_0001 = .ok (.acct .exp 255 511) := by decide

/-- ENC, MODE 2, N = 3, CT = 9 (R93: `enc.exp 3, 9`), and with the top bits of N and CT alone. -/
theorem test_decode_enc :
    decode 0b0000000_000001001_00000011_00_10_0010 = .ok (.enc .exp 3 9) ∧
      decode 0b0000000_100000000_10000000_00_00_0010 = .ok (.enc .std 128 256) := by decide

/-- DEC, MODE 2, N = 46, CT = 250 (R93: `dec.exp 46, 250`), and MODE 0, N = 12. -/
theorem test_decode_dec :
    decode 0b0000000_011111010_00101110_00_10_0011 = .ok (.dec .exp 46 250) ∧
      decode 0b0000000_000000000_00001100_00_00_0011 = .ok (.dec .std 12 0) := by decide

/-- CLR, canonical, and with MODE 3 and every N and CT bit set (R82, R86). -/
theorem test_decode_clr :
    decode 0b0000000_000000000_00000000_00_00_0100 = .ok .clr ∧ decode 0b0000000_111111111_11111111_00_11_0100 = .ok .clr := by decide

/-- R88 (a) to (d), at the edges of each case; R93's illegal words. -/
theorem test_decode_illegal :
    decode 0x00000000 = .error .opcode ∧ decode 0x00000005 = .error .opcode ∧ decode 0x0000000F = .error .opcode ∧
      decode 0x00000041 = .error .res0 ∧ decode 0x00000084 = .error .res0 ∧ decode 0x02000004 = .error .res1 ∧
      decode 0x80000001 = .error .res1 ∧ decode 0x00000C32 = .error .mode3 ∧ decode 0x00000031 = .error .mode3 ∧
      decode 0x00000033 = .error .mode3 := by decide

/-- A command is one 4-byte word (R89), its bytes in little-endian lanes (20_memory.md R51). -/
theorem test_decodeBytes :
    decodeBytes [0x22, 0x03, 0x09, 0x00] = .ok (.enc .exp 3 9) ∧ decodeBytes [0x22, 0x03, 0x09] = .error .length ∧
      decodeBytes [] = .error .length := by decide

theorem test_decodeTableWord : decodeTableWord 32 0x00000C01 = some (.acct .std 12 0) ∧ decodeTableWord 32 0x00000032 = none := by decide

/-- The canonical words of the opcode map (R81, R90). -/
theorem test_encode :
    encode (.acct .std 12 0) = 0x00000C01 ∧ encode (.enc .exp 3 9) = 0x00090322 ∧ encode (.dec .exp 46 250) = 0x00FA2E23 ∧
      encode .clr = 0x00000004 := by decide

/-- No word matches two rows (R86): under the common mask the patterns differ. -/
theorem test_opcodeMap_disjoint :
    opcodeMap.Pairwise (fun r q => r.mask = 0xFE0000CF ∧ q.mask = 0xFE0000CF ∧ r.pattern ≠ q.pattern) := by decide

/-! ### Assembler and host scripts -/

/-- What an assembler refuses (R90): N > 255, CT > 511, a missing CT on `.exp`, another mnemonic. -/
theorem test_assemble_refuses :
    assembleText "enc.std 256".toList = none ∧ assembleText "enc.exp 3, 512".toList = none ∧ assembleText "enc.exp 3".toList = none ∧
      assembleText "enc.foo 3".toList = none ∧ assembleText "mov 3".toList = none := by decide

/-- A third operand on `.std` is encoded, and printed where it is not 0 (R90). -/
theorem test_assemble_spare_ct :
    assembleText "acct.std 0x0C, 5".toList = some 0x00050C01 ∧ disassemble 0x00050C01 = "acct.std 12, 5".toList ∧
      disassemble 0x00000C01 = "acct.std 12".toList ∧ disassemble 0x00000122 = "enc.exp 1, 0".toList ∧
      disassemble 0x01FFFF34 = "clr".toList ∧ disassemble 0x00000C32 = ".illegal 0x00000C32".toList := by decide

/-- The expansions of R91 and R92. -/
theorem test_script_lines :
    parseScriptLine "setent 0xFF, 1".toList =
        some [.write 0x20 .byte 0xFF, .write 0x21 .byte 1, .write 0x0C .word 2] ∧
      parseScriptLine "setidx 7, 0xFFFF".toList = some [.write 0x60 .half 7, .write 0x62 .half 0xFFFF] ∧
      parseScriptLine "run enc.std 12".toList = some [.write 0x08 .word 0x00000C02, .wait] ∧
      parseScriptLine "rd.h 0x060".toList = some [.read 0x60 .half] ∧
      parseScriptLine "wr.b 0x00C, 32".toList = some [.write 0x0C .byte 32] := by decide

/-- R92 sets no bound on `setent`: a line of 224 bytes, whose last write is at offset 0xFF, expands, and a line of 225 leaves the window. -/
theorem test_setent_bound (bs : List Nat) (hb : ∀ b ∈ bs, b < 256) :
    (bs.length = 224 → ∃ es, setEntropyOf bs = some es ∧ (∃ v, es[223]? = some (.write 0xFF .byte v)) ∧
      es[224]? = some (.write 0x0C .word 224)) ∧
    (bs.length = 225 → setEntropyOf bs = none) := by
  constructor
  · intro h
    refine ⟨_, setEntropyOf_eq_some.mpr ⟨hb, by omega, rfl⟩, ⟨_, setEntropy_getElem? _ (by simp [h])⟩, ?_⟩
    have hl := setEntropy_last (bs.map (BitVec.ofNat 8))
    rw [List.length_map, h] at hl
    exact hl
  · intro h
    rw [Option.eq_none_iff_forall_ne_some]
    intro es he
    have := (setEntropyOf_eq_some.mp he).2.1
    omega

/-- The same for `setidx`: 80 entries, the last at offset 0xFE. -/
theorem test_setidx_bound (vs : List Nat) (hv : ∀ v ∈ vs, v < 65536) :
    (vs.length = 80 → ∃ es v, setIndicesOf vs = some es ∧ es[79]? = some (.write 0xFE .half v)) ∧
    (vs.length = 81 → setIndicesOf vs = none) := by
  constructor
  · intro h
    exact ⟨_, _, setIndicesOf_eq_some.mpr ⟨hv, by omega, rfl⟩, setIndices_getElem? _ (by simp [h])⟩
  · intro h
    rw [Option.eq_none_iff_forall_ne_some]
    intro es he
    have := (setIndicesOf_eq_some.mp he).2.1
    omega

/-- What lies past the buffers: the 33rd byte of a `setent` falls on DIGEST, which ignores it (20_memory.md R55). -/
theorem test_script_past_the_buffer :
    (hostEvent (.write 0x40 .byte 9) State.reset).digest[0] = 0 ∧ (hostEvent (.write 0x40 .byte 9) State.reset).replies = [⟨false, 0⟩] := by
  decide

/-! ### The commands, with the digests of 95_test_vectors.md in the place of the hash port -/

/-- The first bytes of SHA2-256 of 16 zero bytes, of the byte 00, of the byte ff (95_test_vectors.md, section 3); no test reads a later byte. -/
def digestOf (first : List Byte) : Digest := Vector.ofFn fun i : Fin 32 => first.getD i 0

/-- A reset block with the first entropy bytes and ENT_LEN written. -/
def entropyState (bytes : List Byte) (len : Nat) : State := (State.reset.writeEnt bytes).writeEntLen len

/-- A reset block with the first indices written. -/
def indexState (ks : List Half) : State := State.reset.writeIdx ks

/-- V-ACC-10: `acct.rlx 23`; V-ACC-27: CT ignored outside MODE 2. -/
theorem test_acct_completes :
    (let t := acctState .rlx 23 0 State.reset
     statusWord t.status = 0x02 ∧ resultWord t.result = 0x00051F17) ∧
    (let t := acctState .std 12 511 State.reset
     statusWord t.status = 0x02 ∧ resultWord t.result = 0x0004100C) := by decide

/-- V-ACC-11: relaxed 24 is rejected and N echoed. VALID is kept (42_accounting.md R150). -/
theorem test_acct_rejects :
    let t := acctState .rlx 24 0 (State.reset.setValid true)
    statusWord t.status = 0x16 ∧ resultWord t.result = 0x00000018 := by decide

/-- V-ENC-8: the entropy 61 62 63 and nine checksum bits of ba 78. -/
theorem test_enc_packs :
    let t := encState (fun _ => digestOf [0xBA, 0x78]) .exp 3 9 (entropyState [0x61, 0x62, 0x63] 3)
    statusWord t.status = 0x06 ∧ resultWord t.result = 0x00090303 ∧ t.idx.toList.take 4 = [779, 152, 1908, 0] ∧
      t.hashCalls = [[0x61, 0x62, 0x63]] := by decide

/-- V-ENC-11: ENT_LEN = 15 where B = 16. -/
theorem test_enc_length_mismatch :
    let t := encState (fun _ => digestOf [0xFF]) .std 12 0 (entropyState [0, 0] 15)
    statusWord t.status = 0x12 ∧ resultWord t.result = 0x0004100C ∧ t.idx[11] = 0 ∧ t.digest[0] = 0 ∧ t.hashCalls = [] := by decide

/-- V-DEC-10: the inverse of V-ENC-8. -/
theorem test_dec_unpacks :
    let t := decState (fun _ => digestOf [0xBA, 0x78]) .exp 3 9 (indexState [779, 152, 1908])
    statusWord t.status = 0x06 ∧ resultWord t.result = 0x00090303 ∧ t.ent.toList.take 4 = [0x61, 0x62, 0x63, 0] ∧
      t.entLen = 3 ∧ t.digest[1] = 0x78 := by decide

/-- V-DEC-16 (a flipped checksum bit), V-DEC-6 (an index of 2048). -/
theorem test_dec_rejects :
    (let t := decState (fun _ => digestOf [0x6E]) .rlx 1 0 (indexState [2])
     statusWord t.status = 0x32 ∧ t.ent[0] = 0 ∧ t.entLen = 1 ∧ t.digest[0] = 0x6E) ∧
    (let t := decState (fun _ => digestOf [0x6E]) .std 12 0 (indexState [0, 0, 0, 2048, 0, 0, 0, 0, 0, 0, 0, 3])
     statusWord t.status = 0x22 ∧ t.entLen = 0 ∧ t.digest[0] = 0) := by decide

/-- V-CLR-5: a write dropped while CLR is in flight shows in BUSY_VIOL. -/
theorem test_clr_after_dropped_write :
    let s := (encState (fun _ => digestOf [0x6E]) .rlx 1 0 (entropyState [0xFF] 1)).inFlight 0x00000004
    let t := (hostEvent (.write 0x20 .byte 0x55) s).clearBuffers.finish .none
    statusWord t.status = 0x0A ∧ t.ent[0] = 0 ∧ t.idx[0] = 0 ∧ t.digest[0] = 0 ∧ t.entLen = 0 ∧ resultWord t.result = 0 := by decide

/-- The streaming datapaths on V-ENC-8 and V-DEC-10 (40_encode.md R106, 41_decode.md R127). -/
theorem test_streams :
    packStream [0x61, 0x62, 0x63] (digestOf [0xBA, 0x78]) 9 = ⟨0, 0, [779, 152, 1908]⟩ ∧
      unpackStream [779, 152, 1908] 3 =
        ⟨0, 0, [0x61, 0x62, 0x63], [true, false, true, true, true, false, true, false, false]⟩ := by decide

/-! ### The bus (V-BUS rows) and the hazards (V-HAZ rows) -/

/-- V-BUS-1 to V-BUS-6. -/
theorem test_reads :
    readReply State.reset 0x00 .word = ⟨false, 0xB1390007⟩ ∧ readReply State.reset 0x03 .byte = ⟨false, 0xB1⟩ ∧
      readReply State.reset 0x02 .half = ⟨false, 0xB139⟩ ∧ readReply State.reset 0x02 .word = ⟨true, 0⟩ ∧
      readReply State.reset 0x08 .word = ⟨false, 0⟩ ∧ readReply State.reset 0xFC .word = ⟨false, 0⟩ := by decide

/-- V-BUS-18: `rd.w 0x040` where DIGEST begins with the bytes ba 78 16 bf; R32, the first and the last byte. -/
theorem test_read_digest :
    let s := { State.reset with digest := State.reset.digest.mapIdx fun i _ => ([0xBA, 0x78, 0x16, 0xBF][i]?).getD (BitVec.ofNat 8 i) }
    readReply s 0x40 .word = ⟨false, 0xBF1678BA⟩ ∧ readReply s 0x42 .half = ⟨false, 0xBF16⟩ ∧ readReply s 0x5F .byte = ⟨false, 31⟩ := by
  decide

/-- V-BUS-8, V-BUS-9. -/
theorem test_entLen_write :
    let t := memWrite 0x0C .word 0xFFFFFFFF (State.reset.setValid true)
    let u := memWrite 0x0D .byte 0x05 (t.setValid true)
    t.entLen = 63 ∧ t.status.valid = false ∧ readReply t 0x0C .word = ⟨false, 0x3F⟩ ∧ u.entLen = 63 ∧ u.status.valid = true := by
  decide

/-- V-BUS-10 to V-BUS-12. -/
theorem test_buffer_writes :
    let t := memWrite 0x20 .word 0x04030201 State.reset
    let u := memWrite 0x61 .byte 0xAB (memWrite 0x60 .word 0x07FF0123 State.reset)
    readReply t 0x23 .byte = ⟨false, 0x04⟩ ∧ readReply t 0x22 .half = ⟨false, 0x0403⟩ ∧ t.ent[0] = 1 ∧ t.ent[4] = 0 ∧
      u.idx[0] = 0xAB23 ∧ u.idx[1] = 0x07FF := by decide

/-- V-BUS-13 to V-BUS-15: no narrow or misaligned command issue. -/
theorem test_narrow_command :
    memWrite 0x0B .byte 0x04 State.reset = State.reset.respond ⟨true, 0⟩ ∧
      memWrite 0x0A .half 0x0004 State.reset = State.reset.respond ⟨true, 0⟩ ∧
      memWrite 0x09 .word 0x00000004 State.reset = State.reset.respond ⟨true, 0⟩ := by decide

/-- V-HAZ-1 to V-HAZ-3 and V-HAZ-5, V-HAZ-6, before the completion. -/
theorem test_hazards :
    let s := (entropyState [0, 0] 16).inFlight 0x00000C02
    (memWrite 0x0C .word 15 s).entLen = 16 ∧ statusWord (memWrite 0x0C .word 15 s).status = 0x09 ∧
      (memWrite 0x08 .word 0x00000004 s).cmdl = 0x00000C02 ∧ readReply s 0x04 .word = ⟨false, 0x00000001⟩ ∧
      statusWord (memWrite 0x14 .word 1 s).status = 0x01 ∧ (memWrite 0x08 .half 4 s).replies = [⟨true, 0⟩] := by decide

/-! ### Steps -/

/-- The first step after reset runs the placed word: `acct.std 12` (V-ACC-3), an illegal word (60_exceptions.md R203), CLR (V-CLR-2). -/
theorem test_withFetchWord :
    (∃ t, step (State.reset.withFetchWord 32 0x00000C01) = .next t ∧ statusWord t.status = 0x02 ∧ resultWord t.result = 0x0004100C) ∧
    (∃ t, step (State.reset.withFetchWord 32 0x00000000) = .next t ∧ statusWord t.status = 0x42) ∧
    (∃ t, step (State.reset.withFetchWord 32 0x00000004) = .next t ∧ statusWord t.status = 0x02) := by
  refine ⟨⟨_, rfl, ?_⟩, ⟨_, rfl, ?_⟩, ⟨_, rfl, ?_⟩⟩ <;> decide

/-- 95_test_vectors.md P4, steps 3 to 5 under schedule (b): one host transaction lands before the completion. -/
theorem test_schedule_b :
    let s := { State.reset with schedule := [1], script := [issue 0x00000C32, wrW 0x0C 16, .wait] }
    ∃ t, core.run 4 s = .next t ∧ t.entLen = 0 ∧ t.replies = [⟨false, 0x0000004A⟩, ⟨false, 0⟩, ⟨false, 0⟩] := by
  exact ⟨_, rfl, by decide, by decide⟩

/-- The same under schedule (a): the completion comes first. -/
theorem test_schedule_a :
    let s := { State.reset with schedule := [0], script := [issue 0x00000C32, wrW 0x0C 16, .wait] }
    ∃ t, core.run 4 s = .next t ∧ t.entLen = 16 ∧ t.replies = [⟨false, 0x00000042⟩, ⟨false, 0⟩, ⟨false, 0⟩] := by
  exact ⟨_, rfl, by decide, by decide⟩

/-- 93_implementation_defined.md U10: a reserved ERR code faults. -/
theorem test_reserved_err : step { State.reset with status := ⟨false, true, false, false, 5⟩ } = .fault .reservedErrCode := rfl

/-! ### Witnesses: states and operands that meet the hypotheses of each obligation -/

/-- DecodeInvertsEncode. -/
theorem witness_decodeInvertsEncode :
    WellFormed (.enc .exp 255 511) = true ∧ decode (encode (.enc .exp 255 511)) = .ok (.enc .exp 255 511) ∧
      WellFormed .clr = true ∧ decode (encode .clr) = .ok .clr := by decide

/-- EncodeInvertsDecode: the largest operands, and a CLR word with every ignored bit set. -/
theorem witness_encodeInvertsDecode :
    decode 0x01FFFF23 = .ok (.dec .exp 255 511) ∧ encode (.dec .exp 255 511) = 0x01FFFF23 ∧
      decode 0x01FFFF34 = .ok .clr ∧ (0x01FFFF34 : Word) &&& 0xFE0000CF = 0x00000004 := by decide

/-- OpcodeMapAgreesWithDecode: every row, each command with operands, and a mode that ignores CT. -/
theorem witness_opcodeMapAgreesWithDecode :
    (opcodeMap.zip [0x00000C01, 0x01FFFF22, 0x00000813, 0x01FFFF34]).all (fun p => p.1.matchesWord p.2) = true ∧
      decode 0x00000C01 = .ok (.acct .std 12 0) ∧ decode 0x01FFFF22 = .ok (.enc .exp 255 511) ∧
      decode 0x00000813 = .ok (.dec .rlx 8 0) ∧ Mode.std ≠ .exp := by decide

/-- IllegalWordsExactly: each of the cases (a) to (d). -/
theorem witness_illegalWordsExactly :
    (decode 0xFFFFFFF0 = .error .res1 ∧ decode 0x00000010 = .error .opcode ∧ decode 0x00000005 = .error .opcode) ∧
      decode 0x000000C1 = .error .res0 ∧ decode 0x02000001 = .error .res1 ∧ decode 0x00000032 = .error .mode3 := by decide

/-- AssembleInvertsDisassemble: a command, an illegal word, a CLR word. -/
theorem witness_assembleInvertsDisassemble :
    decode 0x01FFFF21 ≠ .ok .clr ∧ assembleText (disassemble 0x01FFFF21) = some 0x01FFFF21 ∧
      decode 0xFFFFFFFF ≠ .ok .clr ∧ assembleText (disassemble 0xFFFFFFFF) = some 0xFFFFFFFF ∧
      decode 0x00000104 = .ok .clr ∧ disassemble 0x00000104 = "clr".toList := by decide

/-- StandardModeRows: an n outside the set and one inside. -/
theorem witness_standardModeRows : 13 ∉ [9, 12, 15, 18, 21, 24] ∧ 24 ∈ [9, 12, 15, 18, 21, 24] := by decide

/-- RelaxedModeAcceptsExactly: both sides of the bound. -/
theorem witness_relaxedModeAcceptsExactly : acct .rlx 23 0 = some (31, 5) ∧ acct .rlx 24 0 = none ∧ acct .rlx 0 0 = none := by decide

/-- ExplicitModeAcceptsExactly: the largest n, the smallest, and a length at the edge of the budget (C = 256). -/
theorem witness_explicitModeAcceptsExactly :
    (acct .exp 46 250).isSome = true ∧ acct .exp 1 3 = some (1, 3) ∧
      (8 * 1 ≤ 11 * 24 ∧ 11 * 24 ≤ 8 * 1 + 256 ∧ acct .exp 24 256 = some (1, 256)) := by decide

/-- AccountingInvariant, in each mode, at its largest n. -/
theorem witness_accountingInvariant :
    acct .std 24 0 = some (32, 8) ∧ acct .rlx 23 0 = some (31, 5) ∧ acct .exp 46 250 = some (32, 250) ∧
      acct .exp 24 256 = some (1, 256) := by decide

/-- AccountingTable: a length with its only n. -/
theorem witness_accountingTable : acct .rlx 8 0 = some (11, 0) ∧ acct .rlx 8 511 = some (11, 0) ∧ 11 ∈ [1, 2, 4, 5, 6, 8, 9, 11] := by
  decide

/-- ModesCompared: an n of each clause. -/
theorem witness_modesCompared :
    21 ∈ [9, 12, 15, 18, 21] ∧ 25 ∉ [9, 12, 15, 18, 21, 24] ∧ (1 ≤ 23 ∧ 23 ≤ 23) ∧ acct .std 24 0 = some (32, 8) := by decide

/-- AcctCompletes: both outcomes, n at its ends. -/
theorem witness_acctCompletes : acct .std 0 0 = none ∧ acct .exp 255 511 = none ∧ acct .exp 46 250 = some (32, 250) := by decide

/-- EncPacksEntropy, EncIndexBits, EncIsDeterministic: the largest packing and the smallest, from two states that agree on ENT[0..B). -/
theorem witness_encSucceeds :
    acct .exp 46 250 = some (32, 250) ∧ (entropyState [] 32).entLen.toNat = 32 ∧ acct .rlx 1 0 = some (1, 3) ∧
      (entropyState [7, 8] 1).entLen.toNat = 1 ∧ (entropyState [7, 9] 1).entLen.toNat = 1 ∧
      (∀ i (_ : i < 32), i < 1 → (entropyState [7, 9] 1).ent[i] = (entropyState [7, 8] 1).ent[i]) ∧
      entropyState [7, 9] 1 ≠ entropyState [7, 8] 1 := by decide

/-- EncFailures: no accounting, and ENT_LEN = 15 where B = 16. -/
theorem witness_encFailures :
    acct .std 13 0 = none ∧ acct .std 12 0 = some (16, 4) ∧ (entropyState [] 15).entLen.toNat ≠ 16 := by decide

/-- EncIndicesBelow2048, EncDecRoundTrip: an ENC that completes with NONE, whatever the hash function. -/
theorem witness_encDecRoundTrip :
    ∃ t, exec (.enc .rlx 1 0) (entropyState [0xFF] 1) = .next t ∧ t.status.err = 0 :=
  ⟨_, rfl, by decide⟩

/-- StandardTableFidelity: the two lengths, and a third. -/
theorem witness_standardTableFidelity :
    (entropyState [] 16).entLen = 16 ∧ (entropyState [] 32).entLen = 32 ∧ (entropyState [] 15).entLen ≠ 16 ∧
      (entropyState [] 15).entLen ≠ 32 := by decide

/-- PackStreamIsGrouping: the largest packing, one without a checksum, one with a whole digest. -/
theorem witness_packStreamIsGrouping :
    8 * (List.replicate 32 (0 : Byte)).length + 250 = 11 * 46 ∧ 8 * (List.replicate 11 (0 : Byte)).length + 0 = 11 * 8 ∧
      8 * ([0] : List Byte).length + 256 = 11 * 24 := by decide

/-- UnpackStreamIsSplit: the largest and one without a checksum. -/
theorem witness_unpackStreamIsSplit :
    8 * 32 + 250 = 11 * (List.replicate 46 (0 : Half)).length ∧ 8 * 11 + 0 = 11 * (List.replicate 8 (0 : Half)).length := by decide

/-- DecUnpacksIndices: every entry in range, at its largest value, with an entry out of range just after the last one read. -/
theorem witness_decUnpacksIndices :
    acct .rlx 1 0 = some (1, 3) ∧ (∀ k (_ : k < 46), k < 1 → ((indexState [2047, 2048]).idx[k]).toNat < 2048) ∧
      acct .exp 46 250 = some (32, 250) ∧ (∀ k (_ : k < 46), k < 46 → ((indexState []).idx[k]).toNat < 2048) := by decide

/-- An index that decodes to the byte 0 with the first three bits of its digest as its checksum, whatever the hash function. -/
def matchingState : State :=
  indexState [BitVec.ofNat 16 (bitVal (packedBits [0] (Config.hash256 [0]) 3))]

theorem matching_indexBits : indexBits (idxPrefix matchingState 1) = packedBits [0] (Config.hash256 [0]) 3 := by
  have hl : (packedBits [0] (Config.hash256 [0]) 3).length = 11 := length_packedBits (by omega)
  have hp : idxPrefix matchingState 1 = [BitVec.ofNat 16 (bitVal (packedBits [0] (Config.hash256 [0]) 3))] :=
    idxPrefix_writeIdx [_] State.reset (by simp)
  rw [hp, indexBits_cons, indexBits_nil, List.append_nil, bits11_ofNat_bitVal hl]

theorem matching_in_range : anyInvalidIndex matchingState 1 = false := by
  have hp : idxPrefix matchingState 1 = [BitVec.ofNat 16 (bitVal (packedBits [0] (Config.hash256 [0]) 3))] :=
    idxPrefix_writeIdx [_] State.reset (by simp)
  have hl : (packedBits [0] (Config.hash256 [0]) 3).length = 11 := length_packedBits (by omega)
  have hv := bitVal_lt (packedBits [0] (Config.hash256 [0]) 3)
  rw [hl] at hv
  simp only [anyInvalidIndex, hp, List.any_cons, List.any_nil, Bool.or_false]
  rw [invalidIndex_eq_false_iff, BitVec.toNat_ofNat]
  omega

/-- ChecksumSensitivity, and the first clause of DecValidatesChecksum's cases: a DEC of three checksum bits that completes with NONE. -/
theorem witness_checksumSensitivity :
    acct .rlx 1 0 = some (1, 3) ∧ (∃ t, exec (.dec .rlx 1 0) matchingState = .next t ∧ t.status.err = 0) ∧ 2 < 3 := by
  refine ⟨by decide, ⟨_, rfl, ?_⟩, by decide⟩
  rw [decState_of_valid (b := 1) (c := 3) (by decide) matching_in_range, unpackIndices_status]
  have hx : leadingBytes (packedBits [0] (Config.hash256 [0]) 3) 1 = [0] := leadingBytes_bitsOf_append [0] _
  have hc : checksumBits (packedBits [0] (Config.hash256 [0]) 3) 1 3 = (bitsOf (Config.hash256 [0]).toList).take 3 :=
    checksumBits_packedBits [0] _ 3
  have hp : idxPrefix (matchingState.setResult 1 1 3) 1 = idxPrefix matchingState 1 := rfl
  simp only [decodedBytes, hp, matching_indexBits, hx, hc, decide_true, if_true, ErrCode.code]

/-- DecValidatesChecksum, both clauses: with C = 0 every bit agrees; and for any digest one of two indices disagrees in the first bit. -/
theorem witness_decValidatesChecksum :
    acct .rlx 8 0 = some (11, 0) ∧ (∀ k (_ : k < 46), k < 8 → ((indexState [2047]).idx[k]).toNat < 2048) ∧
    acct .rlx 1 0 = some (1, 3) ∧
    (∀ d : Digest, indexBit (indexState [0]).idx 8 ≠ ((d[0]?).getD 0).getLsbD 7 ∨
      indexBit (indexState [4]).idx 8 ≠ ((d[0]?).getD 0).getLsbD 7) := by
  refine ⟨by decide, by decide, by decide, fun d => ?_⟩
  have h0 : indexBit (indexState [0]).idx 8 = false := by decide
  have h4 : indexBit (indexState [4]).idx 8 = true := by decide
  rw [h0, h4]
  cases ((d[0]?).getD 0).getLsbD 7 <;> simp

/-- DecAccountingFailure. -/
theorem witness_decAccountingFailure : acct .rlx 24 0 = none ∧ 24 ≤ 255 := by decide

/-- DecInvalidIndex: the last entry read is 2048, and the first entry not read is 2048. -/
theorem witness_decInvalidIndex :
    acct .rlx 2 0 = some (2, 6) ∧ (1 < 46 ∧ 1 < 2 ∧ ((indexState [0, 2048]).idx[1]).extractLsb' 11 5 ≠ 0) ∧
      (∀ k (_ : k < 46), k < 2 → ((indexState [0, 2047, 2048]).idx[k]).extractLsb' 11 5 = 0) := by decide

/-- IllegalCommandCompletes: the reset value of CMDL is an illegal word. -/
theorem witness_illegalCommandCompletes : decode State.reset.cmdl = .error .opcode := by decide

/-- ErrorPriority: a state for each clause. -/
theorem witness_errorPriority :
    decode State.reset.cmdl = .error .opcode ∧
    decode (State.reset.latchCommand 0x00000D03).cmdl = .ok (.dec .std 13 0) ∧ acct .std 13 0 = none ∧
    decode (State.reset.latchCommand 0x00000C01).cmdl = .ok (.acct .std 12 0) ∧ acct .std 12 0 = some (16, 4) ∧
    decode (State.reset.latchCommand 0x00000C02).cmdl = .ok (.enc .std 12 0) ∧
    decode (State.reset.latchCommand 0x00000113).cmdl = .ok (.dec .rlx 1 0) ∧ acct .rlx 1 0 = some (1, 3) ∧
    (0 < 46 ∧ 0 < 1 ∧ 2048 ≤ ((indexState [2048]).idx[0]).toNat) ∧
    (∀ k (_ : k < 46), k < 1 → ((indexState [2047]).idx[k]).toNat < 2048) ∧
    decode (State.reset.latchCommand 0x00000004).cmdl = .ok .clr := by decide

/-- CommandAcceptance, MixedWidthViews, ReadsHaveNoSideEffect, RegisterWords: idle. -/
theorem witness_idle : State.reset.status.busy = false ∧ (4 * 7 + 3 < 32 ∧ 45 < 46 ∧ 2 * 22 + 1 < 46) := by decide

/-- MixedWidthViews, its clauses on every width: the first and the last lane of ENT, DIGEST, IDX, of the registers and of the offsets that read
0, in aligned reads. -/
theorem witness_mixedWidthViews :
    (0x20 % Width.bytes .word = 0 ∧ 0x20 + 0 = 0x20 + 0 ∧ 0x3E % Width.bytes .half = 0 ∧ 0x3E + 1 = 0x20 + 31 ∧ 1 < Width.bytes .half) ∧
      (0x40 % Width.bytes .half = 0 ∧ 0x40 + 0 = 0x40 + 0 ∧ 0x5C % Width.bytes .word = 0 ∧ 0x5C + 3 = 0x40 + 31 ∧ 3 < Width.bytes .word) ∧
      (0x60 % Width.bytes .byte = 0 ∧ 0x60 + 0 = 0x60 + 2 * 0 + 0 ∧ 0xB8 % Width.bytes .word = 0 ∧ 0xB8 + 3 = 0x60 + 2 * 45 + 1) ∧
      (0x03 % Width.bytes .byte = 0 ∧ 0x03 + 0 = 0x00 + 3 ∧ 0x0E % Width.bytes .half = 0 ∧ 0x0E + 1 = 0x0C + 3 ∧
        0x12 % Width.bytes .half = 0 ∧ 0x12 + 1 = 0x10 + 3 ∧ 0x06 % Width.bytes .half = 0 ∧ 0x06 + 0 = 0x04 + 2) ∧
      (8 % Width.bytes .word = 0 ∧ 11 % Width.bytes .byte = 0 ∧ 0x14 % Width.bytes .word = 0 ∧ 0x1E % Width.bytes .half = 0 ∧
        0xBC % Width.bytes .word = 0 ∧ 0xFF % Width.bytes .byte = 0) := by decide

/-- InputWrites, HostEventFrame, ValidChangesOnly, BusyViolIsSticky: the first and the last byte of each input, idle and busy. -/
theorem witness_inputWrites :
    State.reset.status.busy = false ∧ (State.reset.latchCommand 4).status.busy = true ∧
      writeKind 0x0C .byte = .input ∧ writeKind 0x0C .word = .input ∧ writeKind 0x20 .word = .input ∧ writeKind 0x3F .byte = .input ∧
      writeKind 0x60 .byte = .input ∧ writeKind 0xBA .half = .input ∧ writeKind 0xB8 .word = .input ∧ writeKind 0x08 .word = .command ∧
      (0x3F % Width.bytes .byte = 0 ∧ 0xBA % Width.bytes .half = 0 ∧ 0xB8 % Width.bytes .word = 0) := by decide

/-- BusErrors: a misaligned access of each width above a byte, a narrow CMD write at both ends, and an access that is no error. -/
theorem witness_busErrors :
    0x21 % Width.bytes .half ≠ 0 ∧ 0x22 % Width.bytes .word ≠ 0 ∧ (8 ≤ 8 ∧ 8 < 12 ∧ Width.half ≠ .word) ∧
      (8 ≤ 11 ∧ 11 < 12 ∧ Width.byte ≠ .word) ∧
      ¬(8 % Width.bytes .word ≠ 0 ∨ (8 ≤ 8 ∧ 8 < 12 ∧ Width.word ≠ .word)) := by decide

/-- IgnoredWrites: both ends of each range, as writes that are ignored. -/
theorem witness_ignoredWrites :
    writeKind 0x00 .word = .ignored ∧ writeKind 0x07 .byte = .ignored ∧ writeKind 0x0D .byte = .ignored ∧ writeKind 0x0E .half = .ignored ∧
      writeKind 0x1F .byte = .ignored ∧ writeKind 0x40 .word = .ignored ∧ writeKind 0x5F .byte = .ignored ∧
      writeKind 0xBC .word = .ignored ∧ writeKind 0xFF .byte = .ignored := by decide

/-- BusyReads: a busy state, and both ends of each range of offsets. -/
theorem witness_busyReads :
    (State.reset.latchCommand 4).status.busy = true ∧ readReply (State.reset.latchCommand 4) 0x04 .word = ⟨false, 1⟩ ∧
      readReply (State.reset.latchCommand 4) 0x0B .byte = ⟨false, 0⟩ ∧ readReply (State.reset.latchCommand 4) 0x1C .word = ⟨false, 0⟩ ∧
      (regionOf 0x0C).volatile = true ∧ (regionOf 0x13).volatile = true ∧ (regionOf 0x20).volatile = true ∧
      (regionOf 0xBB).volatile = true ∧ (regionOf 0xBC).volatile = false := by decide

/-- WindowAddressDecode: the last byte of the window, wherever the window stands. -/
theorem witness_windowAddressDecode : ∃ off, windowOffset (Config.b39pBase + 255) = some off := by
  simp [windowOffset]

/-- ResetPulse: a reset while idle, while a command is in flight, and while a hash request is in flight that is never answered. -/
theorem witness_resetPulse :
    let idle := { State.reset with script := [.rst] }
    let busy := { State.reset.latchCommand 0x00000C02 with script := [.rst], delay := 1 }
    let waiting := { (entropyState [7] 1).latchCommand 0x00000112 with script := [.rst], hashPort := .silent }
    (ErrLegal idle ∧ idle.script = .rst :: [] ∧ sequencerTurn idle = false) ∧
      (ErrLegal busy ∧ busy.script = .rst :: [] ∧ busy.status.busy = true ∧ sequencerTurn busy = false) ∧
      (ErrLegal waiting ∧ waiting.script = .rst :: [] ∧ waiting.status.busy = true ∧ waiting.delay = 0 ∧ sequencerTurn waiting = false) := by
  decide

/-- StepRunsDecodedCommand, CompletionIsEventual: ENC in flight, its delay over. -/
theorem witness_stepRunsDecodedCommand :
    let s := State.reset.inFlight 0x00000C02
    ErrLegal s ∧ s.status.busy = true ∧ (s.script = [] ∨ s.delay = 0) ∧ s.hashPort = .answering ∧
      decode s.cmdl = .ok (.enc .std 12 0) :=
  ⟨by decide, rfl, .inl rfl, rfl, by decide⟩

/-- StepRunsWithoutHash: an illegal word, ACCT, CLR, an ENC that fails its accounting or its length check, and a DEC that fails its accounting
or its index check, in flight on a platform whose hash unit never answers. -/
theorem witness_stepRunsWithoutHash :
    let s (w : Word) := { (indexState [2048]).inFlight w with hashPort := .silent }
    (ErrLegal (s 0) ∧ (s 0).status.busy = true ∧ (s 0).script = []) ∧
      (decode (s 0).cmdl = .error .opcode ∧ needsHash (s 0) = false) ∧
      (decode (s 0x00000C01).cmdl = .ok (.acct .std 12 0) ∧ needsHash (s 0x00000C01) = false) ∧
      (decode (s 4).cmdl = .ok .clr ∧ needsHash (s 4) = false) ∧
      (decode (s 0x00000D02).cmdl = .ok (.enc .std 13 0) ∧ acct .std 13 0 = none ∧ needsHash (s 0x00000D02) = false) ∧
      (decode (s 0x00000C02).cmdl = .ok (.enc .std 12 0) ∧ (s 0).entLen.toNat ≠ 16 ∧ needsHash (s 0x00000C02) = false) ∧
      (decode (s 0x00000D03).cmdl = .ok (.dec .std 13 0) ∧ needsHash (s 0x00000D03) = false) ∧
      (decode (s 0x00000113).cmdl = .ok (.dec .rlx 1 0) ∧ 2048 ≤ ((s 0).idx[0]).toNat ∧ needsHash (s 0x00000113) = false) := by
  decide

/-- StepTakesHostEvent: idle without an event, busy with one more transaction to land, and busy with a hash unit that never answers. -/
theorem witness_stepTakesHostEvent :
    let waiting := { (entropyState [7] 1).latchCommand 0x00000112 with script := [.wait], hashPort := .silent }
    (ErrLegal State.reset ∧ State.reset.script = [] ∧ sequencerTurn State.reset = false) ∧
      (sequencerTurn { State.reset.latchCommand 4 with script := [.wait], delay := 1 } = false) ∧
      (ErrLegal waiting ∧ waiting.script = .wait :: [] ∧ waiting.delay = 0 ∧ needsHash waiting = true ∧ sequencerTurn waiting = false) := by
  decide

/-- BusyChangesOnly: a step that sets BUSY and two that clear it, a completion and a reset. -/
theorem witness_busyChangesOnly :
    (∃ t, step { State.reset with script := [.write 0x08 .word 4] } = .next t ∧ t.status.busy = true) ∧
      (∃ t, step (State.reset.inFlight 4) = .next t ∧ t.status.busy = false) ∧
      (∃ t, step { State.reset.latchCommand 4 with script := [.rst], delay := 1 } = .next t ∧ t.status.busy = false) :=
  ⟨⟨_, rfl, by decide⟩, ⟨_, rfl, by decide⟩, ⟨_, rfl, by decide⟩⟩

/-- DoneChangesOnly: idle, and an event that is no acceptance. -/
theorem witness_doneChangesOnly :
    State.reset.status.busy = false ∧ HostEvent.wait ≠ .rst ∧ ¬∃ v, HostEvent.wait = .write 0x08 .word v :=
  ⟨rfl, by decide, by rintro ⟨v, h⟩; cases h⟩

/-- ValidChangesOnly, BusyViolIsSticky, the clauses for what leaves the bit alone: a bus error and a write to a reserved lane. -/
theorem witness_unchangedBits :
    0x21 % Width.bytes .half ≠ 0 ∧ (0x0D : BitVec 8) ≠ 0x0C ∧ ¬(0x20 ≤ 0x0D ∧ 0x0D < 0x40) ∧ ¬(0x60 ≤ 0x0D ∧ 0x0D < 0xBC) := by decide

/-- StepKeepsControlInv, NoErrorIsFatal: an error shown while idle, and a reserved code. -/
theorem witness_stepKeepsControlInv :
    let s := { State.reset with status := ⟨false, true, false, true, 4⟩, script := [.rst] }
    ControlInv s ∧ (∃ t, step s = .next t) ∧ ¬ErrLegal { State.reset with status := ⟨false, true, false, false, 5⟩ } :=
  ⟨⟨by decide, fun h => (by cases h), .inl ⟨rfl, rfl⟩⟩, ⟨_, rfl⟩, by decide⟩

/-- StepKeepsValidPair: a state with VALID = 1 that meets the invariant, from which a step is taken. -/
theorem witness_stepKeepsValidPair :
    ∃ s t, s.status.valid = true ∧ ValidInv s ∧ step s = .next t := by
  let s := { matchingState with entLen := 1, digest := Config.hash256 [0], status := ⟨false, true, true, false, 0⟩ }
  have hp : idxPrefix s 1 = idxPrefix matchingState 1 := rfl
  have he : entPrefix s 1 = [0] := by decide
  refine ⟨s, _, rfl, fun _ => ⟨by decide, by decide, 1, 3, by decide, by decide, rfl, ?_, matching_in_range, ?_⟩, rfl⟩
  · show s.digest = Config.hash256 (entPrefix s 1)
    rw [he]
  · show indexBits (idxPrefix s 1) = packedBits (entPrefix s 1) s.digest 3
    rw [he, hp, matching_indexBits]

/-- ResultFixedAtAcceptance: a command in flight with a dropped write and a read before it. -/
theorem witness_resultFixedAtAcceptance :
    let s := { State.reset.latchCommand 0x00000C02 with script := [.write 0x0C .word 15, .read 0x76 .half] }
    s.status.busy = true ∧ ∀ ev ∈ s.script, ev ≠ .rst := by decide

/-- WaitTerminates: `wait` with an ENC in flight. -/
theorem witness_waitTerminates :
    let s := { State.reset.latchCommand 0x00000C02 with script := [.wait], delay := 2 }
    ErrLegal s ∧ s.hashPort = .answering ∧ s.script = [.wait] :=
  ⟨by decide, rfl, rfl⟩

/-- RunCommandCompletes: `run clr` from reset. -/
theorem witness_runCommandCompletes :
    let s := { State.reset with script := runCommand 0x00000004 }
    ErrLegal s ∧ s.status.busy = false ∧ s.hashPort = .answering ∧ s.script = runCommand 0x00000004 :=
  ⟨by decide, rfl, rfl, rfl⟩

/-- HashPortCalls: ENC and DEC that pass their checks. -/
theorem witness_hashPortCalls :
    decode ((entropyState [] 1).latchCommand 0x00000112).cmdl = .ok (.enc .rlx 1 0) ∧ acct .rlx 1 0 = some (1, 3) ∧
      ((entropyState [] 1).latchCommand 0x00000112).entLen.toNat = 1 ∧
      decode (State.reset.latchCommand 0x00000113).cmdl = .ok (.dec .rlx 1 0) ∧
      anyInvalidIndex (State.reset.latchCommand 0x00000113) 1 = false := by decide

/-- SilentHashUnitStaysBusy: an ENC that needs the hash, and three steps of it. -/
theorem witness_silentHashUnitStaysBusy :
    let s := { (entropyState [7] 1).latchCommand 0x00000112 with hashPort := .silent, script := [.read 0x04 .word] }
    s.status.busy = true ∧ s.hashPort = .silent ∧ acct .rlx 1 0 = some (1, 3) ∧ decode s.cmdl = .ok (.enc .rlx 1 0) ∧
      s.entLen.toNat = 1 ∧ (∀ ev ∈ s.script, ev ≠ .rst) ∧ ∃ t, core.run 3 s = .next t := by
  refine ⟨rfl, rfl, by decide, by decide, by decide, by decide, ?_⟩
  exact ⟨_, rfl⟩

end Sys2Proof.Tests
end

section
/-! PROOFS. Everything a completion step and a step can do, as one inversion lemma each and one induction principle. -/

namespace Sys2Proof.Proofs

open Sys2Proof.Machine

/-- The outcomes of the completion step (10_state.md R40): one constructor per command and result of its checks. -/
inductive Completes (s : State) : State → Prop
  | illegal {e : Illegal} (hd : decode s.cmdl = .error e) : Completes s (s.finish .illegalCommand)
  | clr (hd : decode s.cmdl = .ok .clr) : Completes s (s.clearBuffers.finish .none)
  | acctNone {mode : Mode} {n ct : Nat} (hd : decode s.cmdl = .ok (.acct mode n ct)) (ha : acct mode n ct = none) :
      Completes s ((s.setResult n 0 0).finish .invalidWordCount)
  | acctSome {mode : Mode} {n ct b c : Nat} (hd : decode s.cmdl = .ok (.acct mode n ct)) (ha : acct mode n ct = some (b, c)) :
      Completes s ((s.setResult n b c).finish .none)
  | encNone {mode : Mode} {n ct : Nat} (hd : decode s.cmdl = .ok (.enc mode n ct)) (ha : acct mode n ct = none) :
      Completes s (((s.setResult n 0 0).setValid false).finish .invalidWordCount)
  | encLength {mode : Mode} {n ct b c : Nat} (hd : decode s.cmdl = .ok (.enc mode n ct)) (ha : acct mode n ct = some (b, c))
      (hl : s.entLen.toNat ≠ b) : Completes s (((s.setResult n b c).setValid false).finish .invalidWordCount)
  | encPack {mode : Mode} {n ct b c : Nat} (hd : decode s.cmdl = .ok (.enc mode n ct)) (ha : acct mode n ct = some (b, c))
      (hl : s.entLen.toNat = b) : Completes s (packEntropy Config.hash256 n b c (s.setResult n b c))
  | decNone {mode : Mode} {n ct : Nat} (hd : decode s.cmdl = .ok (.dec mode n ct)) (ha : acct mode n ct = none) :
      Completes s (((s.setResult n 0 0).setValid false).finish .invalidWordCount)
  | decIndex {mode : Mode} {n ct b c : Nat} (hd : decode s.cmdl = .ok (.dec mode n ct)) (ha : acct mode n ct = some (b, c))
      (hi : anyInvalidIndex s n = true) : Completes s (((s.setResult n b c).setValid false).finish .invalidIndex)
  | decUnpack {mode : Mode} {n ct b c : Nat} (hd : decode s.cmdl = .ok (.dec mode n ct)) (ha : acct mode n ct = some (b, c))
      (hi : anyInvalidIndex s n = false) : Completes s (unpackIndices Config.hash256 n b c (s.setResult n b c))

/-- Each outcome is the one the completion step answers where its conditions hold. -/
theorem complete_of_completes {s t : State} (h : Completes s t) : complete s = .next t := by
  cases h with
  | illegal hd => exact complete_of_error hd
  | clr hd => exact complete_of_ok hd
  | acctNone hd ha => exact (complete_of_ok hd).trans (congrArg Host.Outcome.next (acctState_of_none ha))
  | acctSome hd ha => exact (complete_of_ok hd).trans (congrArg Host.Outcome.next (acctState_of_some ha))
  | encNone hd ha => exact (complete_of_ok hd).trans (congrArg Host.Outcome.next (encState_of_none ha))
  | encLength hd ha hl => exact (complete_of_ok hd).trans (congrArg Host.Outcome.next (encState_of_mismatch ha hl))
  | encPack hd ha hl => exact (complete_of_ok hd).trans (congrArg Host.Outcome.next (encState_of_match ha hl))
  | decNone hd ha => exact (complete_of_ok hd).trans (congrArg Host.Outcome.next (decState_of_none ha))
  | decIndex hd ha hi => exact (complete_of_ok hd).trans (congrArg Host.Outcome.next (decState_of_invalid ha hi))
  | decUnpack hd ha hi => exact (complete_of_ok hd).trans (congrArg Host.Outcome.next (decState_of_valid ha hi))

/-- The conditions of the outcomes leave no state out. -/
theorem exists_completes (s : State) : ∃ t, Completes s t := by
  cases hd : decode s.cmdl with
  | error e => exact ⟨_, .illegal hd⟩
  | ok i =>
    cases i with
    | clr => exact ⟨_, .clr hd⟩
    | acct mode n ct =>
      cases ha : acct mode n ct with
      | none => exact ⟨_, .acctNone hd ha⟩
      | some p => exact ⟨_, .acctSome hd ha⟩
    | enc mode n ct =>
      cases ha : acct mode n ct with
      | none => exact ⟨_, .encNone hd ha⟩
      | some p =>
        by_cases hl : s.entLen.toNat = p.1
        · exact ⟨_, .encPack hd ha hl⟩
        · exact ⟨_, .encLength hd ha hl⟩
    | dec mode n ct =>
      cases ha : acct mode n ct with
      | none => exact ⟨_, .decNone hd ha⟩
      | some p =>
        cases hi : anyInvalidIndex s n with
        | true => exact ⟨_, .decIndex hd ha hi⟩
        | false => exact ⟨_, .decUnpack hd ha hi⟩

/-- What the completion step answers, as a relation. -/
theorem complete_eq_next_iff {s t : State} : complete s = .next t ↔ Completes s t := by
  refine ⟨fun h => ?_, complete_of_completes⟩
  obtain ⟨u, hu⟩ := exists_completes s
  have htu : Host.Outcome.next t = .next u := h.symm.trans (complete_of_completes hu)
  injection htu with htu
  exact htu ▸ hu

/-- The state in which the front event of the script takes place: the host's turn before its event (log 2). -/
def takeEvent (rest : List HostEvent) (s : State) : State := { s with script := rest, delay := s.delay - 1 }

@[simp] theorem takeEvent_status (rest : List HostEvent) (s : State) : (takeEvent rest s).status = s.status := rfl

theorem hostTurn_eq_hostEvent {s : State} {ev : HostEvent} {rest : List HostEvent} (h : s.script = ev :: rest) :
    hostTurn s = hostEvent ev (takeEvent rest s) := hostTurn_cons h

/-- Everything a step can have done: a completion of the command in flight, nothing where the script is empty, or one event of the script. -/
theorem step_next_cases {s t : State} (h : step s = .next t) :
    (s.status.busy = true ∧ Completes s t) ∨ t = s ∨
      ∃ ev rest, s.script = ev :: rest ∧ t = hostEvent ev (takeEvent rest s) := by
  obtain ⟨-, ⟨hturn, hc⟩ | ⟨-, rfl⟩⟩ := step_cases h
  · exact .inl ⟨sequencerTurn_busy hturn, complete_eq_next_iff.mp hc⟩
  · cases hscript : s.script with
    | nil => exact .inr (.inl (hostTurn_nil hscript))
    | cons ev rest => exact .inr (.inr ⟨ev, rest, rfl, hostTurn_eq_hostEvent hscript⟩)

/-- A property is kept by a step when the completion step keeps it, the taking of an event from the script keeps it, and every host event
keeps it. -/
theorem step_induction {P : State → Prop} {s t : State} (h : step s = .next t) (hs : P s) (hc : Completes s t → P t)
    (hq : ∀ rest, P (takeEvent rest s)) (he : ∀ u ev, P u → P (hostEvent ev u)) : P t := by
  rcases step_next_cases h with ⟨-, h⟩ | rfl | ⟨ev, rest, -, rfl⟩
  · exact hc h
  · exact hs
  · exact he _ ev (hq rest)

/-- A reset pulse gives the block its reset state (70_reset_and_hazards.md R230). -/
theorem sameBlock_applyReset (s : State) : SameBlock State.reset s.applyReset := ⟨⟨rfl, rfl, rfl, rfl⟩, rfl, rfl, rfl⟩

end Sys2Proof.Proofs
end

section
/-! PROOFS. The two invariants of the block: the control registers, and the pair that VALID vouches for. -/

namespace Sys2Proof.Proofs

open Sys2Proof.Machine

/-- An accepted accounting balances the bit budget (42_accounting.md R144). -/
theorem acct_balanced {mode : Mode} {n ct b c : Nat} (h : acct mode n ct = some (b, c)) :
    11 * n = 8 * b + c ∧ 1 ≤ b ∧ b ≤ 32 ∧ c ≤ 256 := by
  unfold acct at h
  split at h
  · cases h
  cases mode with
  | std => have := stdTable_some h; omega
  | rlx => have := relaxedSplit_some.mp h; omega
  | exp => have := explicitSplit_some.mp h; omega

/-! ### The control registers -/

theorem resultBalanced_echo {s t : State} {n : Nat} (h : t.result = (s.setResult n 0 0).result) : ResultBalanced t :=
  .inl (h ▸ ⟨rfl, rfl⟩)

theorem resultBalanced_of_acct {s t : State} {mode : Mode} {n ct b c : Nat} (ha : acct mode n ct = some (b, c))
    (h : t.result = (s.setResult n b c).result) : ResultBalanced t := by
  obtain ⟨hbal, hb1, hb, hc⟩ := acct_balanced ha
  have hn : t.result.n.toNat = n := by simp [h]; omega
  have hb' : t.result.b.toNat = b := by simp [h]; omega
  have hc' : t.result.c.toNat = c := by simp [h]; omega
  exact .inr (by rw [hn, hb', hc']; exact ⟨hbal, hb1, hb, hc⟩)

theorem resultBalanced_congr {s t : State} (h : t.result = s.result) (hs : ResultBalanced s) : ResultBalanced t := by
  simpa only [ResultBalanced, h] using hs

theorem completes_resultBalanced {s t : State} (h : Completes s t) (hs : ResultBalanced s) : ResultBalanced t := by
  cases h with
  | illegal => exact hs
  | clr => exact .inl ⟨rfl, rfl⟩
  | acctNone | encNone | decNone => exact resultBalanced_echo (s := s) rfl
  | acctSome _ ha | encLength _ ha | encPack _ ha | decIndex _ ha | decUnpack _ ha =>
    exact resultBalanced_of_acct (s := s) ha rfl

theorem completes_controlInv {s t : State} (h : Completes s t) (hs : ControlInv s) : ControlInv t := by
  obtain ⟨-, -, hbusy, -, -, herr⟩ := complete_frame (complete_of_completes h)
  exact ⟨herr, by simp [BusyClear, hbusy], completes_resultBalanced h hs.2.2⟩

/-- The invariant reads BUSY, DONE, ERR and RESULT only. -/
theorem controlInv_congr {s t : State} (hbusy : t.status.busy = s.status.busy) (hdone : t.status.done = s.status.done)
    (herr : t.status.err = s.status.err) (hresult : t.result = s.result) (hs : ControlInv s) : ControlInv t := by
  obtain ⟨h1, h2, h3⟩ := hs
  exact ⟨by rwa [ErrLegal, herr], by rwa [BusyClear, hbusy, hdone, herr], resultBalanced_congr hresult h3⟩

theorem controlInv_of_reset {s : State} (h : SameBlock State.reset s) : ControlInv s := by
  obtain ⟨-, hresult, hstatus, -⟩ := h
  exact ⟨by simp [ErrLegal, hstatus, State.reset], by simp [BusyClear, hstatus, State.reset],
    resultBalanced_echo (s := s) (n := 0) hresult⟩

theorem hostEvent_controlInv (s : State) (ev : HostEvent) (hs : ControlInv s) : ControlInv (hostEvent ev s) := by
  rcases hostEvent_cases ev s with ⟨-, h⟩ | ⟨v, -, -, h⟩ | ⟨off, n, v, -, -, -, h⟩ | ⟨off, n, v, -, -, -, h⟩ |
    ⟨-, -, ⟨-, hresult, hstatus, -⟩, -⟩
  · exact h ▸ controlInv_of_reset (sameBlock_applyReset s)
  · exact h ▸ ⟨by simp [ErrLegal], fun _ => ⟨rfl, rfl⟩, hs.2.2⟩
  · exact h ▸ controlInv_congr rfl rfl rfl rfl hs
  · exact h ▸ controlInv_congr rfl rfl rfl rfl hs
  · exact controlInv_congr (by rw [hstatus]) (by rw [hstatus]) (by rw [hstatus]) hresult hs

/-- Settles O51: the completion step and every host event keep the invariant. -/
theorem stepKeepsControlInv : Obligations.StepKeepsControlInv := fun _ _ hs h =>
  step_induction h hs (completes_controlInv · hs) (fun _ => hs) hostEvent_controlInv

/-! ### What VALID vouches for -/

theorem validInv_of_invalid {s : State} (h : s.status.valid = false) : ValidInv s := by simp [ValidInv, h]

/-- The invariant reads the buffers, ENT_LEN and VALID only. -/
theorem validInv_congr {s t : State} (hbuf : SameBuffers s t) (hvalid : t.status.valid = s.status.valid) (hs : ValidInv s) :
    ValidInv t := by
  obtain ⟨hent, hidx, hdigest, hlen⟩ := hbuf
  simpa only [ValidInv, GenuinePair, hvalid, hlen, hdigest, entPrefix_congr hent, idxPrefix_congr hidx,
    anyInvalidIndex_congr hidx] using hs

/-- A state whose buffers hold a pair under an accepted accounting meets the invariant. -/
theorem validInv_of_pair {t : State} {mode : Mode} {n ct b c : Nat} (ha : acct mode n ct = some (b, c)) (hl : t.entLen.toNat = b)
    (hd : t.digest = Config.hash256 (entPrefix t b)) (hi : anyInvalidIndex t n = false)
    (hp : indexBits (idxPrefix t n) = packedBits (entPrefix t b) t.digest c) : ValidInv t := by
  obtain ⟨hbal, hb1, hb, hc⟩ := acct_balanced ha
  subst hl
  exact fun _ => ⟨hb1, hb, n, c, by omega, hc, hbal, hd, hi, hp⟩

/-- The first n indices after ENC are the groups of the packed string (40_encode.md R104). -/
theorem idxPrefix_packEntropy (hash : List Byte → Digest) {n b c : Nat} (s : State) (hn : n ≤ 46) :
    idxPrefix (packEntropy hash n b c s) n = groupIndices (packedBits (entPrefix s b) (hash (entPrefix s b)) c) n := by
  have h := idxPrefix_writeIdx (groupIndices (packedBits (entPrefix s b) (hash (entPrefix s b)) c) n) s (by simpa using hn)
  rw [length_groupIndices] at h
  exact (idxPrefix_congr rfl n).trans h

theorem packEntropy_validInv {s : State} {mode : Mode} {n ct b c : Nat} (ha : acct mode n ct = some (b, c))
    (hl : s.entLen.toNat = b) : ValidInv (packEntropy Config.hash256 n b c s) := by
  obtain ⟨hbal, hb1, hb, hc⟩ := acct_balanced ha
  have hidx := idxPrefix_packEntropy Config.hash256 (n := n) (b := b) (c := c) s (by omega)
  refine validInv_of_pair ha hl rfl ?_ ?_
  · simp only [anyInvalidIndex, hidx, List.any_eq_false, Bool.not_eq_true, invalidIndex_eq_false_iff]
    exact fun v hv => groupIndices_lt hv
  · have hlen := length_packedBits (x := entPrefix s b) (d := Config.hash256 (entPrefix s b)) hc
    rw [length_entPrefix s hb, ← hbal] at hlen
    rw [hidx, indexBits_groupIndices hlen.ge, List.take_of_length_le hlen.le]
    rfl

/-- The indices DEC accepted are the decoded bytes followed by the checksum (41_decode.md R124). -/
theorem unpackIndices_validInv {s : State} {mode : Mode} {n ct b c : Nat} (ha : acct mode n ct = some (b, c))
    (hi : anyInvalidIndex s n = false) : ValidInv (unpackIndices Config.hash256 n b c s) := by
  obtain ⟨hbal, hb1, hb, hc⟩ := acct_balanced ha
  by_cases hok : checksumBits (indexBits (idxPrefix s n)) b c = (bitsOf (Config.hash256 (decodedBytes n b s)).toList).take c
  · have hent := entPrefix_unpackIndices Config.hash256 (n := n) (c := c) s hb
    refine validInv_of_pair ha ?_ ?_ hi ?_
    · simp; omega
    · rw [hent]; rfl
    · have hsplit := leadingBytes_checksumBits (bits := indexBits (idxPrefix s n)) (b := b) (c := c)
        (by rw [length_indexBits, length_idxPrefix s (by omega), hbal])
      rw [hent, unpackIndices_digest, packedBits, ← hok, hsplit]
      rfl
  · exact validInv_of_invalid (decide_eq_false hok)

theorem completes_validInv {s t : State} (h : Completes s t) (hs : ValidInv s) : ValidInv t := by
  cases h with
  | illegal | acctNone | acctSome => exact hs
  | clr | encNone | encLength | decNone | decIndex => exact validInv_of_invalid rfl
  | encPack _ ha hl => exact packEntropy_validInv ha hl
  | decUnpack _ ha hi => exact unpackIndices_validInv ha hi

theorem hostEvent_validInv (s : State) (ev : HostEvent) (hs : ValidInv s) : ValidInv (hostEvent ev s) := by
  rcases hostEvent_cases ev s with ⟨-, h⟩ | ⟨v, -, -, h⟩ | ⟨off, n, v, -, -, -, h⟩ | ⟨off, n, v, -, -, -, h⟩ |
    ⟨-, -, ⟨hbuf, -, hstatus, -⟩, -⟩
  · exact h ▸ validInv_of_invalid rfl
  · exact h ▸ hs
  · exact h ▸ validInv_of_invalid rfl
  · exact h ▸ hs
  · exact validInv_congr hbuf (by rw [hstatus]) hs

/-- Settles O52: ENC and DEC set VALID over a genuine pair only, and whatever else touches the pair clears VALID. -/
theorem stepKeepsValidPair : Obligations.StepKeepsValidPair := fun _ _ hs h =>
  step_induction h hs (completes_validInv · hs) (fun _ => hs) hostEvent_validInv

/-- Settles O50: VALID is 0 after reset, and RESULT is the echo of no words. -/
theorem resetMeetsInvariants : Obligations.ResetMeetsInvariants :=
  ⟨controlInv_of_reset (sameBlock_refl _), validInv_of_invalid rfl⟩

end Sys2Proof.Proofs
end

section
/-! PROOFS. The register words and the reset values (10_state.md R21, R22, R29, R30, R42). -/

namespace Sys2Proof.Proofs

open Sys2Proof.Machine

/-! ### The fields of the register words -/

theorem statusWord_done (st : Status) : (statusWord st).getLsbD 1 = st.done := by simp [statusWord]

theorem statusWord_valid (st : Status) : (statusWord st).getLsbD 2 = st.valid := by simp [statusWord]

theorem statusWord_busyViol (st : Status) : (statusWord st).getLsbD 3 = st.busyViol := by simp [statusWord]

theorem statusWord_err (st : Status) : (statusWord st).extractLsb' 4 4 = st.err := by
  ext i hi
  interval_cases i <;> simp [statusWord]

theorem statusWord_upper (st : Status) : (statusWord st).extractLsb' 8 24 = 0 := by
  ext i hi
  have herr : st.err.getLsbD (8 + i - 4) = false := BitVec.getLsbD_of_ge _ _ (by omega)
  have hvalid : 8 + i - 2 ≠ 0 := by omega
  have hviol : 8 + i - 3 ≠ 0 := by omega
  simp [statusWord, herr, hvalid, hviol]

theorem resultWord_n (r : AcctResult) : (resultWord r).extractLsb' 0 8 = r.n := by
  ext i hi
  interval_cases i <;> simp [resultWord]

theorem resultWord_b (r : AcctResult) : (resultWord r).extractLsb' 8 6 = r.b := by
  ext i hi
  interval_cases i <;> simp [resultWord]

theorem resultWord_gap (r : AcctResult) : (resultWord r).extractLsb' 14 2 = 0 := by
  ext i hi
  interval_cases i <;> simp [resultWord]

theorem resultWord_c (r : AcctResult) : (resultWord r).extractLsb' 16 9 = r.c := by
  ext i hi
  interval_cases i <;> simp [resultWord]

theorem resultWord_upper (r : AcctResult) : (resultWord r).extractLsb' 25 7 = 0 := by
  ext i hi
  interval_cases i <;> simp [resultWord]

/-! ### 4-byte reads -/

/-- A 4-byte read whose four lanes are a word's lanes reads that word (20_memory.md R51). -/
theorem readReply_word_of_lanes {s : State} {off : BitVec 8} {w : Word} (ha : off.toNat % 4 = 0)
    (h : ∀ j, j < 4 → readLane s off.toNat j = wordLane w j) : readReply s off .word = ⟨false, w⟩ := by
  rw [readReply, if_pos (aligned_iff.mpr ha), readData, h 0 (by omega), h 1 (by omega), h 2 (by omega), h 3 (by omega),
    wordOfBytes_wordLane]

/-- ID reads exactly, busy or not (10_state.md R21). -/
theorem readReply_id (s : State) : readReply s 0x00 .word = ⟨false, Config.idWord⟩ :=
  readReply_word_of_lanes rfl fun j hj => by
    interval_cases j <;> simp [readLane, windowByte, regionOf, Region.volatile]

theorem readReply_result {s : State} (hb : s.status.busy = false) : readReply s 0x10 .word = ⟨false, resultWord s.result⟩ :=
  readReply_word_of_lanes rfl fun j hj => by
    rw [readLane_of_idle hb]
    interval_cases j <;> rfl

theorem readReply_entLen {s : State} (hb : s.status.busy = false) : readReply s 0x0C .word = ⟨false, entLenWord s.entLen⟩ :=
  readReply_word_of_lanes rfl fun j hj => by
    rw [readLane_of_idle hb]
    interval_cases j <;> rfl

/-- Settles O39, field by field from the words that the four reads give. -/
theorem registerWords : Obligations.RegisterWords := fun s =>
  ⟨⟨_, readReply_status s, statusWord_busy _, statusWord_done _, statusWord_valid _, statusWord_busyViol _, statusWord_err _,
      statusWord_upper _⟩,
    readReply_id s,
    fun hb => ⟨_, readReply_result hb, resultWord_n _, resultWord_b _, resultWord_gap _, resultWord_c _, resultWord_upper _⟩,
    readReply_entLen⟩

/-! ### Reset values -/

theorem getD_replicate_zero {w : Nat} (m i : Nat) : ((Vector.replicate m (0 : BitVec w))[i]?).getD 0 = 0 := by
  rcases Nat.lt_or_ge i m with h | h <;> simp [h]

theorem wordLane_zero (j : Nat) : wordLane 0 j = 0 := by simp [wordLane]

/-- Only ID reads nonzero after reset (10_state.md R42). -/
theorem windowByte_reset {a : Nat} (ha : 4 ≤ a) : windowByte State.reset a = 0 := by
  have hhalf (h : Nat) : halfLane 0 h = 0 := by simp [halfLane]
  rcases regionOf_cases a with ⟨hid, -⟩ | ⟨-, hstatus⟩ | ⟨-, hcmd⟩ | ⟨-, hlen⟩ | ⟨-, hresult⟩ | ⟨-, hreserved⟩ | ⟨-, hent⟩ |
    ⟨-, hdigest⟩ | ⟨-, hidx⟩ | ⟨-, hreserved⟩
  · omega
  · rw [windowByte, hstatus]; exact wordLane_zero _
  · rw [windowByte, hcmd]
  · rw [windowByte, hlen]; exact wordLane_zero _
  · rw [windowByte, hresult]; exact wordLane_zero _
  · rw [windowByte, hreserved]
  · rw [windowByte, hent]; exact getD_replicate_zero 32 _
  · rw [windowByte, hdigest]; exact getD_replicate_zero 32 _
  · rw [windowByte, hidx]; exact (congrArg (halfLane · _) (getD_replicate_zero 46 _)).trans (hhalf _)
  · rw [windowByte, hreserved]

/-- Settles O41: the record's fields by definition, the window byte by byte. -/
theorem resetValues : Obligations.ResetValues :=
  ⟨fun _ hi => ⟨Vector.getElem_replicate hi, Vector.getElem_replicate hi⟩, fun _ hk => Vector.getElem_replicate hk, rfl, ⟨rfl, rfl, rfl⟩,
    rfl, rfl, readReply_id _, fun _ => windowByte_reset⟩

end Sys2Proof.Proofs
end

section
/-! PROOFS. The flags of STATUS: what sets, clears and keeps BUSY, DONE, VALID and BUSY_VIOL (10_state.md R23 to R26). -/

namespace Sys2Proof.Proofs

open Sys2Proof.Machine

/-! ### Host events by their effect -/

/-- A CMD write while idle is an acceptance (43_control.md R161). -/
theorem hostEvent_cmd_idle {s : State} (v : Word) (hb : s.status.busy = false) :
    hostEvent (.write 0x08 .word v) s = (s.accept v).respond ⟨false, 0⟩ := memWrite_accept v hb

/-- A CMD write or an input write while BUSY is dropped (20_memory.md R58). -/
theorem hostEvent_write_busy {s : State} {off : BitVec 8} {n : Width} (v : Word) (hb : s.status.busy = true)
    (h : (off = 0x08 ∧ n = .word) ∨ inputWrite off n) : hostEvent (.write off n v) s = s.dropWrite.respond ⟨false, 0⟩ := by
  rcases h with ⟨rfl, rfl⟩ | h
  · have hk : writeKind (BitVec.toNat (0x08 : BitVec 8)) .word = .command := writeKind_eq_command.mpr ⟨rfl, rfl⟩
    rw [hostEvent, memWrite_of_ok (by rw [hk]; simp), writeEffect, hk]
    simp [hb]
  · exact memWrite_drop v h hb

/-- An input write, its offset compared as a bit vector. -/
theorem inputWrite_iff {off : BitVec 8} {n : Width} : inputWrite off n ↔ off.toNat % n.bytes = 0 ∧
    (off = 0x0C ∨ (0x20 ≤ off.toNat ∧ off.toNat < 0x40) ∨ (0x60 ≤ off.toNat ∧ off.toNat < 0xBC)) := by
  rw [show off = 0x0C ↔ off.toNat = 12 from BitVec.toNat_eq]

/-! ### BUSY -/

/-- A host event that sets BUSY is an acceptance. -/
theorem hostEvent_sets_busy {s : State} {ev : HostEvent} (hb : s.status.busy = false) (h : (hostEvent ev s).status.busy = true) :
    ∃ v, ev = .write 0x08 .word v ∧ hostEvent ev s = (s.accept v).respond ⟨false, 0⟩ := by
  rcases hostEvent_cases ev s with ⟨-, he⟩ | ⟨v, hev, -, he⟩ | ⟨off, n, v, -, -, -, he⟩ | ⟨off, n, v, -, -, hb', -⟩ |
    ⟨-, -, ⟨-, -, hstatus, -⟩, -⟩
  · simp [he] at h
  · exact ⟨v, hev, he⟩
  · simp [he, hb] at h
  · simp [hb] at hb'
  · simp [hstatus, hb] at h

/-- A host event that clears BUSY is a reset. -/
theorem hostEvent_clears_busy {s : State} {ev : HostEvent} (hb : s.status.busy = true) (h : (hostEvent ev s).status.busy = false) :
    ev = .rst := by
  by_contra hev
  obtain ⟨-, -, -, -, -, -, -, -, -, viol, hstatus⟩ := hostEvent_busy_frame hb hev
  simp [hstatus, hb] at h

/-- Settles O46, by what a step can have done. -/
theorem busyChangesOnly : Obligations.BusyChangesOnly := by
  refine ⟨fun s v hb => by rw [hostEvent_cmd_idle v hb]; rfl, fun s => ?_, fun _ => rfl, fun s t h => ?_⟩
  · obtain ⟨t, hc, -, -, hbusy, -⟩ := complete_next s
    exact ⟨t, hc, hbusy⟩
  rcases step_next_cases h with ⟨hb, hc⟩ | rfl | ⟨ev, rest, hscript, rfl⟩
  · have hc := complete_of_completes hc
    obtain ⟨-, -, -, hdone, -⟩ := complete_frame hc
    exact ⟨fun hidle => by simp [hb] at hidle, fun _ _ => .inl ⟨hc, hdone⟩⟩
  · exact ⟨fun hidle hb => by simp [hb] at hidle, fun hb hidle => by simp [hb] at hidle⟩
  · refine ⟨fun hidle hb => ?_, fun hb hidle => .inr ?_⟩
    · obtain ⟨v, rfl, he⟩ := hostEvent_sets_busy (s := takeEvent rest s) hidle hb
      rw [he]
      exact ⟨v, rest, hscript, rfl, rfl, rfl⟩
    · obtain rfl := hostEvent_clears_busy (s := takeEvent rest s) hb hidle
      exact ⟨rest, hscript, sameBlock_applyReset _⟩

/-! ### DONE -/

/-- Only a reset and an acceptance change DONE (10_state.md R24). -/
theorem hostEvent_done {s : State} {ev : HostEvent} (hrst : ev ≠ .rst)
    (hcmd : (∃ v, ev = .write 0x08 .word v) → s.status.busy = true) : (hostEvent ev s).status.done = s.status.done := by
  rcases hostEvent_cases ev s with ⟨hev, -⟩ | ⟨v, hev, hb, -⟩ | ⟨off, n, v, -, -, -, he⟩ | ⟨off, n, v, -, -, -, he⟩ |
    ⟨-, -, ⟨-, -, hstatus, -⟩, -⟩
  · exact absurd hev hrst
  · exact absurd (hcmd ⟨v, hev⟩) (by simp [hb])
  · rw [he]; rfl
  · rw [he]; rfl
  · rw [hstatus]

/-- Settles O48, by the frame of the completion step and the cases of a host event. -/
theorem doneChangesOnly : Obligations.DoneChangesOnly := by
  refine ⟨fun s => ?_, fun s v hb => by rw [hostEvent_cmd_idle v hb]; rfl, fun _ => rfl, fun _ _ => hostEvent_done⟩
  obtain ⟨t, hc, -, -, -, hdone, -⟩ := complete_next s
  exact ⟨t, hc, hdone⟩

/-! ### VALID -/

/-- After an ENC or a DEC, VALID is set exactly with ERR = NONE (10_state.md R25). -/
theorem completes_valid_iff {s t : State} {mode : Mode} {n ct : Nat} (h : Completes s t)
    (hi : decode s.cmdl = .ok (.enc mode n ct) ∨ decode s.cmdl = .ok (.dec mode n ct)) :
    t.status.valid = true ↔ t.status.err = 0 := by
  cases h with
  | illegal hd | clr hd | acctNone hd | acctSome hd => simp [hd] at hi
  | encNone | encLength | decNone | decIndex => simp [ErrCode.code]
  | encPack => simp
  | decUnpack => simp only [unpackIndices_status]; split <;> simp_all [ErrCode.code]

theorem completes_clr_valid {s t : State} (h : Completes s t) (hi : decode s.cmdl = .ok .clr) : t.status.valid = false := by
  obtain rfl : s.clearBuffers.finish .none = t := by
    have := (complete_of_completes (.clr hi)).symm.trans (complete_of_completes h)
    injection this
  rfl

/-- ACCT and an illegal command leave VALID (10_state.md R25). -/
theorem completes_keeps_valid {s t : State} (h : Completes s t)
    (hi : (∃ mode n ct, decode s.cmdl = .ok (.acct mode n ct)) ∨ ∃ e, decode s.cmdl = .error e) :
    t.status.valid = s.status.valid := by
  cases h with
  | illegal | acctNone | acctSome => rfl
  | clr hd | encNone hd | encLength hd | encPack hd | decNone hd | decIndex hd | decUnpack hd => simp [hd] at hi

/-- Only a reset and a performed input write change VALID among the host's events (10_state.md R25). -/
theorem hostEvent_valid {s : State} {ev : HostEvent} (hrst : ev ≠ .rst)
    (hw : ∀ off n v, ev = .write off n v → s.status.busy = true ∨ ¬inputWrite off n) :
    (hostEvent ev s).status.valid = s.status.valid := by
  rcases hostEvent_cases ev s with ⟨hev, -⟩ | ⟨v, -, -, he⟩ | ⟨off, n, v, hev, hin, hb, -⟩ | ⟨off, n, v, -, -, -, he⟩ |
    ⟨-, -, ⟨-, -, hstatus, -⟩, -⟩
  · exact absurd hev hrst
  · rw [he]; rfl
  · rcases hw off n v hev with h | h
    · simp [hb] at h
    · exact absurd hin h
  · rw [he]; rfl
  · rw [hstatus]

/-- Settles O47, by the outcomes of the completion step and the cases of a host event. -/
theorem validChangesOnly : Obligations.ValidChangesOnly := by
  refine ⟨fun s => ?_, fun s off n v ha hb hoff => ?_, fun _ => rfl, fun s ev hrst hw => hostEvent_valid hrst fun off n v hev => ?_⟩
  · obtain ⟨t, hc⟩ := exists_completes s
    exact ⟨t, complete_of_completes hc, fun _ _ _ => completes_valid_iff hc, completes_clr_valid hc, completes_keeps_valid hc⟩
  · rw [hostEvent, memWrite_perform v (inputWrite_iff.mpr ⟨ha, hoff⟩) hb]
    rfl
  · rw [inputWrite_iff, not_and_or]
    exact hw off n v hev

/-! ### BUSY_VIOL -/

/-- Only a reset, an acceptance and a dropped write change BUSY_VIOL among the host's events (10_state.md R26). -/
theorem hostEvent_busyViol {s : State} {ev : HostEvent} (hrst : ev ≠ .rst)
    (hw : ∀ off n v, ev = .write off n v →
      ¬((off = 0x08 ∧ n = .word) ∨ inputWrite off n) ∨ (s.status.busy = false ∧ ¬(off = 0x08 ∧ n = .word))) :
    (hostEvent ev s).status.busyViol = s.status.busyViol := by
  rcases hostEvent_cases ev s with ⟨hev, -⟩ | ⟨v, hev, hb, -⟩ | ⟨off, n, v, -, -, -, he⟩ | ⟨off, n, v, hev, hin, hb, -⟩ |
    ⟨-, -, ⟨-, -, hstatus, -⟩, -⟩
  · exact absurd hev hrst
  · exact absurd (hw _ _ _ hev) (by simp)
  · rw [he]; rfl
  · rcases hw off n v hev with h | ⟨h, -⟩
    · exact absurd hin h
    · simp [hb] at h
  · rw [hstatus]

/-- The writes that BUSY_VIOL reports, as CMD writes and input writes: a 4-byte write to CMD is aligned. -/
theorem reportedWrite_iff {off : BitVec 8} {n : Width} :
    (off = 0x08 ∧ n = .word) ∨ inputWrite off n ↔ off.toNat % n.bytes = 0 ∧
      (off = 0x0C ∨ (off = 0x08 ∧ n = .word) ∨ (0x20 ≤ off.toNat ∧ off.toNat < 0x40) ∨ (0x60 ≤ off.toNat ∧ off.toNat < 0xBC)) := by
  have hcmd : off = 0x08 ∧ n = .word → off.toNat % n.bytes = 0 := by rintro ⟨rfl, rfl⟩; rfl
  rw [inputWrite_iff, or_left_comm (a := off = 0x0C) (b := off = 0x08 ∧ n = .word), and_or_left (b := off = 0x08 ∧ n = .word),
    and_iff_right_of_imp hcmd]

/-- Settles O49, by the frame of the completion step and the cases of a host event. -/
theorem busyViolIsSticky : Obligations.BusyViolIsSticky := by
  refine ⟨fun s off n v ha hb hoff => ?_, fun s v hb => by rw [hostEvent_cmd_idle v hb]; rfl, fun _ => rfl, fun s => ?_,
    fun s ev hrst hw => hostEvent_busyViol hrst fun off n v hev => ?_⟩
  · rw [hostEvent_write_busy v hb (reportedWrite_iff.mpr ⟨ha, hoff⟩)]
    rfl
  · obtain ⟨t, hc, -, -, -, -, hviol, -⟩ := complete_next s
    exact ⟨t, hc, hviol⟩
  · rw [reportedWrite_iff, not_and_or, or_assoc]
    exact hw off n v hev

end Sys2Proof.Proofs
end

section
/-! PROOFS. The step of a command in flight: which commands wait for the hash unit, and why the host cannot change a result (10_state.md R40). -/

namespace Sys2Proof.Proofs

open Sys2Proof.Machine

/-- Settles O43: the completion step is due, and is `exec` of the decoded command. -/
theorem stepRunsDecodedCommand : Obligations.StepRunsDecodedCommand := fun _ _ he hb hd hp hi =>
  (step_of_sequencerTurn he (sequencerTurn_of_ready hb hd hp)).trans (complete_of_ok hi)

/-! ### Commands that need no hash -/

/-- A completion calls the hash once or not at all (20_memory.md R70). -/
theorem completes_hashCalls {s t : State} (h : Completes s t) : t.hashCalls = s.hashCalls ∨ ∃ x, t.hashCalls = x :: s.hashCalls := by
  cases h with
  | encPack | decUnpack => exact .inr ⟨_, rfl⟩
  | _ => exact .inl rfl

theorem hashCalls_of_needsHash_false {s t : State} (h : complete s = .next t) (hn : needsHash s = false) : t.hashCalls = s.hashCalls := by
  rcases completes_hashCalls (complete_eq_next_iff.mp h) with ht | ⟨x, ht⟩
  · exact ht
  · simp [needsHash, h, ht] at hn

theorem needsHash_enc_false_iff {s : State} {mode : Mode} {n ct : Nat} (hd : decode s.cmdl = .ok (.enc mode n ct)) :
    needsHash s = false ↔ ∀ b c, acct mode n ct = some (b, c) → s.entLen.toNat ≠ b := by
  rw [← Bool.not_eq_true, needsHash_enc hd]
  simp only [not_exists, not_and, ne_eq]

theorem needsHash_dec_false_iff {s : State} {mode : Mode} {n ct : Nat} (hd : decode s.cmdl = .ok (.dec mode n ct)) :
    needsHash s = false ↔ ∀ b c, acct mode n ct = some (b, c) → ∃ k, ∃ _ : k < 46, k < n ∧ 2048 ≤ (s.idx[k]).toNat := by
  rw [← Bool.not_eq_true, needsHash_dec hd, anyInvalidIndex_eq_false_iff]
  simp only [Option.isSome_iff_exists, Prod.exists, not_and, forall_exists_index, not_forall, not_lt, exists_prop]

/-- Settles O44: a completion without a hash call is due whatever the hash unit does, and the commands are taken one by one. -/
theorem stepRunsWithoutHash : Obligations.StepRunsWithoutHash := by
  refine fun s => ⟨fun he hb hd hn => ?_, ?_⟩
  · have hstep := step_of_sequencerTurn he (sequencerTurn_iff.mpr ⟨hb, hd, .inr hn⟩)
    obtain ⟨t, hc, -, -, hbusy, -⟩ := complete_next s
    exact ⟨hstep, t, hstep.trans hc, hbusy, hashCalls_of_needsHash_false hc hn⟩
  cases hd : decode s.cmdl with
  | error e => simp [needsHash_of_error hd]
  | ok i =>
    cases i with
    | acct mode n ct => simp [needsHash_acct hd]
    | clr => simp [needsHash_clr hd]
    | enc mode n ct => rw [needsHash_enc_false_iff hd]; simp
    | dec mode n ct => rw [needsHash_dec_false_iff hd]; simp

/-! ### The host's part of the state -/

/-- `s` with everything that host events short of a reset can change while a command is in flight taken from `h`. -/
def withHostSide (s h : State) : State :=
  { s with
    script := h.script
    replies := h.replies
    schedule := h.schedule
    delay := h.delay
    draws := h.draws
    hashPort := h.hashPort
    status := { s.status with busyViol := h.status.busyViol } }

theorem unpackIndices_withHostSide (hash : List Byte → Digest) (n b c : Nat) (s h : State) :
    unpackIndices hash n b c (withHostSide s h) = withHostSide (unpackIndices hash n b c s) h := rfl

/-- A completion reads nothing of the host's part and leaves it (10_state.md R40). -/
theorem completes_withHostSide {s t : State} (h : State) (hc : Completes s t) : Completes (withHostSide s h) (withHostSide t h) := by
  cases hc with
  | illegal hd => exact .illegal hd
  | clr hd => exact .clr hd
  | acctNone hd ha => exact .acctNone hd ha
  | acctSome hd ha => exact .acctSome hd ha
  | encNone hd ha => exact .encNone hd ha
  | encLength hd ha hl => exact .encLength hd ha hl
  | encPack hd ha hl => exact .encPack hd ha hl
  | decNone hd ha => exact .decNone hd ha
  | decIndex hd ha hi => exact .decIndex hd ha hi
  | decUnpack hd ha hi => exact unpackIndices_withHostSide .. ▸ .decUnpack (s := withHostSide s h) hd ha hi

theorem eq_withHostSide {s u : State} {viol : Bool} (hbuf : SameBuffers s u) (hresult : u.result = s.result) (hcmdl : u.cmdl = s.cmdl)
    (hcalls : u.hashCalls = s.hashCalls) (hstatus : u.status = { s.status with busyViol := viol }) : u = withHostSide s u := by
  obtain ⟨hent, hidx, hdigest, hlen⟩ := hbuf
  cases u
  simp_all [withHostSide]

/-- A host event short of a reset changes the host's part alone while a command is in flight. -/
theorem hostEvent_eq_withHostSide {s : State} {ev : HostEvent} (hb : s.status.busy = true) (hev : ev ≠ .rst) :
    hostEvent ev s = withHostSide s (hostEvent ev s) := by
  obtain ⟨hent, hidx, hdigest, hlen, hresult, hcmdl, hcalls, -, -, viol, hstatus⟩ := hostEvent_busy_frame hb hev
  exact eq_withHostSide ⟨hent, hidx, hdigest, hlen⟩ hresult hcmdl hcalls hstatus

/-- A host event leaves the script, but for `wait`, which can put itself back (30_encoding.md R92). -/
theorem hostEvent_script (ev : HostEvent) (s : State) :
    (hostEvent ev s).script = s.script ∨ (ev = .wait ∧ (hostEvent ev s).script = .wait :: s.script) := by
  cases ev with
  | read | rst => exact .inl rfl
  | wait =>
    rw [hostEvent, pollStatus_continue]
    split
    · exact .inr ⟨rfl, rfl⟩
    · exact .inl rfl
  | write off n v =>
    rw [hostEvent, memWrite, State.respond_script]
    left
    rcases writeEffect_cases off.toNat n v s with ⟨-, h⟩ | ⟨-, -, h⟩ | ⟨-, -, h⟩ | ⟨-, -, h⟩ <;> rw [h] <;> rfl

/-- The host's turn adds no event to the script. -/
theorem mem_script_hostTurn {s : State} {ev : HostEvent} (h : ev ∈ (hostTurn s).script) : ev ∈ s.script := by
  cases hs : s.script with
  | nil => rwa [hostTurn_nil hs, hs] at h
  | cons e rest =>
    rw [hostTurn_eq_hostEvent hs] at h
    rcases hostEvent_script e (takeEvent rest s) with he | ⟨rfl, he⟩ <;> rw [he] at h
    · exact List.mem_cons_of_mem _ h
    · exact h

theorem hostTurn_eq_withHostSide {s : State} (hb : s.status.busy = true) (hs : ∀ ev ∈ s.script, ev ≠ .rst) :
    hostTurn s = withHostSide s (hostTurn s) := by
  cases hscript : s.script with
  | nil => rw [hostTurn_nil hscript]; rfl
  | cons ev rest =>
    rw [hostTurn_eq_hostEvent hscript]
    exact hostEvent_eq_withHostSide (s := takeEvent rest s) hb (hs ev (by simp [hscript]))

/-- Any number of host turns short of a reset changes the host's part alone while a command is in flight. -/
theorem iterate_hostTurn_eq_withHostSide {s : State} (k : Nat) (hb : s.status.busy = true) (hs : ∀ ev ∈ s.script, ev ≠ .rst) :
    hostTurn^[k] s = withHostSide s (hostTurn^[k] s) := by
  induction k generalizing s with
  | zero => rfl
  | succ k ih =>
    have hturn := hostTurn_eq_withHostSide hb hs
    have hb' : (hostTurn s).status.busy = true := by rw [hturn]; exact hb
    rw [Function.iterate_succ_apply]
    calc hostTurn^[k] (hostTurn s)
        = withHostSide (hostTurn s) (hostTurn^[k] (hostTurn s)) := ih hb' fun ev hev => hs ev (mem_script_hostTurn hev)
      _ = withHostSide (withHostSide s (hostTurn s)) (hostTurn^[k] (hostTurn s)) := by rw [← hturn]
      _ = withHostSide s (hostTurn^[k] (hostTurn s)) := rfl

/-- Settles O54: host turns change the host's part alone, which the completion step does not read. -/
theorem resultFixedAtAcceptance : Obligations.ResultFixedAtAcceptance := by
  intro s k hb hs
  obtain ⟨t, hc⟩ := exists_completes s
  have hlate := complete_of_completes (completes_withHostSide (hostTurn^[k] s) hc)
  rw [← iterate_hostTurn_eq_withHostSide k hb hs] at hlate
  exact ⟨t, _, complete_of_completes hc, hlate, ⟨rfl, rfl, rfl, rfl⟩, rfl, rfl, rfl, rfl⟩

end Sys2Proof.Proofs
end

section
/-! PROOFS. Memory accesses: what a read and a write of the window leave of the block, which writes are ignored, and when the host's turn
and the hash port's come (20_memory.md R54 to R58, R67, R70). -/

namespace Sys2Proof.Proofs

open Sys2Proof.Machine

/-! ### Responses and effects -/

theorem sameBlock_respond (r : Reply) (s : State) : SameBlock s (s.respond r) := sameBlock_refl s

theorem sameBlock_memRead (off : BitVec 8) (n : Width) (s : State) : SameBlock s (memRead off n s) := sameBlock_refl s

theorem memRead_replies (off : BitVec 8) (n : Width) (s : State) : (memRead off n s).replies = readReply s off n :: s.replies := rfl

theorem readReply_of_aligned (s : State) {off : BitVec 8} {n : Width} (h : off.toNat % n.bytes = 0) :
    readReply s off n = ⟨false, readData s off.toNat n⟩ := if_pos (aligned_iff.mpr h)

theorem readReply_of_misaligned (s : State) {off : BitVec 8} {n : Width} (h : off.toNat % n.bytes ≠ 0) :
    readReply s off n = ⟨true, 0⟩ := if_neg (mt aligned_iff.mp h)

/-- A write's effect gives no response of its own. -/
theorem writeEffect_replies (off : Nat) (n : Width) (v : Word) (s : State) : (writeEffect off n v s).replies = s.replies := by
  rcases writeEffect_cases off n v s with ⟨-, h⟩ | ⟨-, -, h⟩ | ⟨-, -, h⟩ | ⟨-, -, h⟩ <;> rw [h] <;> rfl

/-- A write answers Ok where it is no bus error (20_memory.md R54). -/
theorem memWrite_replies_of_ok {off : BitVec 8} {n : Width} {v : Word} {s : State} (h : writeKind off.toNat n ≠ .busError) :
    (memWrite off n v s).replies = ⟨false, 0⟩ :: s.replies := by
  rw [memWrite_of_ok h, State.respond_replies, writeEffect_replies]

/-- A bus error is answered and has no effect (20_memory.md R54). -/
theorem memWrite_busError {off : BitVec 8} {n : Width} {v : Word} {s : State} (h : writeKind off.toNat n = .busError) :
    memWrite off n v s = s.respond ⟨true, 0⟩ := by
  rw [memWrite, writeEffect, writeReply, h]
  rfl

/-- An ignored write is answered and has no effect (20_memory.md R55). -/
theorem memWrite_ignored {off : BitVec 8} {n : Width} {v : Word} {s : State} (h : writeKind off.toNat n = .ignored) :
    memWrite off n v s = s.respond ⟨false, 0⟩ := by
  rw [memWrite, writeEffect, writeReply, h]
  rfl

/-- The ignored writes are those that are nothing else (20_memory.md R55, 10_state.md R34). -/
theorem writeKind_eq_ignored {off : Nat} {n : Width} : writeKind off n = .ignored ↔
    off % n.bytes = 0 ∧ ¬(8 ≤ off ∧ off < 12) ∧ ¬(off = 12 ∨ (0x20 ≤ off ∧ off < 0x40) ∨ (0x60 ≤ off ∧ off < 0xBC)) := by
  have hrest : writeKind off n = .ignored ↔
      ¬writeKind off n = .busError ∧ ¬writeKind off n = .command ∧ ¬writeKind off n = .input := by
    cases writeKind off n <;> simp
  rw [hrest, writeKind_eq_busError, writeKind_eq_command, writeKind_eq_input]
  cases n <;> simp [Width.bytes] <;> omega

/-- Settles O34: a bus error leaves all but the responses, and every other access is answered Ok. -/
theorem busErrors : Obligations.BusErrors := by
  refine fun s off n v => ⟨fun h => ?_, fun h => memWrite_replies_of_ok (mt writeKind_eq_busError.mp h), fun h => ?_, fun h => ?_⟩
  · rw [memWrite_busError (writeKind_eq_busError.mpr h)]
    exact ⟨sameBlock_respond _ s, rfl⟩
  · exact ⟨sameBlock_memRead off n s, by rw [memRead_replies, readReply_of_misaligned s h]⟩
  · exact ⟨_, by rw [memRead_replies, readReply_of_aligned s h]⟩

/-- Settles O35: the offsets are those of the ignored writes. -/
theorem ignoredWrites : Obligations.IgnoredWrites := by
  intro s off n v ha hoff
  rw [memWrite_ignored (writeKind_eq_ignored.mpr ⟨ha, by omega, by omega⟩)]
  exact ⟨sameBlock_respond _ s, rfl⟩

/-- While idle a read depends on the block's state alone (20_memory.md R56). -/
theorem readReply_congr {s t : State} (h : SameBlock s t) (hb : s.status.busy = false) (off : BitVec 8) (n : Width) :
    readReply t off n = readReply s off n := by
  have ⟨_, _, hstatus, _⟩ := h
  have hlane : readLane t = readLane s := by
    funext o j
    rw [readLane_of_idle hb, readLane_of_idle (hstatus ▸ hb), windowByte_congr h]
  simp only [readReply, readData, hlane]

/-- Settles O37: a read leaves the block as it was, and while idle a read depends on the block alone. -/
theorem readsHaveNoSideEffect : Obligations.ReadsHaveNoSideEffect := fun s off off' n n' =>
  ⟨sameBlock_memRead off n s, rfl, fun hb => readReply_congr (sameBlock_memRead off n s) hb off' n'⟩

/-! ### The window in the platform's address space -/

/-- An address of the window is the base plus the offset it selects (20_memory.md R67). -/
theorem windowOffset_eq_some {addr : Nat} {off : BitVec 8} : windowOffset addr = some off ↔ addr = Config.b39pBase + off.toNat := by
  have hlt := off.isLt
  rw [windowOffset, Option.ite_none_right_eq_some, Option.some.injEq, ← BitVec.toNat_inj, BitVec.toNat_ofNat, Config.b39pBase]
  omega

/-- Settles O40: the base's low 8 bits are 0. -/
theorem windowAddressDecode : Obligations.WindowAddressDecode := by
  refine ⟨Nat.mul_mod_right .., fun off => windowOffset_eq_some.mpr rfl, fun addr off h => ?_⟩
  have haddr := windowOffset_eq_some.mp h
  refine ⟨?_, haddr⟩
  rw [← BitVec.toNat_inj, BitVec.toNat_ofNat, haddr, Config.b39pBase, Nat.mul_add_mod, Nat.mod_eq_of_lt off.isLt]

/-! ### The host's turn and the hash port -/

/-- Settles O45: where the completion step is not due, the step is the host's turn. -/
theorem stepTakesHostEvent : Obligations.StepTakesHostEvent := by
  refine fun s => ⟨?_, fun he hturn => ?_⟩
  · have hport : ¬s.hashPort = .answering ↔ s.hashPort = .silent := by cases s.hashPort <;> simp
    rw [← Bool.not_eq_true, sequencerTurn_iff, not_and_or, not_and_or, not_or, not_or, hport, Bool.not_eq_true, Bool.not_eq_false,
      Nat.pos_iff_ne_zero]
  · rw [step_of_hostTurn he hturn]
    exact ⟨fun h => by rw [hostTurn_nil h], fun ev rest h => by rw [hostTurn_cons h]⟩

/-- A completion has one outcome. -/
theorem Completes.unique {s t u : State} (ht : Completes s t) (hu : Completes s u) : t = u := by
  have h := (complete_of_completes ht).symm.trans (complete_of_completes hu)
  injection h

/-- A completion that fails before the hash, and ACCT and CLR, call no hash; DIGEST stays but for CLR (20_memory.md R70). -/
theorem completes_without_hash {s t : State} (h : Completes s t)
    (hn : t.status.err = 1 ∨ t.status.err = 2 ∨ t.status.err = 4 ∨ decode s.cmdl = .ok .clr ∨
      ∃ mode n ct, decode s.cmdl = .ok (.acct mode n ct)) :
    t.hashCalls = s.hashCalls ∧ (t.digest = s.digest ∨ decode s.cmdl = .ok .clr) := by
  cases h with
  | clr hd => exact ⟨rfl, .inr hd⟩
  | illegal | acctNone | acctSome | encNone | encLength | decNone | decIndex => exact ⟨rfl, .inl rfl⟩
  | encPack hd => simp [hd] at hn
  | decUnpack hd => simp only [unpackIndices_status, hd] at hn; split at hn <;> simp [ErrCode.code] at hn

/-- Settles O58, by the outcomes of the completion step. -/
theorem hashPortCalls : Obligations.HashPortCalls := by
  intro s
  obtain ⟨t, hc⟩ := exists_completes s
  refine ⟨t, complete_of_completes hc, fun mode n ct b c hd ha hl => ?_, fun mode n ct b c hd ha hi => ?_, completes_without_hash hc⟩
  · obtain rfl := hc.unique (.encPack hd ha hl)
    exact ⟨rfl, rfl⟩
  · obtain rfl := hc.unique (.decUnpack hd ha hi)
    obtain ⟨-, -, hb, -⟩ := acct_balanced ha
    rw [entPrefix_unpackIndices _ _ hb]
    exact ⟨rfl, rfl⟩

end Sys2Proof.Proofs
end

section
/-! PROOFS. The bytes of the window after a host event: what a performed write stores, and what every event leaves (20_memory.md R51, R57,
R58, 10_state.md R29). -/

namespace Sys2Proof.Proofs

open Sys2Proof.Machine

theorem regionOf_status_iff {a : Nat} : regionOf a = .status ↔ 4 ≤ a ∧ a < 8 := by
  rcases regionOf_cases a with h | h | h | h | h | h | h | h | h | h <;> simp only [h.2, reduceCtorEq, true_iff, false_iff] <;> omega

/-- The window without STATUS shows the buffers, ENT_LEN and RESULT alone. -/
theorem windowByte_congr_of_buffers {s t : State} (hbuf : SameBuffers s t) (hresult : t.result = s.result) {a : Nat}
    (ha : ¬(4 ≤ a ∧ a < 8)) : windowByte t a = windowByte s a := by
  obtain ⟨hent, hidx, hdigest, hlen⟩ := hbuf
  rw [← regionOf_status_iff] at ha
  cases hregion : regionOf a with
  | status => exact absurd hregion ha
  | _ => simp only [windowByte, hregion, hent, hidx, hdigest, hlen, hresult]

/-- An offset of ENT is that of one of its bytes (10_state.md R31). -/
theorem exists_ent_offset {a : Nat} (h : 0x20 ≤ a ∧ a < 0x40) : ∃ i, i < 32 ∧ a = 0x20 + i := ⟨a - 0x20, by omega, by omega⟩

/-- An offset of IDX is that of one of the two bytes of an entry (10_state.md R33). -/
theorem exists_idx_offset {a : Nat} (h : 0x60 ≤ a ∧ a < 0xBC) : ∃ k j, k < 46 ∧ j < 2 ∧ a = 0x60 + 2 * k + j :=
  ⟨(a - 0x60) / 2, (a - 0x60) % 2, by omega, by omega, by omega⟩

/-- Lane 0 of ENT_LEN reads its six bits (10_state.md R29). -/
theorem windowByte_entLen (s : State) : windowByte s 0x0C = s.entLen.setWidth 8 := by
  show wordLane (entLenWord s.entLen) 0 = _
  ext i hi
  simp [wordLane, entLenWord]
  omega

/-- Lanes 1 to 3 of ENT_LEN read 0 (10_state.md R29). -/
theorem windowByte_entLen_upper (s : State) {a : Nat} (h : 0x0D ≤ a ∧ a < 0x10) : windowByte s a = 0 := by
  rw [windowByte, regionOf_entLen_iff.mpr (by omega)]
  exact wordLane_entLenWord _ (by omega) (by omega)

/-! ### A performed write -/

/-- A byte of ENT takes its lane of the data where the write addresses it (20_memory.md R51). -/
theorem windowByte_storeInputs_ent (s : State) (off : Nat) (n : Width) (v : Word) {a : Nat} (h : 0x20 ≤ a ∧ a < 0x40) :
    windowByte (s.storeInputs off n v) a = overlayByte off n v a (windowByte s a) := by
  obtain ⟨i, hi, rfl⟩ := exists_ent_offset h
  simp only [windowByte_ent _ hi, State.storeInputs_ent, Vector.getElem_mapIdx]

/-- A byte of IDX takes its lane of the data where the write addresses it, and leaves the entry's other byte (20_memory.md R51, R57). -/
theorem windowByte_storeInputs_idx (s : State) (off : Nat) (n : Width) (v : Word) {a : Nat} (h : 0x60 ≤ a ∧ a < 0xBC) :
    windowByte (s.storeInputs off n v) a = overlayByte off n v a (windowByte s a) := by
  obtain ⟨k, j, hk, hj, rfl⟩ := exists_idx_offset h
  simp only [windowByte_idx _ hk hj, State.storeInputs_idx, Vector.getElem_mapIdx]
  obtain rfl | rfl : j = 0 ∨ j = 1 := by omega
  · rw [halfLane_zero_halfOfBytes]
    rfl
  · rw [halfLane_one_halfOfBytes, show 0x61 + 2 * k = 0x60 + 2 * k + 1 by omega]

/-- ENT_LEN takes the low six bits of its lane of the data (10_state.md R29). -/
theorem windowByte_storeInputs_entLen (s : State) (off : Nat) (n : Width) (v : Word) :
    windowByte (s.storeInputs off n v) 0x0C = ((overlayByte off n v 0x0C (windowByte s 0x0C)).setWidth 6).setWidth 8 := by
  rw [windowByte_entLen, windowByte_entLen]
  rfl

theorem windowByte_storeInputs_other (s : State) (off : Nat) (n : Width) (v : Word) {a : Nat} (hent : regionOf a ≠ .ent)
    (hidx : regionOf a ≠ .idx) (hlen : regionOf a ≠ .entLen) : windowByte (s.storeInputs off n v) a = windowByte s a := by
  cases hregion : regionOf a with
  | ent => exact absurd hregion hent
  | idx => exact absurd hregion hidx
  | entLen => exact absurd hregion hlen
  | _ => simp only [windowByte, hregion, State.storeInputs_status, State.storeInputs_digest, State.storeInputs_result]

/-- What a performed write makes of a byte it addresses: six bits of lane 0 for ENT_LEN, whose other lanes read 0, and elsewhere the byte's
lane of the data (20_memory.md R51, 10_state.md R29). -/
def storedByte (off : Nat) (v : Word) (a : Nat) : Byte :=
  if a = 0x0C then ((v.extractLsb' 0 8).setWidth 6).setWidth 8
  else if a < 0x10 then 0
  else v.extractLsb' (8 * (a - off)) 8

theorem storedByte_of_le (off : Nat) (v : Word) {a : Nat} (h : 0x10 ≤ a) : storedByte off v a = wordLane v (a - off) := by
  rw [storedByte, if_neg (by omega), if_neg (by omega), wordLane]

/-- An aligned write does not leave the buffer or register that it starts in (20_memory.md R52). -/
theorem inputWrite_covers {off : BitVec 8} {n : Width} {a : Nat} (h : inputWrite off n) (ha : coversByte off.toNat n a) :
    (off.toNat = 0x0C ∧ 0x0C ≤ a ∧ a < 0x10) ∨ (0x20 ≤ a ∧ a < 0x40) ∨ (0x60 ≤ a ∧ a < 0xBC) := by
  obtain ⟨halign, hoff⟩ := h
  rw [coversByte] at ha
  rcases width_bytes_cases n with hn | hn | hn <;> rw [hn] at halign ha <;> omega

/-- The bytes of the window after a performed write: the addressed ones are stored, the others stay (20_memory.md R58). -/
theorem windowByte_storeInputs {off : BitVec 8} {n : Width} (h : inputWrite off n) (v : Word) (s : State) (a : Nat) :
    windowByte (s.storeInputs off.toNat n v) a =
      if coversByte off.toNat n a then storedByte off.toNat v a else windowByte s a := by
  by_cases hent : 0x20 ≤ a ∧ a < 0x40
  · rw [windowByte_storeInputs_ent s _ n v hent, overlayByte, storedByte_of_le _ v (by omega)]
  by_cases hidx : 0x60 ≤ a ∧ a < 0xBC
  · rw [windowByte_storeInputs_idx s _ n v hidx, overlayByte, storedByte_of_le _ v (by omega)]
  by_cases hupper : 0x0D ≤ a ∧ a < 0x10
  · have hzero : storedByte off.toNat v a = 0 := by rw [storedByte, if_neg (by omega), if_pos (by omega)]
    rw [windowByte_entLen_upper _ hupper, windowByte_entLen_upper s hupper, hzero, ite_self]
  by_cases hlen : a = 0x0C
  · subst hlen
    rw [windowByte_storeInputs_entLen]
    split
    next hc =>
      have hoff : off.toNat = 0x0C := by have := inputWrite_covers h hc; omega
      rw [overlayByte_of_covers _ _ hc, hoff]
      rfl
    next hc =>
      rw [overlayByte_of_not_covers _ _ hc, windowByte_entLen, BitVec.setWidth_setWidth_of_le s.entLen (by omega), BitVec.setWidth_eq]
  rw [if_neg fun hc => by have := inputWrite_covers h hc; omega]
  apply windowByte_storeInputs_other
  · rw [ne_eq, regionOf_ent_iff]; exact hent
  · rw [ne_eq, regionOf_idx_iff]; exact hidx
  · rw [ne_eq, regionOf_entLen_iff]; omega

/-- The same of the input write as a transaction, but for VALID, which it clears in STATUS (20_memory.md R58). -/
theorem windowByte_performWrite {off : BitVec 8} {n : Width} (h : inputWrite off n) (v : Word) (s : State) {a : Nat}
    (ha : ¬(4 ≤ a ∧ a < 8)) : windowByte ((s.performWrite off.toNat n v).respond ⟨false, 0⟩) a =
      if coversByte off.toNat n a then storedByte off.toNat v a else windowByte s a := by
  rw [← windowByte_storeInputs h v s a]
  have hbuf : SameBuffers (s.storeInputs off.toNat n v) ((s.performWrite off.toNat n v).respond ⟨false, 0⟩) := ⟨rfl, rfl, rfl, rfl⟩
  exact windowByte_congr_of_buffers hbuf rfl ha

theorem sameBuffers_accept (v : Word) (r : Reply) (s : State) : SameBuffers s ((s.accept v).respond r) := ⟨rfl, rfl, rfl, rfl⟩

theorem sameBuffers_dropWrite (r : Reply) (s : State) : SameBuffers s (s.dropWrite.respond r) := ⟨rfl, rfl, rfl, rfl⟩

/-- Settles O33: while idle the write is performed, while BUSY it is dropped. -/
theorem inputWrites : Obligations.InputWrites := by
  refine fun s off n v ha => ⟨fun hb hoff => ?_, fun hb hoff => ?_⟩
  · have hin : inputWrite off n := inputWrite_iff.mpr ⟨ha, hoff⟩
    rw [memWrite_perform v hin hb]
    exact ⟨rfl, rfl, fun a => windowByte_performWrite hin v s, rfl, rfl, rfl⟩
  · have hdrop : memWrite off n v s = s.dropWrite.respond ⟨false, 0⟩ :=
      hostEvent_write_busy v hb (reportedWrite_iff.mpr ⟨ha, hoff⟩)
    rw [hdrop]
    exact ⟨rfl, rfl, sameBuffers_dropWrite _ s, rfl, rfl⟩

/-- Settles O60, by the cases of a host event. -/
theorem hostEventFrame : Obligations.HostEventFrame := by
  intro s ev hrst
  rcases hostEvent_cases ev s with ⟨hev, -⟩ | ⟨v, hev, -, he⟩ | ⟨off, n, v, hev, hin, -, he⟩ | ⟨off, n, v, -, -, -, he⟩ |
    ⟨-, -, hblock, hcalls, hport, -⟩
  · exact absurd hev hrst
  · rw [he]
    exact ⟨rfl, rfl, rfl, rfl, fun hcmd => absurd hev (hcmd v),
      fun a ha _ => windowByte_congr_of_buffers (sameBuffers_accept v _ s) rfl ha⟩
  · rw [he]
    refine ⟨rfl, rfl, rfl, rfl, fun _ => ⟨rfl, rfl, rfl, rfl⟩, fun a ha hw => ?_⟩
    rw [windowByte_performWrite hin v s ha, if_neg (hw off n v hev)]
  · rw [he]
    exact ⟨rfl, rfl, rfl, rfl, fun _ => ⟨rfl, rfl, rfl, rfl⟩,
      fun a ha _ => windowByte_congr_of_buffers (sameBuffers_dropWrite _ s) rfl ha⟩
  · have ⟨⟨_, _, hdigest, _⟩, hresult, hstatus, hcmdl⟩ := hblock
    exact ⟨hdigest, hresult, hcalls, hport, fun _ => ⟨hcmdl, by rw [hstatus], by rw [hstatus], by rw [hstatus]⟩,
      fun a _ _ => windowByte_congr hblock a⟩

end Sys2Proof.Proofs
end

section
/-! PROOFS. Byte, halfword and word views of the window: what reads of each width return of the buffers and registers, and what writes of
each width store (20_memory.md R51, R57, 10_state.md R28 to R34). -/

namespace Sys2Proof.Proofs

open Sys2Proof.Machine

theorem toNat_ofNat_offset {a : Nat} (h : a < 256) : (BitVec.ofNat 8 a).toNat = a := by
  rw [BitVec.toNat_ofNat, Nat.mod_eq_of_lt h]

/-- A word is its two halves (20_memory.md R51). -/
theorem wordOfBytes_eq_halves (b0 b1 b2 b3 : Byte) :
    wordOfBytes b0 b1 b2 b3 = (halfOfBytes b0 b1).setWidth 32 ||| (halfOfBytes b2 b3).setWidth 32 <<< 16 := by
  ext i hi
  interval_cases i <;> simp [wordOfBytes, halfOfBytes]

/-- Two neighbouring lanes of a word (20_memory.md R51). -/
theorem halfOfBytes_wordLane (v : Word) (j : Nat) : halfOfBytes (wordLane v j) (wordLane v (j + 1)) = v.extractLsb' (8 * j) 16 := by
  ext i hi
  rcases Nat.lt_or_ge i 8 with h | h
  · simp [halfOfBytes, wordLane, h]
  · simp [halfOfBytes, wordLane, Nat.not_lt.mpr h, show 8 * (j + 1) + (i - 8) = 8 * j + i by omega, show i - 8 < 8 by omega]

/-- An entry is its two bytes of the window (20_memory.md R57). -/
theorem idx_eq_halfOfBytes (s : State) {k : Nat} (hk : k < 46) :
    s.idx[k] = halfOfBytes (windowByte s (0x60 + 2 * k)) (windowByte s (0x60 + 2 * k + 1)) := by
  have hlow : windowByte s (0x60 + 2 * k) = halfLane s.idx[k] 0 := windowByte_idx s hk (h := 0) (by omega)
  rw [hlow, windowByte_idx s hk (h := 1) (by omega), halfOfBytes_halfLane]

/-- CMD and the reserved bytes are 0 (10_state.md R28, R34). -/
theorem windowByte_cmd_reserved (s : State) {a : Nat} (h : (8 ≤ a ∧ a < 12) ∨ (0x14 ≤ a ∧ a < 0x20) ∨ 0xBC ≤ a) :
    windowByte s a = 0 := by
  have hregion : regionOf a = .cmd ∨ regionOf a = .reserved := by
    rcases regionOf_cases a with h' | h' | h' | h' | h' | h' | h' | h' | h' | h' <;> simp only [h'.2, true_or, or_true] <;> omega
  rcases hregion with hr | hr <;> rw [windowByte, hr]

/-! ### Reads while idle, from the window's bytes -/

section
variable {s : State} (hb : s.status.busy = false)
include hb

theorem readReply_byte_idle {a : Nat} (h : a < 256) :
    readReply s (BitVec.ofNat 8 a) .byte = ⟨false, (windowByte s a).setWidth 32⟩ := by
  rw [readReply_of_aligned s (Nat.mod_one _), readData, readLane_of_idle hb, toNat_ofNat_offset h]
  rfl

theorem readReply_half_idle {a : Nat} (h : a < 256) (ha : a % 2 = 0) :
    readReply s (BitVec.ofNat 8 a) .half = ⟨false, (halfOfBytes (windowByte s a) (windowByte s (a + 1))).setWidth 32⟩ := by
  have haligned : (BitVec.ofNat 8 a).toNat % Width.bytes .half = 0 := by rw [toNat_ofNat_offset h]; exact ha
  simp only [readReply_of_aligned s haligned, readData, readLane_of_idle hb, toNat_ofNat_offset h, Nat.add_zero]

theorem readReply_word_idle {a : Nat} (h : a < 256) (ha : a % 4 = 0) : readReply s (BitVec.ofNat 8 a) .word =
    ⟨false, wordOfBytes (windowByte s a) (windowByte s (a + 1)) (windowByte s (a + 2)) (windowByte s (a + 3))⟩ := by
  have haligned : (BitVec.ofNat 8 a).toNat % Width.bytes .word = 0 := by rw [toNat_ofNat_offset h]; exact ha
  simp only [readReply_of_aligned s haligned, readData, readLane_of_idle hb, toNat_ofNat_offset h, Nat.add_zero]

/-- An aligned read of bytes that are 0 reads 0 at every width. -/
theorem readReply_zero_idle {off : BitVec 8} {n : Width} (ha : off.toNat % n.bytes = 0)
    (h : ∀ j, j < n.bytes → windowByte s (off.toNat + j) = 0) : readReply s off n = ⟨false, 0⟩ := by
  rw [readReply_of_aligned s ha]
  cases n with
  | byte => simp only [readData, readLane_of_idle hb, h 0 (by decide)]; rfl
  | half => simp only [readData, readLane_of_idle hb, h 0 (by decide), h 1 (by decide)]; rfl
  | word => simp only [readData, readLane_of_idle hb, h 0 (by decide), h 1 (by decide), h 2 (by decide), h 3 (by decide)]; rfl

/-- Data bits [8j+7:8j] of an aligned read are the byte at `off + j` (20_memory.md R51). -/
theorem readReply_lane_idle {off : BitVec 8} {n : Width} {j : Nat} (ha : off.toNat % n.bytes = 0) (hj : j < n.bytes) :
    (readReply s off n).data.extractLsb' (8 * j) 8 = windowByte s (off.toNat + j) := by
  rw [readReply_lane s ha hj, readLane_of_idle hb]

theorem readReply_ent_word {j : Nat} (h : 4 * j + 3 < 32) : readReply s (BitVec.ofNat 8 (0x20 + 4 * j)) .word =
    ⟨false, wordOfBytes s.ent[4 * j] s.ent[4 * j + 1] s.ent[4 * j + 2] s.ent[4 * j + 3]⟩ := by
  simp only [readReply_word_idle hb (show 0x20 + 4 * j < 256 by omega) (by omega), Nat.add_assoc]
  rw [windowByte_ent, windowByte_ent, windowByte_ent, windowByte_ent]

theorem readReply_digest_word {j : Nat} (h : 4 * j + 3 < 32) : readReply s (BitVec.ofNat 8 (0x40 + 4 * j)) .word =
    ⟨false, wordOfBytes s.digest[4 * j] s.digest[4 * j + 1] s.digest[4 * j + 2] s.digest[4 * j + 3]⟩ := by
  simp only [readReply_word_idle hb (show 0x40 + 4 * j < 256 by omega) (by omega), Nat.add_assoc]
  rw [windowByte_digest, windowByte_digest, windowByte_digest, windowByte_digest]

theorem readReply_digest_byte {i : Nat} (h : i < 32) :
    readReply s (BitVec.ofNat 8 (0x40 + i)) .byte = ⟨false, s.digest[i].setWidth 32⟩ := by
  rw [readReply_byte_idle hb (by omega), windowByte_digest s h]

theorem readReply_idx_byte {k j : Nat} (hk : k < 46) (hj : j < 2) :
    readReply s (BitVec.ofNat 8 (0x60 + 2 * k + j)) .byte = ⟨false, (halfLane s.idx[k] j).setWidth 32⟩ := by
  rw [readReply_byte_idle hb (by omega), windowByte_idx s hk hj]

theorem readReply_idx_half {k : Nat} (hk : k < 46) :
    readReply s (BitVec.ofNat 8 (0x60 + 2 * k)) .half = ⟨false, s.idx[k].setWidth 32⟩ := by
  rw [readReply_half_idle hb (by omega) (by omega), ← idx_eq_halfOfBytes s hk]

theorem readReply_idx_word {j : Nat} (h : 2 * j + 1 < 46) : readReply s (BitVec.ofNat 8 (0x60 + 4 * j)) .word =
    ⟨false, s.idx[2 * j].setWidth 32 ||| s.idx[2 * j + 1].setWidth 32 <<< 16⟩ := by
  rw [readReply_word_idle hb (by omega) (by omega), wordOfBytes_eq_halves, idx_eq_halfOfBytes s h,
    idx_eq_halfOfBytes s (show 2 * j < 46 by omega), show 0x60 + 2 * (2 * j) = 0x60 + 4 * j by omega,
    show 0x60 + 2 * (2 * j + 1) = 0x60 + 4 * j + 2 by omega]

/-- CMD and the reserved offsets read 0 at every width (10_state.md R28, R34). -/
theorem readReply_cmd_reserved {off : BitVec 8} {n : Width} (ha : off.toNat % n.bytes = 0)
    (h : (8 ≤ off.toNat ∧ off.toNat < 12) ∨ (0x14 ≤ off.toNat ∧ off.toNat < 0x20) ∨ 0xBC ≤ off.toNat) :
    readReply s off n = ⟨false, 0⟩ := by
  refine readReply_zero_idle hb ha fun j hj => ?_
  have hrange : (8 ≤ off.toNat + j ∧ off.toNat + j < 12) ∨ (0x14 ≤ off.toNat + j ∧ off.toNat + j < 0x20) ∨ 0xBC ≤ off.toNat + j := by
    rcases width_bytes_cases n with hn | hn | hn <;> rw [hn] at ha hj <;> omega
  exact windowByte_cmd_reserved s hrange

/-- A lane of an aligned read that falls on a register's byte is that lane of the register's 4-byte read (20_memory.md R51). -/
theorem readReply_register_lane {off : BitVec 8} {n : Width} {lane base j : Nat} (ha : off.toNat % n.bytes = 0) (hlane : lane < n.bytes)
    (hbase : base < 256) (halign : base % 4 = 0) (hj : j < 4) (h : off.toNat + lane = base + j) :
    (readReply s off n).data.extractLsb' (8 * lane) 8 =
      (readReply s (BitVec.ofNat 8 base) .word).data.extractLsb' (8 * j) 8 := by
  have hbase' := toNat_ofNat_offset hbase
  rw [readReply_lane_idle hb ha hlane, h, readReply_lane_idle hb (n := .word) (by rw [hbase']; exact halign) hj, hbase']

/-! ### Writes while idle, by the window's bytes -/

/-- An aligned write into ENT or IDX overlays the bytes of the buffers (20_memory.md R51, R58). -/
theorem windowByte_memWrite_buffer {a c : Nat} {n : Width} (v : Word) (ha : a % n.bytes = 0)
    (hoff : (0x20 ≤ a ∧ a < 0x40) ∨ (0x60 ≤ a ∧ a < 0xBC)) (hc : 0x20 ≤ c) :
    windowByte (memWrite (BitVec.ofNat 8 a) n v s) c = overlayByte a n v c (windowByte s c) := by
  have hlt := toNat_ofNat_offset (a := a) (by omega)
  have hin : inputWrite (BitVec.ofNat 8 a) n := by rw [inputWrite, hlt]; exact ⟨ha, .inr hoff⟩
  rw [memWrite_perform v hin hb, windowByte_performWrite hin v s (by omega), storedByte_of_le _ v (by omega), hlt, overlayByte]

/-- Byte `a + i` takes lane i of the data. -/
theorem windowByte_memWrite_lane {a i c : Nat} {n : Width} (v : Word) (ha : a % n.bytes = 0)
    (hoff : (0x20 ≤ a ∧ a < 0x40) ∨ (0x60 ≤ a ∧ a < 0xBC)) (hi : i < n.bytes) (hc : c = a + i) :
    windowByte (memWrite (BitVec.ofNat 8 a) n v s) c = wordLane v i := by
  rw [windowByte_memWrite_buffer hb v ha hoff (by omega), overlayByte_of_covers _ _ ⟨by omega, by omega⟩, hc, Nat.add_sub_cancel_left]

/-- An entry whose two bytes a write covers takes two lanes of the data (20_memory.md R57). -/
theorem idx_memWrite {a j k : Nat} {n : Width} (v : Word) (hk : k < 46) (ha : a % n.bytes = 0) (hoff : 0x60 ≤ a)
    (hj : j + 1 < n.bytes) (hkj : 0x60 + 2 * k = a + j) :
    (memWrite (BitVec.ofNat 8 a) n v s).idx[k] = v.extractLsb' (8 * j) 16 := by
  rw [idx_eq_halfOfBytes _ hk, windowByte_memWrite_lane hb v ha (by omega) (i := j) (by omega) hkj,
    windowByte_memWrite_lane hb v ha (by omega) hj (by omega), halfOfBytes_wordLane]

theorem idx_memWrite_half {k : Nat} (v : Word) (hk : k < 46) :
    (memWrite (BitVec.ofNat 8 (0x60 + 2 * k)) .half v s).idx[k] = v.extractLsb' 0 16 :=
  idx_memWrite hb v (j := 0) hk (show (0x60 + 2 * k) % 2 = 0 by omega) (by omega) (by decide) rfl

theorem idx_memWrite_word {j : Nat} (v : Word) (h : 2 * j + 1 < 46) :
    (memWrite (BitVec.ofNat 8 (0x60 + 4 * j)) .word v s).idx[2 * j] = v.extractLsb' 0 16 ∧
      (memWrite (BitVec.ofNat 8 (0x60 + 4 * j)) .word v s).idx[2 * j + 1] = v.extractLsb' 16 16 := by
  have halign : (0x60 + 4 * j) % 4 = 0 := by omega
  exact ⟨idx_memWrite hb v (j := 0) (by omega) halign (by omega) (by decide) (by omega),
    idx_memWrite hb v (j := 2) h halign (by omega) (by decide) (by omega)⟩

theorem ent_memWrite_word {j i : Nat} (v : Word) (h : 4 * j + i < 32) (hi : i < 4) :
    (memWrite (BitVec.ofNat 8 (0x20 + 4 * j)) .word v s).ent[4 * j + i] = wordLane v i := by
  rw [← windowByte_ent _ h]
  exact windowByte_memWrite_lane hb v (show (0x20 + 4 * j) % 4 = 0 by omega) (by omega) hi (by omega)

/-- A 1-byte write stores one byte of an entry (20_memory.md R57). -/
theorem idx_memWrite_byte {k j : Nat} (v : Word) (hk : k < 46) (hj : j < 2) :
    halfLane (memWrite (BitVec.ofNat 8 (0x60 + 2 * k + j)) .byte v s).idx[k] j = wordLane v 0 := by
  rw [← windowByte_idx _ hk hj]
  exact windowByte_memWrite_lane hb v (Nat.mod_one _) (by omega) Nat.one_pos rfl

/-- A 1-byte write leaves the entry's other byte (20_memory.md R57). -/
theorem idx_memWrite_other_byte {k j : Nat} (v : Word) (hk : k < 46) (hj : j < 2) :
    halfLane (memWrite (BitVec.ofNat 8 (0x60 + 2 * k + j)) .byte v s).idx[k] (1 - j) = halfLane s.idx[k] (1 - j) := by
  have hother : ¬coversByte (0x60 + 2 * k + j) .byte (0x60 + 2 * k + (1 - j)) := by simp only [coversByte, Width.bytes]; omega
  rw [← windowByte_idx _ hk (by omega), windowByte_memWrite_buffer hb v (Nat.mod_one _) (by omega) (by omega),
    overlayByte_of_not_covers _ _ hother, windowByte_idx s hk (by omega)]

end

/-- Settles O36: each clause is a read or a write of the window's bytes. -/
theorem mixedWidthViews : Obligations.MixedWidthViews := by
  refine fun s hb => ⟨fun j => readReply_ent_word hb, fun k => readReply_idx_half hb, fun j => readReply_idx_word hb,
    fun k h => readReply_idx_byte hb, readReply_idx_word hb (j := 22) (by decide), readReply_cmd_reserved hb (by decide) (by decide),
    fun j => readReply_digest_word hb, fun i => readReply_digest_byte hb, fun off n => readReply_cmd_reserved hb,
    fun off n lane ha hl => ⟨fun i hi h => ?_, fun i hi h => ?_, fun k j hk hj h => ?_, fun base hbase j hj h => ?_⟩,
    fun j i v h hi => ent_memWrite_word hb v h hi,
    fun k v => idx_memWrite_half hb v, fun j v => idx_memWrite_word hb v,
    fun k j v hk hj => ⟨idx_memWrite_byte hb v hk hj, idx_memWrite_other_byte hb v hk hj⟩⟩
  · rw [readReply_lane_idle hb ha hl, h, windowByte_ent s hi]
  · rw [readReply_lane_idle hb ha hl, h, windowByte_digest s hi]
  · rw [readReply_lane_idle hb ha hl, h, windowByte_idx s hk hj, halfLane]
  · obtain ⟨hlt, halign⟩ := (by decide : ∀ base ∈ [0x00, 0x04, 0x0C, 0x10], base < 256 ∧ base % 4 = 0) base hbase
    exact readReply_register_lane hb ha hl hlt halign hj h

end Sys2Proof.Proofs
end

section
/-! PROOFS. The decoder and the encoder agree: the word of each command field by field, and the words that are no command (30_encoding.md R80
to R90). -/

namespace Sys2Proof.Proofs

open Sys2Proof.Machine

/-! ### The commands with operands as one family -/

/-- The OP field of a command with operands (30_encoding.md R81). -/
def opCode : AsmOp → BitVec 4
  | .acct => 1
  | .enc => 2
  | .dec => 3

theorem instr_cases (i : Instr) : i = .clr ∨ ∃ op mode n ct, i = AsmOp.instr op mode n ct := by
  cases i with
  | clr => exact .inl rfl
  | acct mode n ct => exact .inr ⟨.acct, mode, n, ct, rfl⟩
  | enc mode n ct => exact .inr ⟨.enc, mode, n, ct, rfl⟩
  | dec mode n ct => exact .inr ⟨.dec, mode, n, ct, rfl⟩

theorem encode_instr (op : AsmOp) (mode : Mode) (n ct : Nat) :
    encode (op.instr mode n ct) = commandWord (BitVec.ofNat 9 ct) (BitVec.ofNat 8 n) mode.bits (opCode op) := by
  cases op <;> rfl

theorem wellFormed_instr (op : AsmOp) (mode : Mode) (n ct : Nat) :
    WellFormed (op.instr mode n ct) = true ↔ operandsFit n ct := by
  cases op <;> exact decide_eq_true_iff

theorem instr_ne_clr (op : AsmOp) (mode : Mode) (n ct : Nat) : op.instr mode n ct ≠ .clr := by
  cases op <;> nofun

theorem exists_mode_bits {b : BitVec 2} : (∃ m : Mode, m.bits = b) ↔ b ≠ 3 := by
  rw [ne_eq, ← modeOfBits_none, ← ne_eq, Option.ne_none_iff_exists']
  exact exists_congr fun m => ⟨fun h => h ▸ modeOfBits_bits m, modeOfBits_some⟩

/-! ### Decoding by the fields of the word -/

/-- The bits that must be 0 and the OP field, which are the bits under the mask of the opcode map (30_encoding.md R86). -/
def HasOp (w : Word) (op : BitVec 4) : Prop := res1Field w = 0 ∧ res0Field w = 0 ∧ opField w = op

theorem decode_of_op {w : Word} {op : AsmOp} (h : HasOp w (opCode op)) : decode w = withOperands w op.instr := by
  obtain ⟨h1, h0, hop⟩ := h
  cases op <;> simp [decode, h1, h0, hop, opCode] <;> rfl

theorem decode_of_clr {w : Word} (h : HasOp w 4) : decode w = .ok .clr := by
  obtain ⟨h1, h0, hop⟩ := h
  simp [decode, h1, h0, hop]

theorem withOperands_of_mode {w : Word} {mode : Mode} (k : Mode → Nat → Nat → Instr) (h : mode.bits = modeField w) :
    withOperands w k = .ok (k mode (nField w).toNat (ctField w).toNat) := by
  rw [withOperands, ← h, modeOfBits_bits]

/-- A word decodes to CLR exactly by the bits under the mask. -/
theorem decode_eq_clr_iff {w : Word} : decode w = .ok .clr ↔ HasOp w 4 := by
  refine ⟨fun h => ?_, decode_of_clr⟩
  obtain ⟨h1, h0, ⟨-, h⟩ | ⟨-, h⟩ | ⟨-, h⟩ | ⟨hop, -⟩⟩ := decode_ok h
  case inr.inr.inr => exact ⟨h1, h0, hop⟩
  all_goals
    obtain ⟨m, -, h⟩ := withOperands_ok h
    cases h

/-- A word decodes to a command with operands exactly by the bits under the mask and the operand fields (30_encoding.md R87). -/
theorem decode_eq_instr_iff {w : Word} {op : AsmOp} {mode : Mode} {n ct : Nat} :
    decode w = .ok (op.instr mode n ct) ↔
      HasOp w (opCode op) ∧ mode.bits = modeField w ∧ n = (nField w).toNat ∧ ct = (ctField w).toNat := by
  constructor
  · intro h
    obtain ⟨h1, h0, ⟨hop, h⟩ | ⟨hop, h⟩ | ⟨hop, h⟩ | ⟨-, h⟩⟩ := decode_ok h
    case inr.inr.inr => exact absurd h (instr_ne_clr _ _ _ _)
    all_goals
      obtain ⟨m, hm, h⟩ := withOperands_ok h
      cases op <;> cases h
      exact ⟨⟨h1, h0, hop⟩, hm, rfl, rfl⟩
  · rintro ⟨h, hm, rfl, rfl⟩
    rw [decode_of_op h, withOperands_of_mode _ hm]

/-- The word of a command with operands decodes to it. -/
theorem decode_commandWord (op : AsmOp) (mode : Mode) {n ct : Nat} (h : operandsFit n ct) :
    decode (commandWord (BitVec.ofNat 9 ct) (BitVec.ofNat 8 n) mode.bits (opCode op)) = .ok (op.instr mode n ct) := by
  obtain ⟨hn, hct⟩ := h
  refine decode_eq_instr_iff.mpr ⟨⟨res1Field_commandWord .., res0Field_commandWord .., opField_commandWord ..⟩,
    (modeField_commandWord ..).symm, ?_, ?_⟩
  · rw [nField_commandWord, BitVec.toNat_ofNat, Nat.mod_eq_of_lt (by omega)]
  · rw [ctField_commandWord, BitVec.toNat_ofNat, Nat.mod_eq_of_lt (by omega)]

/-- Settles O2: the decoder reads back the fields the encoder puts together. -/
theorem decodeInvertsEncode : Obligations.DecodeInvertsEncode := by
  intro i hi
  obtain rfl | ⟨op, mode, n, ct, rfl⟩ := instr_cases i
  · exact decode_of_clr ⟨res1Field_commandWord .., res0Field_commandWord .., opField_commandWord ..⟩
  · rw [encode_instr]
    exact decode_commandWord op mode ((wellFormed_instr ..).mp hi)

/-! ### Words put together from their fields -/

/-- The six fields of a word are all its bits (30_encoding.md R80). -/
theorem word_eq_of_fields {w v : Word} (hop : opField w = opField v) (hmode : modeField w = modeField v) (hres0 : res0Field w = res0Field v)
    (hn : nField w = nField v) (hct : ctField w = ctField v) (hres1 : res1Field w = res1Field v) : w = v := by
  apply BitVec.eq_of_toNat_eq
  simp only [opField, modeField, res0Field, nField, ctField, res1Field, BitVec.toNat_eq, BitVec.extractLsb'_toNat,
    Nat.shiftRight_eq_div_pow] at *
  omega

theorem opField_and_mask (w : Word) : opField (w &&& 0xFE0000CF) = opField w := by
  rw [opField, BitVec.extractLsb'_and]
  exact BitVec.and_allOnes

theorem res0Field_and_mask (w : Word) : res0Field (w &&& 0xFE0000CF) = res0Field w := by
  rw [res0Field, BitVec.extractLsb'_and]
  exact BitVec.and_allOnes

theorem res1Field_and_mask (w : Word) : res1Field (w &&& 0xFE0000CF) = res1Field w := by
  rw [res1Field, BitVec.extractLsb'_and]
  exact BitVec.and_allOnes

/-- The operand fields lie outside the mask of the opcode map (30_encoding.md R86). -/
theorem operands_and_mask (w : Word) :
    modeField (w &&& 0xFE0000CF) = 0 ∧ nField (w &&& 0xFE0000CF) = 0 ∧ ctField (w &&& 0xFE0000CF) = 0 := by
  refine ⟨?_, ?_, ?_⟩
  · rw [modeField, BitVec.extractLsb'_and]
    exact BitVec.and_zero
  · rw [nField, BitVec.extractLsb'_and]
    exact BitVec.and_zero
  · rw [ctField, BitVec.extractLsb'_and]
    exact BitVec.and_zero

/-- A word is its fields put together, where the reserved ones are 0. -/
theorem commandWord_fields_eq {w : Word} {op : BitVec 4} (h : HasOp w op) :
    commandWord (ctField w) (nField w) (modeField w) op = w := by
  obtain ⟨h1, h0, rfl⟩ := h
  exact word_eq_of_fields (opField_commandWord ..) (modeField_commandWord ..) ((res0Field_commandWord ..).trans h0.symm)
    (nField_commandWord ..) (ctField_commandWord ..) ((res1Field_commandWord ..).trans h1.symm)

/-- The bits under the mask of the opcode map are the reserved fields and OP (30_encoding.md R86). -/
theorem and_mask_eq_iff {w : Word} {op : BitVec 4} : w &&& 0xFE0000CF = commandWord 0 0 0 op ↔ HasOp w op := by
  constructor
  · intro h
    refine ⟨?_, ?_, ?_⟩
    · rw [← res1Field_and_mask, h, res1Field_commandWord]
    · rw [← res0Field_and_mask, h, res0Field_commandWord]
    · rw [← opField_and_mask, h, opField_commandWord]
  · rintro ⟨h1, h0, rfl⟩
    obtain ⟨hmode, hn, hct⟩ := operands_and_mask w
    exact word_eq_of_fields ((opField_and_mask w).trans (opField_commandWord ..).symm) (hmode.trans (modeField_commandWord ..).symm)
      ((res0Field_and_mask w).trans (h0.trans (res0Field_commandWord ..).symm)) (hn.trans (nField_commandWord ..).symm)
      (hct.trans (ctField_commandWord ..).symm) ((res1Field_and_mask w).trans (h1.trans (res1Field_commandWord ..).symm))

/-- Settles O3: the fields the decoder reads make the word again, and the mask covers what a CLR word must hold. -/
theorem encodeInvertsDecode : Obligations.EncodeInvertsDecode := by
  intro w i hi
  obtain rfl | ⟨op, mode, n, ct, rfl⟩ := instr_cases i
  · exact ⟨rfl, fun h => absurd rfl h, fun _ => and_mask_eq_iff.mpr (decode_eq_clr_iff.mp hi)⟩
  · obtain ⟨hop, hmode, rfl, rfl⟩ := decode_eq_instr_iff.mp hi
    refine ⟨(wellFormed_instr ..).mpr ⟨by omega, by omega⟩, fun _ => ?_, fun h => absurd h (instr_ne_clr _ _ _ _)⟩
    rw [encode_instr, hmode, BitVec.ofNat_toNat, BitVec.ofNat_toNat, BitVec.setWidth_eq, BitVec.setWidth_eq, commandWord_fields_eq hop]

/-! ### The opcode map -/

/-- A word with a row's bits decodes to a command of the operation exactly where MODE is not 3 (30_encoding.md R86). -/
theorem exists_decode_instr_iff {w : Word} (op : AsmOp) :
    (∃ mode n ct, decode w = .ok (op.instr mode n ct)) ↔ HasOp w (opCode op) ∧ modeField w ≠ 3 := by
  simp only [decode_eq_instr_iff, exists_and_left, exists_eq, and_true, exists_mode_bits]

/-- The row of a command with operands. -/
theorem matchesWord_operands_iff {w : Word} {mnemonic : String} (op : AsmOp) :
    OpcodeRow.matchesWord ⟨mnemonic, commandWord 0 0 0 (opCode op), 0xFE0000CF, fun m => m != 3⟩ w = true ↔
      ∃ mode n ct, decode w = .ok (op.instr mode n ct) := by
  rw [exists_decode_instr_iff, OpcodeRow.matchesWord, Bool.and_eq_true, beq_iff_eq, and_mask_eq_iff, bne_iff_ne]

/-- CLR's row. -/
theorem matchesWord_clr_iff {w : Word} {mnemonic : String} :
    OpcodeRow.matchesWord ⟨mnemonic, commandWord 0 0 0 4, 0xFE0000CF, fun _ => true⟩ w = true ↔ decode w = .ok .clr := by
  rw [decode_eq_clr_iff, OpcodeRow.matchesWord, Bool.and_true, beq_iff_eq, and_mask_eq_iff]

theorem mnemonic_instr_iff {i : Instr} (op : AsmOp) :
    i.mnemonic = (op.instr .std 0 0).mnemonic ↔ ∃ mode n ct, i = op.instr mode n ct := by
  cases op <;> cases i <;> simp [Instr.mnemonic, AsmOp.instr]

theorem mnemonic_clr_iff {i : Instr} : i.mnemonic = "CLR" ↔ i = .clr := by
  cases i <;> simp [Instr.mnemonic]

/-- A word decodes to a command of an operation's mnemonic exactly where it decodes to one of its commands. -/
theorem exists_decode_mnemonic_iff {w : Word} (op : AsmOp) :
    (∃ i, decode w = .ok i ∧ i.mnemonic = (op.instr .std 0 0).mnemonic) ↔ ∃ mode n ct, decode w = .ok (op.instr mode n ct) := by
  simp only [mnemonic_instr_iff]
  constructor
  · rintro ⟨_, h, mode, n, ct, rfl⟩
    exact ⟨mode, n, ct, h⟩
  · rintro ⟨mode, n, ct, h⟩
    exact ⟨_, h, mode, n, ct, rfl⟩

/-- Each row's words are those that decode to a command of its mnemonic. -/
theorem matchesWord_iff {w : Word} {r : OpcodeRow} (hr : r ∈ opcodeMap) :
    r.matchesWord w = true ↔ ∃ i, decode w = .ok i ∧ i.mnemonic = r.mnemonic := by
  simp only [opcodeMap, List.mem_cons, List.not_mem_nil, or_false] at hr
  obtain rfl | rfl | rfl | rfl := hr
  · exact (matchesWord_operands_iff .acct).trans (exists_decode_mnemonic_iff .acct).symm
  · exact (matchesWord_operands_iff .enc).trans (exists_decode_mnemonic_iff .enc).symm
  · exact (matchesWord_operands_iff .dec).trans (exists_decode_mnemonic_iff .dec).symm
  · simp only [mnemonic_clr_iff, exists_eq_right]
    exact matchesWord_clr_iff

/-- Settles O4: a row's mask and pattern fix the fields that `decode` branches on. -/
theorem opcodeMapAgreesWithDecode : Obligations.OpcodeMapAgreesWithDecode := by
  refine ⟨fun w r hr => matchesWord_iff hr, fun w mode n ct h => ?_, fun mode n ct ct' h => ?_⟩
  · obtain h | h | h := h
    · exact (decode_eq_instr_iff (op := .acct).mp h).2
    · exact (decode_eq_instr_iff (op := .enc).mp h).2
    · exact (decode_eq_instr_iff (op := .dec).mp h).2
  · cases mode with
    | std | rlx => rfl
    | exp => exact absurd rfl h

/-! ### The illegal words -/

/-- A word has a command exactly by its reserved fields, OP and MODE (30_encoding.md R87). -/
theorem exists_decode_iff {w : Word} : (∃ i, decode w = .ok i) ↔ res1Field w = 0 ∧ res0Field w = 0 ∧
    (opField w = 4 ∨ (opField w = 1 ∨ opField w = 2 ∨ opField w = 3) ∧ modeField w ≠ 3) := by
  constructor
  · rintro ⟨i, hi⟩
    obtain rfl | ⟨op, mode, n, ct, rfl⟩ := instr_cases i
    · obtain ⟨h1, h0, hop⟩ := decode_eq_clr_iff.mp hi
      exact ⟨h1, h0, .inl hop⟩
    · obtain ⟨⟨h1, h0, hop⟩, hmode⟩ := (exists_decode_instr_iff op).mp ⟨mode, n, ct, hi⟩
      exact ⟨h1, h0, .inr ⟨by cases op <;> simp [hop, opCode], hmode⟩⟩
  · have operands (op : AsmOp) (h1 : res1Field w = 0) (h0 : res0Field w = 0) (hop : opField w = opCode op) (hmode : modeField w ≠ 3) :
        ∃ i, decode w = .ok i := by
      obtain ⟨mode, n, ct, h⟩ := (exists_decode_instr_iff op).mpr ⟨⟨h1, h0, hop⟩, hmode⟩
      exact ⟨_, h⟩
    rintro ⟨h1, h0, hop | ⟨hop | hop | hop, hmode⟩⟩
    · exact ⟨_, decode_of_clr ⟨h1, h0, hop⟩⟩
    · exact operands .acct h1 h0 hop hmode
    · exact operands .enc h1 h0 hop hmode
    · exact operands .dec h1 h0 hop hmode

theorem exists_error_iff {α : Type} (x : Except Illegal α) : (∃ e, x = .error e) ↔ ¬∃ a, x = .ok a := by
  cases x <;> simp

/-- OP and MODE name no command exactly in the cases (a) and (d) of 30_encoding.md R88. -/
theorem illegal_op_iff (op : BitVec 4) (mode : BitVec 2) :
    ¬(op = 4 ∨ (op = 1 ∨ op = 2 ∨ op = 3) ∧ mode ≠ 3) ↔
      (op = 0 ∨ 5 ≤ op.toNat) ∨ (op = 1 ∨ op = 2 ∨ op = 3) ∧ mode = 3 := by
  revert op mode
  decide

/-- Settles O5: the words with no command are the complement of those with one. -/
theorem illegalWordsExactly : Obligations.IllegalWordsExactly := by
  intro w
  rw [exists_error_iff, exists_decode_iff, not_and_or, not_and_or, illegal_op_iff]
  constructor
  · rintro (h1 | h0 | hop | hmode)
    · exact .inr (.inr (.inl h1))
    · exact .inr (.inl h0)
    · exact .inl hop
    · exact .inr (.inr (.inr hmode))
  · rintro (hop | h0 | h1 | hmode)
    · exact .inr (.inr (.inl hop))
    · exact .inr (.inl h0)
    · exact .inl h1
    · exact .inr (.inr (.inr hmode))

end Sys2Proof.Proofs
end

section
/-! PROOFS. The text of a command word: the assembler reads what the disassembler prints (30_encoding.md R90, R93). -/

namespace Sys2Proof.Proofs

open Sys2Proof.Machine

/-! ### Numbers -/

/-- Every character of a text that reads as digits is a digit. -/
theorem digitValue_ne_none_of_digitsFrom {base acc v : Nat} {cs : List Char} (h : digitsFrom base acc cs = some v) {ch : Char}
    (hch : ch ∈ cs) : digitValue ch ≠ none := by
  induction cs generalizing acc with
  | nil => cases hch
  | cons c rest ih =>
    rw [digitsFrom] at h
    split at h
    case h_2 => cases h
    case h_1 d hd =>
      split at h
      case isFalse => cases h
      case isTrue =>
        obtain rfl | hch := List.mem_cons.mp hch
        · simp [hd]
        · exact ih h hch

theorem digitsFrom_cons {base acc d : Nat} {ch : Char} {rest : List Char} (hd : digitValue ch = some d) (hlt : d < base) :
    digitsFrom base acc (ch :: rest) = digitsFrom base (base * acc + d) rest := by
  rw [digitsFrom, hd]
  exact if_pos hlt

theorem digitValue_of_isDigit {ch : Char} (h : ch.isDigit = true) :
    digitValue ch = some (ch.toNat - '0'.toNat) ∧ ch.toNat - '0'.toNat < 10 := by
  have hr : 48 ≤ ch.toNat ∧ ch.toNat ≤ 57 := by
    simpa [Char.isDigit, UInt32.le_iff_toNat_le] using h
  exact ⟨if_pos hr, by simp; omega⟩

/-- Decimal digits read as the library reads them. -/
theorem digitsFrom_ten {cs : List Char} (h : ∀ ch ∈ cs, ch.isDigit = true) (acc : Nat) :
    digitsFrom 10 acc cs = some (Nat.ofDigitChars 10 cs acc) := by
  induction cs generalizing acc with
  | nil => rfl
  | cons ch rest ih =>
    obtain ⟨hd, hlt⟩ := digitValue_of_isDigit (h ch List.mem_cons_self)
    rw [digitsFrom_cons hd hlt, ih fun c hc => h c (List.mem_cons_of_mem _ hc), Nat.ofDigitChars_cons]

theorem digitsFrom_decimalText (n : Nat) : digitsFrom 10 0 (decimalText n) = some n := by
  rw [decimalText, digitsFrom_ten fun ch => Nat.isDigit_of_mem_toDigits (by decide) (by decide), Nat.ofDigitChars_ten_toDigits]

theorem digitValue_hexDigit : ∀ d < 16, digitValue (hexDigit d) = some d := by decide

/-- The last `k` hexadecimal digits of `x`, read after the value `acc`. -/
theorem digitsFrom_hexDigits (x k acc : Nat) :
    digitsFrom 16 acc ((List.range k).map fun j => hexDigit (x / 16 ^ (k - 1 - j) % 16)) = some (16 ^ k * acc + x % 16 ^ k) := by
  induction k generalizing acc with
  | zero => simp [digitsFrom, Nat.mod_one]
  | succ k ih =>
    have hd := Nat.mod_lt (x / 16 ^ k) (show 16 > 0 by decide)
    have htail : (fun j => hexDigit (x / 16 ^ (k + 1 - 1 - j) % 16)) ∘ Nat.succ = fun j => hexDigit (x / 16 ^ (k - 1 - j) % 16) := by
      funext j
      simp only [Function.comp_apply, Nat.add_sub_cancel, Nat.succ_eq_add_one, Nat.sub_add_eq, Nat.sub_right_comm]
    rw [List.range_succ_eq_map, List.map_cons, List.map_map, htail, Nat.add_sub_cancel, Nat.sub_zero,
      digitsFrom_cons (digitValue_hexDigit _ hd) hd, ih, Nat.pow_succ, Nat.mod_mul]
    congr 1
    ring

theorem digitsFrom_hexText (w : Word) : digitsFrom 16 0 (hexText w) = some w.toNat := by
  refine (digitsFrom_hexDigits w.toNat 8 0).trans ?_
  rw [Nat.mul_zero, Nat.zero_add, Nat.mod_eq_of_lt (by omega)]

/-- A text that the assembler reads as one number, with no separator in it. -/
structure NumberText (t : List Char) (v : Nat) : Prop where
  parse : parseNumber t = some v
  ne_nil : t ≠ []
  no_comma : ',' ∉ t
  no_space : ' ' ∉ t

theorem numberText_decimal (n : Nat) : NumberText (decimalText n) n where
  parse := by
    have h := digitsFrom_decimalText n
    rw [parseNumber.eq_def]
    split
    · rename_i hnil
      exact absurd hnil Nat.toDigits_ne_nil
    · rename_i ds hx
      exact absurd (by decide) (digitValue_ne_none_of_digitsFrom h (ch := 'x') (by simp [hx]))
    · exact h
  ne_nil := Nat.toDigits_ne_nil
  no_comma h := digitValue_ne_none_of_digitsFrom (digitsFrom_decimalText n) h (by decide)
  no_space h := digitValue_ne_none_of_digitsFrom (digitsFrom_decimalText n) h (by decide)

theorem numberText_hex (w : Word) : NumberText ("0x".toList ++ hexText w) w.toNat where
  parse := digitsFrom_hexText w
  ne_nil := nofun
  no_comma h := (List.mem_append.mp h).elim (by decide) fun h => digitValue_ne_none_of_digitsFrom (digitsFrom_hexText w) h (by decide)
  no_space h := (List.mem_append.mp h).elim (by decide) fun h => digitValue_ne_none_of_digitsFrom (digitsFrom_hexText w) h (by decide)

/-! ### Spaces and commas -/

/-- A text with no space at its ends. -/
def Trimmed (cs : List Char) : Prop := cs.head? ≠ some ' ' ∧ cs.getLast? ≠ some ' '

theorem dropWhile_space_of_head {cs : List Char} (h : cs.head? ≠ some ' ') : cs.dropWhile (· == ' ') = cs := by
  cases cs with
  | nil => rfl
  | cons c cs => exact List.dropWhile_cons_of_neg (by simpa using h)

theorem trimSpaces_of_trimmed {cs : List Char} (h : Trimmed cs) : trimSpaces cs = cs := by
  obtain ⟨hhead, hlast⟩ := h
  rw [trimSpaces, dropWhile_space_of_head hhead, dropWhile_space_of_head (by rwa [List.head?_reverse]), List.reverse_reverse]

theorem trimSpaces_space_cons (cs : List Char) : trimSpaces (' ' :: cs) = trimSpaces cs := rfl

theorem trimmed_of_no_space {cs : List Char} (h : ' ' ∉ cs) : Trimmed cs :=
  ⟨fun hh => h (List.mem_of_head? hh), fun hl => h (List.mem_of_getLast? hl)⟩

theorem trimmed_append {a b : List Char} (m : List Char) (ha : Trimmed a) (hb : Trimmed b) (hna : a ≠ []) (hnb : b ≠ []) :
    Trimmed (a ++ (m ++ b)) := by
  have hlast : (a ++ (m ++ b)).getLast? = b.getLast? := by
    rw [List.getLast?_append_of_ne_nil _ (by simp [hnb]), List.getLast?_append_of_ne_nil _ hnb]
  exact ⟨by rw [List.head?_append_of_ne_nil _ hna]; exact ha.1, hlast ▸ hb.2⟩

/-- A line is its first word and the rest, where each stands without spaces around it. -/
theorem splitWord_append {word rest : List Char} (hword : ' ' ∉ word) (hw : word ≠ []) (hrest : Trimmed rest) (hr : rest ≠ []) :
    splitWord (word ++ ' ' :: rest) = (word, rest) := by
  have htrim : trimSpaces (word ++ ' ' :: rest) = word ++ ' ' :: rest :=
    trimSpaces_of_trimmed (trimmed_append [' '] (trimmed_of_no_space hword) hrest hw hr)
  have hall : ∀ c ∈ word, (c != ' ') = true := fun c hc => bne_iff_ne.mpr fun h => hword (h ▸ hc)
  simp [splitWord, htrim, List.takeWhile_append_of_pos hall, List.dropWhile_append_of_pos hall, trimSpaces_space_cons,
    trimSpaces_of_trimmed hrest]

theorem NumberText.trimmed {t : List Char} {v : Nat} (h : NumberText t v) : Trimmed t := trimmed_of_no_space h.no_space

theorem parseNumbers_one {t : List Char} {v : Nat} (h : NumberText t v) : parseNumbers t = some [v] := by
  have htexts : operandTexts t = [t] := by
    rw [operandTexts, if_neg (by simpa using h.ne_nil), List.splitOn_eq_singleton h.no_comma, List.map_singleton,
      trimSpaces_of_trimmed h.trimmed]
  simp [parseNumbers, htexts, h.parse]

theorem parseNumbers_two {t t' : List Char} {v v' : Nat} (h : NumberText t v) (h' : NumberText t' v') :
    parseNumbers (t ++ (", ".toList ++ t')) = some [v, v'] := by
  have hcomma : ',' ∉ ' ' :: t' := by simpa using h'.no_comma
  have hsplit : (t ++ (", ".toList ++ t')).splitOn ',' = [t, ' ' :: t'] :=
    (List.splitOn_append_cons_self_of_not_mem h.no_comma _).trans (congrArg _ (List.splitOn_eq_singleton hcomma))
  have htexts : operandTexts (t ++ (", ".toList ++ t')) = [t, t'] := by
    rw [operandTexts, if_neg (by simp [h.ne_nil]), hsplit, List.map_cons, List.map_singleton, trimSpaces_space_cons,
      trimSpaces_of_trimmed h.trimmed, trimSpaces_of_trimmed h'.trimmed]
  rw [parseNumbers, htexts]
  simp [h.parse, h'.parse]

/-! ### A command with operands -/

/-- The suffix of a mnemonic, without the dot (30_encoding.md R82). -/
def suffixText : Mode → List Char
  | .std => "std".toList
  | .rlx => "rlx".toList
  | .exp => "exp".toList

/-- A mnemonic with its suffix (30_encoding.md R90). -/
def mnemonicText (op : AsmOp) (mode : Mode) : List Char := op.text ++ '.' :: suffixText mode

/-- The CT that is printed (30_encoding.md R90). -/
def printedCt (mode : Mode) (ct : Nat) : Option Nat := if mode = .exp ∨ ct ≠ 0 then some ct else none

/-- The operands as text. -/
def operandsText (n : Nat) : Option Nat → List Char
  | none => decimalText n
  | some ct => decimalText n ++ (", ".toList ++ decimalText ct)

theorem commandText_eq (op : AsmOp) (mode : Mode) (n ct : Nat) :
    commandText op mode n ct = mnemonicText op mode ++ ' ' :: operandsText n (printedCt mode ct) := by
  have hmode : modeText mode = '.' :: suffixText mode ++ [' '] := by cases mode <;> rfl
  rw [commandText, mnemonicText, printedCt, hmode]
  split <;> simp [operandsText]

theorem asmOpOfText_text (op : AsmOp) : asmOpOfText op.text = some op := by cases op <;> decide

theorem modeOfText_suffixText (mode : Mode) : modeOfText (suffixText mode) = some mode := by cases mode <;> decide

theorem splitOn_mnemonicText (op : AsmOp) (mode : Mode) : (mnemonicText op mode).splitOn '.' = [op.text, suffixText mode] := by
  have hop : '.' ∉ op.text := by cases op <;> decide
  have hmode : '.' ∉ suffixText mode := by cases mode <;> decide
  rw [mnemonicText, List.splitOn_append_cons_self_of_not_mem hop, List.splitOn_eq_singleton hmode]

theorem space_not_mem_mnemonicText (op : AsmOp) (mode : Mode) : ' ' ∉ mnemonicText op mode := by
  have hop : ' ' ∉ op.text := by cases op <;> decide
  have hmode : ' ' ∉ suffixText mode := by cases mode <;> decide
  simp [mnemonicText, hop, hmode]

theorem trimmed_operandsText (n : Nat) (ct : Option Nat) : Trimmed (operandsText n ct) := by
  cases ct with
  | none => exact (numberText_decimal n).trimmed
  | some ct =>
    exact trimmed_append _ (numberText_decimal n).trimmed (numberText_decimal ct).trimmed (numberText_decimal n).ne_nil
      (numberText_decimal ct).ne_nil

theorem operandsText_ne_nil (n : Nat) (ct : Option Nat) : operandsText n ct ≠ [] := by
  cases ct <;> simp [operandsText, (numberText_decimal n).ne_nil]

/-- The assembler reads a mnemonic and its operands. -/
theorem parseAsm_command (op : AsmOp) (mode : Mode) (n : Nat) (ct : Option Nat) :
    parseAsm (mnemonicText op mode ++ ' ' :: operandsText n ct) = some (.cmd op mode n ct) := by
  have hclr : mnemonicText op mode ≠ "clr".toList := by cases op <;> simp [mnemonicText, AsmOp.text]
  have hillegal : mnemonicText op mode ≠ ".illegal".toList := by cases op <;> simp [mnemonicText, AsmOp.text]
  rw [parseAsm, splitWord_append (space_not_mem_mnemonicText op mode) (by simp [mnemonicText]) (trimmed_operandsText n ct)
    (operandsText_ne_nil n ct)]
  simp only [hclr, hillegal, if_false, splitOn_mnemonicText, asmOpOfText_text, modeOfText_suffixText]
  cases ct with
  | none => simp only [operandsText, parseNumbers_one (numberText_decimal n)]
  | some ct => simp only [operandsText, parseNumbers_two (numberText_decimal n) (numberText_decimal ct)]

/-- A line with the printed CT is the command's word (30_encoding.md R90). -/
theorem assembleLine_printedCt (op : AsmOp) (mode : Mode) {n ct : Nat} (h : operandsFit n ct) :
    assembleLine (.cmd op mode n (printedCt mode ct)) = some (encode (op.instr mode n ct)) := by
  obtain ⟨hn, hct⟩ := h
  have hget : (printedCt mode ct).getD 0 = ct := by
    rw [printedCt]
    split
    · rfl
    · next h => exact (not_not.mp (not_or.mp h).2).symm
  rw [assembleLine, hget, if_pos ⟨hn, hct, fun hm => by simp [printedCt, hm]⟩]

theorem assembleText_commandText (op : AsmOp) (mode : Mode) {n ct : Nat} (h : operandsFit n ct) :
    assembleText (commandText op mode n ct) = some (encode (op.instr mode n ct)) := by
  rw [assembleText, commandText_eq, parseAsm_command]
  exact assembleLine_printedCt op mode h

theorem disassemble_instr {w : Word} {op : AsmOp} {mode : Mode} {n ct : Nat} (h : decode w = .ok (op.instr mode n ct)) :
    disassemble w = commandText op mode n ct := by
  rw [disassemble, h]
  cases op <;> rfl

/-! ### An illegal word -/

/-- The assembler reads the directive of an illegal word (log 11). -/
theorem assembleText_illegal {w : Word} {e : Illegal} (h : decode w = .error e) :
    assembleText (".illegal 0x".toList ++ hexText w) = some w := by
  have hnumber := numberText_hex w
  have hsplit : splitWord (".illegal".toList ++ ' ' :: ("0x".toList ++ hexText w)) = (".illegal".toList, "0x".toList ++ hexText w) :=
    splitWord_append (by decide) (by decide) hnumber.trimmed hnumber.ne_nil
  have hparse : parseAsm (".illegal 0x".toList ++ hexText w) = some (.illegal w.toNat) := by
    change parseAsm (".illegal".toList ++ ' ' :: ("0x".toList ++ hexText w)) = _
    rw [parseAsm, hsplit]
    simp only [parseNumbers_one hnumber]
    rfl
  rw [assembleText, hparse]
  simp [assembleLine, h, w.isLt]

/-- Settles O6: the printed text of a word reads as the line that stands for it. -/
theorem assembleInvertsDisassemble : Obligations.AssembleInvertsDisassemble := by
  refine fun w => ⟨fun hclr => ?_, fun hclr => by rw [disassemble, hclr]⟩
  cases hd : decode w with
  | error e => rw [disassemble, hd]; exact assembleText_illegal hd
  | ok i =>
    obtain rfl | ⟨op, mode, n, ct, rfl⟩ := instr_cases i
    · exact absurd hd hclr
    · obtain ⟨hwf, hencode, -⟩ := encodeInvertsDecode w _ hd
      rw [disassemble_instr hd, assembleText_commandText op mode ((wellFormed_instr ..).mp hwf), hencode (instr_ne_clr _ _ _ _)]

/-- Settles O1: each example is evaluated. -/
theorem encodingExamples : Obligations.EncodingExamples := by
  unfold Obligations.EncodingExamples
  decide

end Sys2Proof.Proofs
end

section
/-! PROOFS. Runs of `wait` and of `run X`: the completion that falls within the loop, and the STATUS read that ends it (30_encoding.md R92,
70_reset_and_hazards.md R243). -/

namespace Sys2Proof.Proofs

open Sys2Proof.Machine

/-! ### The same block completes to the same block -/

theorem sameBlock_trans {s t u : State} (h : SameBlock s t) (h' : SameBlock t u) : SameBlock s u := by
  obtain ⟨⟨hent, hidx, hdigest, hlen⟩, hresult, hstatus, hcmdl⟩ := h
  obtain ⟨⟨hent', hidx', hdigest', hlen'⟩, hresult', hstatus', hcmdl'⟩ := h'
  exact ⟨⟨hent'.trans hent, hidx'.trans hidx, hdigest'.trans hdigest, hlen'.trans hlen⟩, hresult'.trans hresult, hstatus'.trans hstatus,
    hcmdl'.trans hcmdl⟩

/-- A completion is a function of the block (10_state.md R40). -/
theorem complete_sameBlock {s t u : State} (h : SameBlock s t) (hcalls : t.hashCalls = s.hashCalls) (hu : complete s = .next u) :
    ∃ v, complete t = .next v ∧ SameBlock u v := by
  obtain ⟨hbuf, hresult, hstatus, hcmdl⟩ := h
  have ht : t = withHostSide s t := eq_withHostSide hbuf hresult hcmdl hcalls (viol := s.status.busyViol) hstatus
  obtain ⟨-, -, -, -, hviol, -⟩ := complete_frame hu
  refine ⟨withHostSide u t, ?_, ⟨rfl, rfl, rfl, rfl⟩, rfl, ?_, rfl⟩
  · rw [ht]
    exact complete_of_completes (completes_withHostSide t (complete_eq_next_iff.mp hu))
  · simp only [withHostSide, hstatus, ← hviol]

/-! ### The loop -/

/-- From `s` a run ends with the script over, the block of `u`, and STATUS as the last response. -/
def EndsWith (u s : State) : Prop :=
  ∃ k t rs, core.run k s = .next t ∧ t.script = [] ∧ SameBlock u t ∧ t.replies = ⟨false, statusWord u.status⟩ :: rs

theorem endsWith_of_step {u s t : State} (hstep : step s = .next t) (h : EndsWith u t) : EndsWith u s := by
  obtain ⟨k, v, rs, hrun, h⟩ := h
  exact ⟨k + 1, v, rs, (run_succ k hstep).trans hrun, h⟩

theorem endsWith_of_sameBlock {u v s : State} (huv : SameBlock u v) (h : EndsWith v s) : EndsWith u s := by
  obtain ⟨k, t, rs, hrun, hscript, hvt, hreplies⟩ := h
  have ⟨_, _, hstatus, _⟩ := huv
  exact ⟨k, t, rs, hrun, hscript, sameBlock_trans huv hvt, hstatus ▸ hreplies⟩

section
variable {s : State}

/-- While idle the loop is one read of STATUS (30_encoding.md R92). -/
theorem endsWith_wait_idle (he : ErrLegal s) (hb : s.status.busy = false) (hs : s.script = [.wait]) : EndsWith s s := by
  have hturn : hostTurn s = memRead 0x04 .word (takeEvent [] s) := by
    rw [hostTurn_eq_hostEvent hs, hostEvent, pollStatus_continue, takeEvent_status, if_neg (by simp [hb])]
  have hstep := step_of_hostTurn he (sequencerTurn_idle hb)
  rw [hturn] at hstep
  refine ⟨1, _, s.replies, run_succ 0 hstep, rfl, ⟨⟨rfl, rfl, rfl, rfl⟩, rfl, rfl, rfl⟩, ?_⟩
  rw [memRead_replies, readReply_status]
  rfl

/-- While BUSY each round is one host transaction, until the completion step is due (70_reset_and_hazards.md R243, log 2). -/
theorem endsWith_wait_busy {u : State} (he : ErrLegal s) (hb : s.status.busy = true) (hp : s.hashPort = .answering)
    (hs : s.script = [.wait]) (hu : complete s = .next u) : EndsWith u s := by
  induction hd : s.delay generalizing s u with
  | zero =>
    have hstep := (step_of_sequencerTurn he (sequencerTurn_of_ready hb (.inr hd) hp)).trans hu
    obtain ⟨⟨hscript, -⟩, -, hbusy, -, -, herr⟩ := complete_frame hu
    exact endsWith_of_step hstep (endsWith_wait_idle herr hbusy (hscript.trans hs))
  | succ d ih =>
    have hlate : sequencerTurn s = false := by simp [sequencerTurn, hs, hd]
    have hturn : hostTurn s = { memRead 0x04 .word (takeEvent [] s) with script := [.wait] } := by
      rw [hostTurn_eq_hostEvent hs, hostEvent, pollStatus_continue, takeEvent_status, if_pos hb]
      rfl
    have hstep := step_of_hostTurn he hlate
    rw [hturn] at hstep
    obtain ⟨v, hv, huv⟩ := complete_sameBlock (s := s) (t := { memRead 0x04 .word (takeEvent [] s) with script := [.wait] })
      ⟨⟨rfl, rfl, rfl, rfl⟩, rfl, rfl, rfl⟩ rfl hu
    exact endsWith_of_step hstep (endsWith_of_sameBlock huv (ih he hb hp rfl hv (congrArg (· - 1) hd)))

/-- The loop ends with the block idle. -/
theorem exists_endsWith_wait (he : ErrLegal s) (hp : s.hashPort = .answering) (hs : s.script = [.wait]) :
    ∃ u, u.status.busy = false ∧ EndsWith u s := by
  cases hb : s.status.busy with
  | false => exact ⟨s, hb, endsWith_wait_idle he hb hs⟩
  | true =>
    obtain ⟨u, hu, -, -, hbusy, -⟩ := complete_next s
    exact ⟨u, hbusy, endsWith_wait_busy he hb hp hs hu⟩

end

/-- Settles O56: the loop ends with the read of STATUS that shows BUSY = 0. -/
theorem waitTerminates : Obligations.WaitTerminates := by
  intro s he hp hs
  obtain ⟨u, hbusy, k, t, rs, hrun, hscript, ⟨-, -, hstatus, -⟩, hreplies⟩ := exists_endsWith_wait he hp hs
  refine ⟨k, t, _, rs, hrun, hscript, hstatus ▸ hbusy, hreplies, rfl, by rw [hstatus], ?_⟩
  rw [statusWord_busy, hbusy]

/-- Settles O57: the issue is accepted and the loop then waits for its completion. -/
theorem runCommandCompletes : Obligations.RunCommandCompletes := by
  intro s w he hb hp hs
  obtain ⟨u, hu, -, hcmdl, hbusy, -⟩ := complete_next (s.accept w)
  have hturn : hostTurn s = ((takeEvent [.wait] s).accept w).respond ⟨false, 0⟩ := by
    rw [hostTurn_eq_hostEvent hs]
    exact hostEvent_cmd_idle w hb
  have hstep := step_of_hostTurn he (sequencerTurn_idle hb)
  rw [hturn] at hstep
  obtain ⟨v, hv, huv⟩ := complete_sameBlock (s := s.accept w) (t := ((takeEvent [.wait] s).accept w).respond ⟨false, 0⟩)
    ⟨⟨rfl, rfl, rfl, rfl⟩, rfl, rfl, rfl⟩ rfl hu
  obtain ⟨k, t, rs, hrun, hscript, hblock, hreplies⟩ :=
    endsWith_of_step hstep (endsWith_of_sameBlock huv (endsWith_wait_busy (Nat.zero_le 4) rfl hp rfl hv))
  have ⟨_, _, _, hcmdl'⟩ := hblock
  refine ⟨k, t, u, rs, hu, hrun, hscript, hblock, hcmdl'.trans hcmdl, hreplies, ?_⟩
  rw [statusWord_busy, hbusy]

end Sys2Proof.Proofs
end

section
/-! PROOFS. The streaming packer gives the groups of the packed string (40_encode.md R106). -/

namespace Sys2Proof.Proofs

open Sys2Proof.Machine

/-! ### The value of a string under shifts and masks -/

theorem bitVal_shiftLeft_or (a b : List Bool) : bitVal a <<< b.length ||| bitVal b = bitVal (a ++ b) := by
  rw [← Nat.shiftLeft_add_eq_or_of_lt (bitVal_lt b), bitVal_append, Nat.shiftLeft_eq]

theorem bitVal_append_shiftRight (a b : List Bool) : bitVal (a ++ b) >>> b.length = bitVal a := by
  rw [bitVal_append, Nat.shiftRight_eq_div_pow, Nat.mul_comm, Nat.mul_add_div (Nat.two_pow_pos _), Nat.div_eq_of_lt (bitVal_lt b),
    Nat.add_zero]

theorem bitVal_append_and (a b : List Bool) : bitVal (a ++ b) &&& (1 <<< b.length - 1) = bitVal b := by
  rw [bitVal_append, Nat.one_shiftLeft, Nat.and_two_pow_sub_one_eq_mod, Nat.mul_add_mod_self_right, Nat.mod_eq_of_lt (bitVal_lt b)]

theorem bitVal_byteBits (b : Byte) : bitVal (byteBits b) = b.toNat := by
  have hlt : bitVal (byteBits b) < 2 ^ 8 := by simpa using bitVal_lt (byteBits b)
  have h := congrArg BitVec.toNat (ofNat_bitVal_byteBits b)
  rwa [BitVec.toNat_ofNat, Nat.mod_eq_of_lt hlt] at h

theorem bitVal_take_byteBits (b : Byte) (m : Nat) : bitVal ((byteBits b).take m) = b.toNat >>> (8 - m) := by
  have h := bitVal_append_shiftRight ((byteBits b).take m) ((byteBits b).drop m)
  rwa [List.take_append_drop, bitVal_byteBits, List.length_drop, length_byteBits, eq_comm] at h

/-! ### Groups of a string in two parts -/

theorem groupIndices_append_left {a : List Bool} {q : Nat} (h : 11 * q ≤ a.length) (b : List Bool) :
    groupIndices (a ++ b) q = groupIndices a q := by
  refine List.map_congr_left fun k hk => ?_
  rw [bitSlice_append_left (by have := List.mem_range.mp hk; omega)]

theorem groupIndices_append {a : List Bool} {q : Nat} (h : a.length = 11 * q) (b : List Bool) (r : Nat) :
    groupIndices (a ++ b) (q + r) = groupIndices a q ++ groupIndices b r := by
  rw [← groupIndices_append_left h.ge b]
  simp only [groupIndices, List.range_add, List.map_append, List.map_map]
  congr 1
  refine List.map_congr_left fun k _ => ?_
  have hdrop : (a ++ b).drop (11 * (q + k)) = b.drop (11 * k) := by
    rw [Nat.mul_add, ← h, List.drop_append, List.drop_eq_nil_of_le (Nat.le_add_right ..), Nat.add_sub_cancel_left, List.nil_append]
  simp only [Function.comp_apply, bitSlice, hdrop, Nat.add_sub_cancel_left]

theorem groupIndices_one {g : List Bool} (h : g.length = 11) : groupIndices g 1 = [BitVec.ofNat 16 (bitVal g)] := by
  simp [groupIndices, bitSlice, ← h]

theorem bitSlice_append_length (a b : List Bool) (i : Nat) : bitSlice (a ++ b) i a.length = a.drop i := by
  rw [bitSlice_append_left le_rfl, bitSlice, List.take_of_length_le List.length_drop.le]

/-! ### The feeds as strings -/

/-- The strings the packer is fed, one for each feed: the entropy bytes, then the digest bytes as far as the checksum goes. -/
def packChunks (x : List Byte) (d : Digest) (c : Nat) : List (List Bool) :=
  x.map byteBits ++ (List.range ((c + 7) / 8)).map fun t => (byteBits (d.toList.getD t 0)).take (c - 8 * t)

/-- A string as a feed: its value and its number of bits. -/
def feedOf (bits : List Bool) : Nat × Nat := (bitVal bits, bits.length)

theorem packFeeds_eq (x : List Byte) (d : Digest) (c : Nat) : packFeeds x d c = (packChunks x d c).map feedOf := by
  have hbyte (b : Byte) : feedOf (byteBits b) = (b.toNat, 8) := by simp [feedOf, bitVal_byteBits]
  have hpart (b : Byte) (m : Nat) : feedOf ((byteBits b).take m) = (b.toNat >>> (8 - min 8 m), min 8 m) := by
    rw [feedOf, bitVal_take_byteBits, List.length_take, length_byteBits, Nat.min_comm m,
      show 8 - m = 8 - min 8 m by omega]
  simp only [packFeeds, packChunks, List.map_append, List.map_map, Function.comp_def, hbyte, hpart]

/-- The bytes that the first c bits reach, the last one cut off after them, make these bits. -/
theorem flatten_take_byteBits (l : List Byte) {c : Nat} (h : c ≤ 8 * l.length) :
    ((List.range ((c + 7) / 8)).map fun t => (byteBits (l.getD t 0)).take (c - 8 * t)).flatten = (bitsOf l).take c := by
  induction l generalizing c with
  | nil =>
    obtain rfl : c = 0 := by simpa using h
    rfl
  | cons b l ih =>
    rcases Nat.eq_zero_or_pos c with rfl | hc
    · rfl
    have hcount : (c + 7) / 8 = (c - 8 + 7) / 8 + 1 := by omega
    have hrest (t : Nat) : c - 8 * (t + 1) = c - 8 - 8 * t := by omega
    have hl : c - 8 ≤ 8 * l.length := by rw [List.length_cons] at h; omega
    rw [bitsOf_cons, List.take_append, length_byteBits, ← ih hl, hcount, List.range_succ_eq_map]
    simp [Function.comp_def, hrest]

theorem flatten_packChunks (x : List Byte) (d : Digest) {c : Nat} (hc : c ≤ 256) : (packChunks x d c).flatten = packedBits x d c := by
  rw [packChunks, List.flatten_append, flatten_take_byteBits d.toList (by simpa using hc)]
  rfl

theorem length_le_of_mem_packChunks {x : List Byte} {d : Digest} {c : Nat} {bits : List Bool} (h : bits ∈ packChunks x d c) :
    bits.length ≤ 8 := by
  simp only [packChunks, List.mem_append, List.mem_map] at h
  obtain ⟨b, -, rfl⟩ | ⟨t, -, rfl⟩ := h <;> simp

/-! ### The working state after a string -/

/-- The packer's working state when `out` is emitted and the string `bits` was fed since: all whole groups of the string are emitted, and
the bits after them are carried. -/
def carryAfter (out : List Half) (bits : List Bool) : PackCarry :=
  ⟨bitVal (bits.drop (11 * (bits.length / 11))), bits.length % 11, out ++ groupIndices bits (bits.length / 11)⟩

/-- Whole groups at the front of the string are emitted first. -/
theorem carryAfter_append {a : List Bool} {q : Nat} (h : a.length = 11 * q) (out : List Half) (b : List Bool) :
    carryAfter out (a ++ b) = carryAfter (out ++ groupIndices a q) b := by
  have hdiv : (a ++ b).length / 11 = q + b.length / 11 := by rw [List.length_append, h]; omega
  have hmod : (a ++ b).length % 11 = b.length % 11 := by rw [List.length_append, h]; omega
  have hdrop : (a ++ b).drop (11 * (q + b.length / 11)) = b.drop (11 * (b.length / 11)) := by
    rw [Nat.mul_add, ← h, List.drop_append, List.drop_eq_nil_of_le (Nat.le_add_right ..), Nat.add_sub_cancel_left, List.nil_append]
  rw [carryAfter, carryAfter, hdiv, hmod, hdrop, groupIndices_append h, List.append_assoc]

/-- Fewer than 11 bits are carried as they are. -/
theorem carryAfter_of_lt {bits : List Bool} (h : bits.length < 11) (out : List Half) :
    carryAfter out bits = ⟨bitVal bits, bits.length, out⟩ := by
  simp [carryAfter, Nat.div_eq_of_lt h, Nat.mod_eq_of_lt h, groupIndices]

/-- One round of the loop takes the oldest 11 bits (40_encode.md R106). -/
theorem packEmit_succ_append {a : List Bool} (h : a.length = 11) (fuel : Nat) (out : List Half) (b : List Bool) :
    packEmit (fuel + 1) ⟨bitVal (a ++ b), (a ++ b).length, out⟩ =
      packEmit fuel ⟨bitVal b, b.length, out ++ [BitVec.ofNat 16 (bitVal a)]⟩ := by
  have hl : 11 ≤ (a ++ b).length := by rw [List.length_append, h]; omega
  have hlen : (a ++ b).length - 11 = b.length := by rw [List.length_append, h]; omega
  have hmask : bitVal a &&& 0x7FF = bitVal a := by simpa [h] using bitVal_append_and [] a
  rw [packEmit, if_pos hl]
  simp only [hlen, bitVal_append_and, bitVal_append_shiftRight, hmask]

/-- The loop emits the whole groups that the accumulator holds, with fuel for as many rounds as it holds bits. -/
theorem packEmit_eq_carryAfter {fuel : Nat} {bits : List Bool} (h : bits.length ≤ fuel) (out : List Half) :
    packEmit fuel ⟨bitVal bits, bits.length, out⟩ = carryAfter out bits := by
  induction fuel generalizing out bits with
  | zero => exact (carryAfter_of_lt (by omega) out).symm
  | succ fuel ih =>
    rcases Nat.lt_or_ge bits.length 11 with hs | hl
    · rw [carryAfter_of_lt hs, packEmit, if_neg (Nat.not_le.mpr hs)]
    · have ha : (bits.take 11).length = 11 := List.length_take_of_le hl
      rw [← List.take_append_drop 11 bits, packEmit_succ_append ha, ih (by rw [List.length_drop]; omega),
        carryAfter_append (q := 1) ha, groupIndices_one ha]

/-- A feed extends the string fed so far. -/
theorem packFeed_carryAfter (fed bits : List Bool) : packFeed (carryAfter [] fed) (feedOf bits) = carryAfter [] (fed ++ bits) := by
  have htaken : (fed.take (11 * (fed.length / 11))).length = 11 * (fed.length / 11) := List.length_take_of_le (by omega)
  have hcarried : (fed.drop (11 * (fed.length / 11))).length = fed.length % 11 := by rw [List.length_drop]; omega
  have hgroups : groupIndices (fed.take (11 * (fed.length / 11))) (fed.length / 11) = groupIndices fed (fed.length / 11) := by
    rw [← groupIndices_append_left htaken.ge (fed.drop (11 * (fed.length / 11))), List.take_append_drop]
  calc packFeed (carryAfter [] fed) (feedOf bits)
      = carryAfter (groupIndices fed (fed.length / 11)) (fed.drop (11 * (fed.length / 11)) ++ bits) := by
        rw [← packEmit_eq_carryAfter le_rfl (groupIndices _ _), List.length_append, hcarried, ← bitVal_shiftLeft_or]
        rfl
    _ = carryAfter [] (fed ++ bits) := by
        rw [← hgroups, ← List.nil_append (groupIndices _ _), ← carryAfter_append htaken, ← List.append_assoc, List.take_append_drop]

theorem foldl_packFeed (chunks : List (List Bool)) (fed : List Bool) :
    (chunks.map feedOf).foldl packFeed (carryAfter [] fed) = carryAfter [] (fed ++ chunks.flatten) := by
  induction chunks generalizing fed with
  | nil => simp
  | cons bits chunks ih =>
    rw [List.map_cons, List.foldl_cons, packFeed_carryAfter, ih, List.append_assoc, List.flatten_cons]

/-- The streaming packer's state after the first feeds is that after their string. -/
theorem foldl_packFeeds_take (x : List Byte) (d : Digest) (c j : Nat) :
    ((packFeeds x d c).take j).foldl packFeed ⟨0, 0, []⟩ = carryAfter [] ((packChunks x d c).take j).flatten := by
  rw [packFeeds_eq, ← List.map_take]
  exact foldl_packFeed _ []

theorem sum_packFeeds_take (x : List Byte) (d : Digest) (c j : Nat) :
    (((packFeeds x d c).take j).map Prod.snd).sum = ((packChunks x d c).take j).flatten.length := by
  rw [packFeeds_eq, ← List.map_take, List.map_map, List.length_flatten]
  rfl

theorem packStream_eq (x : List Byte) (d : Digest) {c : Nat} (hc : c ≤ 256) :
    packStream x d c = carryAfter [] (packedBits x d c) := by
  rw [packStream, packFeeds_eq, ← flatten_packChunks x d hc]
  exact foldl_packFeed _ []

/-- Settles O20: after every feed the packer has emitted the groups of the string fed so far and carries the rest of it. -/
theorem packStreamIsGrouping : Obligations.PackStreamIsGrouping := by
  intro x d c n hlen hc
  have hdiv : (packedBits x d c).length / 11 = n := by rw [length_packedBits hc]; omega
  have hmod : (packedBits x d c).length % 11 = 0 := by rw [length_packedBits hc]; omega
  refine ⟨?_, ?_, fun j _ => ?_, fun f hf => ?_⟩
  · rw [packStream_eq x d hc, carryAfter, hdiv]; rfl
  · rw [packStream_eq x d hc, carryAfter, hmod]
  · have hsplit : packedBits x d c = ((packChunks x d c).take j).flatten ++ ((packChunks x d c).drop j).flatten := by
      rw [← List.flatten_append, List.take_append_drop, flatten_packChunks x d hc]
    simp only [foldl_packFeeds_take, sum_packFeeds_take]
    refine ⟨rfl, by simp [carryAfter], ?_⟩
    rw [hsplit, bitSlice_append_length]
    rfl
  · rw [packFeeds_eq] at hf
    obtain ⟨bits, hbits, rfl⟩ := List.mem_map.mp hf
    exact length_le_of_mem_packChunks hbits

end Sys2Proof.Proofs
end

section
/-! PROOFS. ENC: its three outcomes, the entries and the bits it writes, what they depend on, and that DEC accepts them (40_encode.md R100 to
R109). -/

namespace Sys2Proof.Proofs

open Sys2Proof.Machine

/-! ### The accounting -/

/-- CT matters in explicit mode alone (42_accounting.md R140). -/
theorem acct_ct_congr {mode : Mode} {n ct ct' : Nat} (h : mode = .exp → ct' = ct) : acct mode n ct' = acct mode n ct := by
  cases mode with
  | std | rlx => rfl
  | exp => rw [h rfl]

/-- RESULT reads back what was written where the operands fit its fields. -/
theorem resultIs_of_setResult {s t : State} {n b c : Nat} (h : t.result = (s.setResult n b c).result) (hn : n ≤ 255) (hb : b ≤ 63)
    (hc : c ≤ 511) : ResultIs n b c t := by
  simp only [ResultIs, h, State.setResult_result, BitVec.toNat_ofNat]
  omega

theorem resultIs_of_acct {s t : State} {mode : Mode} {n ct b c : Nat} (ha : acct mode n ct = some (b, c))
    (h : t.result = (s.setResult n b c).result) : ResultIs n b c t := by
  obtain ⟨hbal, -, hb, hc⟩ := acct_balanced ha
  exact resultIs_of_setResult h (by omega) (by omega) (by omega)

/-! ### The outcomes -/

section
variable {mode : Mode} {n ct b c : Nat} {s : State}

theorem exec_enc_of_none (ha : acct mode n ct = none) :
    exec (.enc mode n ct) s = .next (((s.setResult n 0 0).setValid false).finish .invalidWordCount) :=
  congrArg Host.Outcome.next (encState_of_none ha)

theorem exec_enc_of_mismatch (ha : acct mode n ct = some (b, c)) (hl : s.entLen.toNat ≠ b) :
    exec (.enc mode n ct) s = .next (((s.setResult n b c).setValid false).finish .invalidWordCount) :=
  congrArg Host.Outcome.next (encState_of_mismatch ha hl)

theorem exec_enc_of_match (ha : acct mode n ct = some (b, c)) (hl : s.entLen.toNat = b) :
    exec (.enc mode n ct) s = .next (packEntropy Config.hash256 n b c (s.setResult n b c)) :=
  congrArg Host.Outcome.next (encState_of_match ha hl)

/-- An ENC that completes with NONE has packed. -/
theorem exec_enc_success {t : State} (h : exec (.enc mode n ct) s = .next t) (he : t.status.err = 0) :
    ∃ b c, acct mode n ct = some (b, c) ∧ s.entLen.toNat = b ∧ t = packEntropy Config.hash256 n b c (s.setResult n b c) := by
  cases ha : acct mode n ct with
  | none =>
    rw [exec_enc_of_none ha] at h
    cases h
    simp [ErrCode.code] at he
  | some p =>
    obtain ⟨b, c⟩ := p
    by_cases hl : s.entLen.toNat = b
    · rw [exec_enc_of_match ha hl] at h
      cases h
      exact ⟨b, c, rfl, hl, rfl⟩
    · rw [exec_enc_of_mismatch ha hl] at h
      cases h
      simp [ErrCode.code] at he

/-- A DEC whose entries are all in range ends with another code than INVALID_INDEX (41_decode.md R122). -/
theorem exec_dec_of_in_range (hi : anyInvalidIndex s n = false) : ∃ t, exec (.dec mode n ct) s = .next t ∧ t.status.err ≠ 2 := by
  refine ⟨_, rfl, ?_⟩
  cases ha : acct mode n ct with
  | none => simp [decState_of_none ha, ErrCode.code]
  | some p =>
    rw [decState_of_valid ha hi, unpackIndices_status]
    dsimp only
    split <;> simp [ErrCode.code]

end

/-! ### The entries -/

theorem groupIndices_getD (bits : List Bool) (n k : Nat) (old : Half) :
    (groupIndices bits n).getD k old =
      if k < n then BitVec.ofNat 16 (bitVal (bitSlice bits (11 * k) (11 * k + 11))) else old := by
  split
  case isTrue h => simp [groupIndices, h]
  case isFalse h => rw [List.getD_eq_default _ _ (by simpa using h)]

theorem packEntropy_idx_getElem (hash : List Byte → Digest) (n b c : Nat) (s : State) {k : Nat} (hk : k < 46) :
    (packEntropy hash n b c s).idx[k] =
      if k < n then BitVec.ofNat 16 (bitVal (bitSlice (packedBits (entPrefix s b) (hash (entPrefix s b)) c) (11 * k) (11 * k + 11)))
      else s.idx[k] :=
  (writeIdx_getElem _ s hk).trans (groupIndices_getD _ n k _)

/-- ENC's entries are in range (40_encode.md R108). -/
theorem packEntropy_idx_lt (hash : List Byte → Digest) {n k : Nat} (b c : Nat) (s : State) (hk : k < 46) (hkn : k < n) :
    ((packEntropy hash n b c s).idx[k]).toNat < 2048 := by
  rw [packEntropy_idx_getElem hash n b c s hk, if_pos hkn]
  exact groupIndices_lt (List.mem_map_of_mem (List.mem_range.mpr hkn))

/-- Settles O14, from the state that the packing leaves. -/
theorem encPacksEntropy : Obligations.EncPacksEntropy := fun _ n _ b c s ha hl =>
  ⟨_, exec_enc_of_match ha hl, rfl, fun _ hk => packEntropy_idx_getElem _ n b c (s.setResult n b c) hk, resultIs_of_acct (s := s) ha rfl,
    rfl, rfl, rfl, rfl, rfl, sameHostSide_refl s⟩

/-- Settles O16, from the states that the two failures leave. -/
theorem encFailures : Obligations.EncFailures := fun _ _ _ s hn =>
  ⟨fun ha => ⟨_, exec_enc_of_none ha, resultIs_of_setResult (s := s) rfl hn (by decide) (by decide), rfl,
      ⟨rfl, rfl, rfl, rfl⟩, rfl, rfl, sameHostSide_refl s⟩,
    fun _ _ ha hl => ⟨_, exec_enc_of_mismatch ha hl, resultIs_of_acct (s := s) ha rfl, rfl, ⟨rfl, rfl, rfl, rfl⟩, rfl, rfl,
      sameHostSide_refl s⟩⟩

/-- Settles O17: the accounting and the entropy bytes are the same, and the outputs are functions of these. -/
theorem encIsDeterministic : Obligations.EncIsDeterministic := by
  intro mode n ct ct' b c s u ha hs hu hct hent
  have hx : entPrefix (u.setResult n b c) b = entPrefix (s.setResult n b c) b := entPrefix_eq_of_agree hent
  refine ⟨_, _, exec_enc_of_match ha hs, exec_enc_of_match ((acct_ct_congr hct).trans ha) hu, rfl, rfl, rfl, rfl, fun k hk hkn => ?_,
    ?_, rfl⟩
  · rw [packEntropy_idx_getElem _ _ _ _ _ hk, packEntropy_idx_getElem _ _ _ _ _ hk, if_pos hkn, if_pos hkn, hx]
  · rw [packEntropy_digest, packEntropy_digest, hx]

/-! ### The bits -/

/-- The packed string bit by bit, read from the buffers (40_encode.md R103). -/
theorem packedBits_getElem? (s : State) (d : Digest) {b c i : Nat} (hb : b ≤ 32) (hc : c ≤ 256) (hi : i < 8 * b + c) :
    (packedBits (entPrefix s b) d c)[i]? = some (packedBit s.ent d b i) := by
  have hlen : (bitsOf (entPrefix s b)).length = 8 * b := by rw [length_bitsOf, length_entPrefix s hb]
  rw [packedBits, packedBit]
  split
  case isTrue h =>
    have hbyte := entPrefix_getElem? s (b := b) (i := i / 8) (by omega) (by omega)
    rw [List.getElem?_append_left (by omega), bitsOf_getElem? _ (by rwa [length_entPrefix s hb]), List.getD_eq_getElem?_getD, hbyte,
      Vector.getElem?_eq_getElem]
  case isFalse h =>
    rw [List.getElem?_append_right (by omega), hlen, List.getElem?_take_of_lt (by omega), bitsOf_getElem? _ (by simp; omega),
      List.getD_eq_getElem?_getD, Vector.getElem?_toList]

/-- Bit `10 - i` of an entry made of a group is bit i of the group (40_encode.md R104). -/
theorem getLsbD_group {bits : List Bool} {k i : Nat} (h : 11 * k + 11 ≤ bits.length) (hi : i < 11) :
    some ((BitVec.ofNat 16 (bitVal (bitSlice bits (11 * k) (11 * k + 11)))).getLsbD (10 - i)) = bits[11 * k + i]? := by
  have hbit := bitVal_bitSlice_testBit h hi
  rw [BitVec.getLsbD_ofNat, decide_eq_true (by omega : 10 - i < 16), Bool.true_and, List.getElem?_eq_getElem (by omega), ← hbit]

theorem getLsbD_upper_of_lt {v : Half} (h : v.toNat < 2048) {i : Nat} (hi : 11 ≤ i) : v.getLsbD i = false :=
  Nat.testBit_lt_two_pow (h.trans_le (Nat.pow_le_pow_right (n := 2) (by decide) hi))

/-- Settles O15: an entry's low bits are those of its group, its upper bits are 0 since it is in range. -/
theorem encIndexBits : Obligations.EncIndexBits := by
  intro mode n ct b c s ha hl
  obtain ⟨hbal, -, hb, hc⟩ := acct_balanced ha
  refine ⟨_, exec_enc_of_match ha hl, hbal.symm, fun k hk hkn =>
    ⟨fun i hi => ?_, fun i hi => getLsbD_upper_of_lt (packEntropy_idx_lt _ b c _ hk hkn) hi⟩⟩
  have hlen := length_packedBits (x := entPrefix (s.setResult n b c) b) (d := Config.hash256 (entPrefix (s.setResult n b c) b)) hc
  rw [length_entPrefix _ hb] at hlen
  apply Option.some.inj
  rw [packEntropy_idx_getElem _ _ _ _ _ hk, if_pos hkn, getLsbD_group (by omega) hi, packedBits_getElem? _ _ hb hc (by omega)]
  rfl

/-- Settles O18: ENC's entries are in range, so DEC finds none that is not. -/
theorem encIndicesBelow2048 : Obligations.EncIndicesBelow2048 := by
  intro mode n ct s t h he
  obtain ⟨b, c, -, -, rfl⟩ := exec_enc_success h he
  have hrange (k : Nat) (hk : k < 46) (hkn : k < n) := packEntropy_idx_lt Config.hash256 b c (s.setResult n b c) hk hkn
  exact ⟨fun k hk hkn => ⟨hrange k hk hkn, upper_bits_zero_iff.mpr (hrange k hk hkn)⟩, fun mode' ct' u hu =>
    exec_dec_of_in_range (anyInvalidIndex_eq_false_iff.mpr fun k hk hkn => hu k hk hkn ▸ hrange k hk hkn)⟩

/-! ### The standard table -/

/-- ENC completes with NONE and C, or with INVALID_WORD_COUNT, by ENT_LEN (40_encode.md R101, R105). -/
theorem exec_enc_by_length {mode : Mode} {n ct b c : Nat} {l : BitVec 6} (ha : acct mode n ct = some (b, c)) (hl : l.toNat = b)
    (s : State) :
    (s.entLen = l → ∃ t, exec (.enc mode n ct) s = .next t ∧ t.status.err = 0 ∧ t.result.c = BitVec.ofNat 9 c) ∧
      (s.entLen ≠ l → ∃ t, exec (.enc mode n ct) s = .next t ∧ t.status.err = 1) :=
  ⟨fun h => ⟨_, exec_enc_of_match ha (h ▸ hl), rfl, rfl⟩,
    fun h => ⟨_, exec_enc_of_mismatch ha fun hb => h (BitVec.eq_of_toNat_eq (hb.trans hl.symm)), rfl⟩⟩

/-- Settles O19: rows 12 and 24 of the table are (16, 4) and (32, 8). -/
theorem standardTableFidelity : Obligations.StandardTableFidelity := by
  intro ct s
  obtain ⟨h12, h12'⟩ := exec_enc_by_length (mode := .std) (n := 12) (ct := ct) (l := 16) rfl rfl s
  obtain ⟨h24, h24'⟩ := exec_enc_by_length (mode := .std) (n := 24) (ct := ct) (l := 32) rfl rfl s
  exact ⟨h12, h24, h12', h24'⟩

end Sys2Proof.Proofs
end

section
/-! PROOFS. The streaming unpacker splits the string of its indices into the entropy bytes and the checksum (41_decode.md R127). -/

namespace Sys2Proof.Proofs

open Sys2Proof.Machine

/-! ### The value and the bits of a string -/

/-- The bits of the value of a string, the first one the most significant, are the string. -/
theorem map_testBit_bitVal (bits : List Bool) :
    (List.range bits.length).map (fun t => (bitVal bits).testBit (bits.length - 1 - t)) = bits := by
  refine List.ext_getElem (by simp) fun t _ ht => ?_
  rw [List.getElem_map, List.getElem_range, bitVal_testBit bits ht]

theorem bitVal_bits11 (v : Half) : bitVal (bits11 v) = (v.extractLsb' 0 11).toNat := by
  refine Nat.eq_of_testBit_eq fun i => ?_
  rw [BitVec.testBit_toNat, BitVec.getLsbD_extractLsb', Nat.zero_add]
  rcases Nat.lt_or_ge i 11 with hi | hi
  · have ht : 10 - i < (bits11 v).length := by rw [length_bits11]; omega
    have hbit := bitVal_testBit (bits11 v) ht
    simp only [length_bits11, show 11 - 1 - (10 - i) = i by omega] at hbit
    rw [hbit]
    simp [hi, bits11, show 10 - (10 - i) = i by omega]
  · have hlt : bitVal (bits11 v) < 2 ^ i :=
      (bitVal_lt _).trans_le (Nat.pow_le_pow_right (by decide) ((length_bits11 v).trans_le hi))
    rw [Nat.testBit_lt_two_pow hlt, decide_eq_false (by omega), Bool.false_and]

/-- Bytes' bits followed by a checksum are split into these bytes and this checksum (41_decode.md R124). -/
theorem split_bitsOf_append {x : List Byte} {r : List Bool} {b c : Nat} (hx : x.length = b) (hr : r.length = c) :
    leadingBytes (bitsOf x ++ r) b = x ∧ checksumBits (bitsOf x ++ r) b c = r := by
  subst hx hr
  exact ⟨leadingBytes_bitsOf_append x r, by simp [checksumBits, bitSlice]⟩

/-! ### What the unpacker holds -/

/-- The unpacker holds the string fed so far: the entropy bytes it has emitted, then the checksum bits it has taken, then the carried bits,
whose value the accumulator is. It takes checksum bits only when all B bytes are emitted. -/
structure UnpackHolds (b : Nat) (fed carried : List Bool) (p : UnpackCarry) : Prop where
  acc_eq : p.acc = bitVal carried
  nb_eq : p.nb = carried.length
  fed_eq : bitsOf p.ent ++ (p.chk ++ carried) = fed
  chk_eq : p.ent.length < b → p.chk = []
  ent_le : p.ent.length ≤ b

section
variable {b : Nat} {fed carried : List Bool} {p : UnpackCarry}

/-- One round of the loop moves the oldest 8 carried bits to the entropy. -/
theorem UnpackHolds.emit_round (h : UnpackHolds b fed carried p) (hnb : 8 ≤ p.nb) (hj : p.ent.length < b) :
    UnpackHolds b fed (carried.drop 8) { p with
      acc := p.acc &&& (1 <<< (p.nb - 8) - 1)
      nb := p.nb - 8
      ent := p.ent ++ [BitVec.ofNat 8 ((p.acc >>> (p.nb - 8)) &&& 0xFF)] } := by
  obtain ⟨hacc, hlen, hfed, hchk, -⟩ := h
  have ha : (carried.take 8).length = 8 := List.length_take_of_le (hlen ▸ hnb)
  have hr : p.nb - 8 = (carried.drop 8).length := by rw [hlen, List.length_drop]
  have hsplit : p.acc = bitVal (carried.take 8 ++ carried.drop 8) := by rw [hacc, List.take_append_drop]
  have hmask : bitVal (carried.take 8) &&& 0xFF = bitVal (carried.take 8) := by simpa [ha] using bitVal_append_and [] (carried.take 8)
  refine ⟨?_, hr, ?_, fun _ => hchk hj, ?_⟩
  · rw [hr, hsplit, bitVal_append_and]
  · rw [hr, hsplit, bitVal_append_shiftRight, hmask, ← hfed, hchk hj, bitsOf_append, bitsOf_cons, byteBits_ofNat_bitVal ha]
    simp
  · simpa using hj

/-- The loop ends with less than a byte carried, or with every byte emitted, when its fuel is as many rounds as bits are carried. -/
theorem UnpackHolds.emit {fuel : Nat} (h : UnpackHolds b fed carried p) (hfuel : p.nb ≤ fuel) :
    ∃ carried', UnpackHolds b fed carried' (unpackEmit b fuel p) ∧
      ((unpackEmit b fuel p).nb ≤ 7 ∨ (unpackEmit b fuel p).ent.length = b) := by
  induction fuel generalizing p carried with
  | zero => exact ⟨carried, h, .inl (hfuel.trans (by decide))⟩
  | succ fuel ih =>
    rw [unpackEmit]
    split
    case isTrue hround => exact ih (h.emit_round hround.1 hround.2) (by dsimp only; omega)
    case isFalse hround =>
      have := h.ent_le
      exact ⟨carried, h, by omega⟩

/-- When every byte is emitted the carried bits become checksum bits. -/
theorem UnpackHolds.spill (h : UnpackHolds b fed carried p) (hj : p.ent.length = b) :
    UnpackHolds b fed [] (unpackSpill b p) ∧ (unpackSpill b p).ent.length = b := by
  obtain ⟨hacc, hlen, hfed, -, hle⟩ := h
  have hbits : (List.range p.nb).map (fun t => p.acc.testBit (p.nb - 1 - t)) = carried := by
    rw [hacc, hlen, map_testBit_bitVal]
  rw [unpackSpill, if_pos hj, hbits]
  exact ⟨⟨rfl, rfl, by simpa using hfed, fun hlt => absurd hj hlt.ne, hle⟩, hj⟩

/-- Between two feeds less than a byte is carried while bytes are missing, and nothing once all are emitted. -/
def UnpackSettled (b : Nat) (p : UnpackCarry) : Prop := (p.ent.length < b ∧ p.nb ≤ 7) ∨ (p.ent.length = b ∧ p.nb = 0)

theorem UnpackSettled.nb_le (h : UnpackSettled b p) : p.nb ≤ 7 := by
  obtain ⟨-, h⟩ | ⟨-, h⟩ := h <;> omega

/-- A feed extends the string held by the 11 bits of the index. -/
theorem UnpackHolds.feed (h : UnpackHolds b fed carried p) (v : Half) :
    ∃ carried', UnpackHolds b (fed ++ bits11 v) carried' (unpackFeed b p v) ∧ UnpackSettled b (unpackFeed b p v) := by
  obtain ⟨hacc, hlen, hfed, hchk, hle⟩ := h
  have hfeed : UnpackHolds b (fed ++ bits11 v) (carried ++ bits11 v)
      { p with acc := (p.acc <<< 11) ||| (v.extractLsb' 0 11).toNat, nb := p.nb + 11 } := by
    refine ⟨?_, by simp [hlen], by simp [← hfed], hchk, hle⟩
    rw [hacc, ← bitVal_bits11, ← bitVal_shiftLeft_or, length_bits11]
  obtain ⟨carried', hemit, hend⟩ := hfeed.emit le_rfl
  rw [unpackFeed]
  rcases hemit.ent_le.lt_or_eq with hlt | heq
  · rw [unpackSpill, if_neg hlt.ne]
    exact ⟨carried', hemit, .inl ⟨hlt, hend.resolve_right hlt.ne⟩⟩
  · obtain ⟨hspill, hj⟩ := hemit.spill heq
    exact ⟨[], hspill, .inr ⟨hj, hspill.nb_eq⟩⟩

end

/-- After any indices the unpacker holds their string. -/
theorem unpackStream_holds (ks : List Half) (b : Nat) :
    ∃ carried, UnpackHolds b (indexBits ks) carried (unpackStream ks b) ∧ UnpackSettled b (unpackStream ks b) := by
  induction ks using List.reverseRecOn with
  | nil =>
    refine ⟨[], ⟨rfl, rfl, rfl, fun _ => rfl, b.zero_le⟩, ?_⟩
    rcases b.eq_zero_or_pos with rfl | hb
    · exact .inr ⟨rfl, rfl⟩
    · exact .inl ⟨hb, Nat.zero_le 7⟩
  | append_singleton ks v ih =>
    obtain ⟨carried, h, -⟩ := ih
    rw [unpackStream, List.foldl_concat, indexBits_append, indexBits_cons, indexBits_nil, List.append_nil]
    exact h.feed v

/-- After B bytes and C bits the unpacker has emitted them all. -/
theorem unpackStream_complete {ks : List Half} {b c : Nat} (hlen : 8 * b + c = 11 * ks.length) :
    (unpackStream ks b).ent.length = b ∧ (unpackStream ks b).chk.length = c ∧ (unpackStream ks b).nb = 0 ∧
      indexBits ks = bitsOf (unpackStream ks b).ent ++ (unpackStream ks b).chk := by
  obtain ⟨carried, ⟨-, hnb, hfed, hchk, -⟩, hsettled⟩ := unpackStream_holds ks b
  have htotal := congrArg List.length hfed
  simp only [List.length_append, length_bitsOf, length_indexBits, ← hlen, ← hnb] at htotal
  rcases hsettled with ⟨hj, h7⟩ | ⟨hj, h0⟩
  · rw [hchk hj, List.length_nil] at htotal
    omega
  · rw [List.eq_nil_of_length_eq_zero (hnb.symm.trans h0), List.append_nil] at hfed
    exact ⟨hj, by omega, h0, hfed.symm⟩

/-- Settles O25: after every feed the unpacker holds the string fed so far, and at the end all of it is emitted. -/
theorem unpackStreamIsSplit : Obligations.UnpackStreamIsSplit := by
  intro ks b c hlen
  obtain ⟨hent, hchk, hnb, hbits⟩ := unpackStream_complete hlen
  obtain ⟨hleading, hchecksum⟩ := split_bitsOf_append hent hchk
  rw [hbits]
  refine ⟨hleading.symm, hchecksum.symm, hnb, fun j _ => ?_⟩
  obtain ⟨_, -, hsettled⟩ := unpackStream_holds (ks.take j) b
  exact hsettled.nb_le

end Sys2Proof.Proofs
end

section
/-! PROOFS. DEC: its outcomes, the bytes and the bits it reads, the comparison of the checksum, and the round trip with ENC (41_decode.md R120
to R130). -/

namespace Sys2Proof.Proofs

open Sys2Proof.Machine

/-! ### The outcomes -/

section
variable {mode : Mode} {n ct b c : Nat} {s : State}

theorem exec_dec_of_none (ha : acct mode n ct = none) :
    exec (.dec mode n ct) s = .next (((s.setResult n 0 0).setValid false).finish .invalidWordCount) :=
  congrArg Host.Outcome.next (decState_of_none ha)

theorem exec_dec_of_invalid (ha : acct mode n ct = some (b, c)) (hi : anyInvalidIndex s n = true) :
    exec (.dec mode n ct) s = .next (((s.setResult n b c).setValid false).finish .invalidIndex) :=
  congrArg Host.Outcome.next (decState_of_invalid ha hi)

theorem exec_dec_of_valid (ha : acct mode n ct = some (b, c)) (hi : anyInvalidIndex s n = false) :
    exec (.dec mode n ct) s = .next (unpackIndices Config.hash256 n b c (s.setResult n b c)) :=
  congrArg Host.Outcome.next (decState_of_valid ha hi)

/-- DEC's comparison succeeds: the extracted checksum is the prefix of the digest of the decoded bytes (41_decode.md R126). -/
abbrev ChecksumMatches (n b c : Nat) (s : State) : Prop :=
  checksumBits (indexBits (idxPrefix s n)) b c = (bitsOf (Config.hash256 (decodedBytes n b s)).toList).take c

/-- DEC's status where the comparison succeeds (41_decode.md R126). -/
theorem unpackIndices_status_of_match (h : ChecksumMatches n b c s) :
    (unpackIndices Config.hash256 n b c s).status = ⟨false, true, true, s.status.busyViol, 0⟩ := by
  rw [unpackIndices_status, decide_eq_true h]
  rfl

/-- DEC's status where the comparison fails (41_decode.md R126). -/
theorem unpackIndices_status_of_mismatch (h : ¬ChecksumMatches n b c s) :
    (unpackIndices Config.hash256 n b c s).status = ⟨false, true, false, s.status.busyViol, 3⟩ := by
  rw [unpackIndices_status, decide_eq_false h]
  rfl

/-- A DEC that completes with NONE has found its entries in range and its checksum to match. -/
theorem exec_dec_success {t : State} (ha : acct mode n ct = some (b, c)) (h : exec (.dec mode n ct) s = .next t)
    (he : t.status.err = 0) : anyInvalidIndex s n = false ∧ ChecksumMatches n b c s ∧
      t = unpackIndices Config.hash256 n b c (s.setResult n b c) := by
  cases hi : anyInvalidIndex s n with
  | true =>
    rw [exec_dec_of_invalid ha hi] at h
    cases h
    simp [ErrCode.code] at he
  | false =>
    rw [exec_dec_of_valid ha hi] at h
    cases h
    by_cases hm : ChecksumMatches n b c s
    · exact ⟨rfl, hm, rfl⟩
    · rw [unpackIndices_status_of_mismatch (s := s.setResult n b c) hm] at he
      cases he

end

/-! ### The failures -/

/-- Settles O23, from the state that the failure leaves. -/
theorem decAccountingFailure : Obligations.DecAccountingFailure := fun _ _ _ s hn ha =>
  ⟨_, exec_dec_of_none ha, resultIs_of_setResult (s := s) rfl hn (by decide) (by decide), rfl, ⟨rfl, rfl, rfl, rfl⟩, rfl, rfl,
    sameHostSide_refl s⟩

/-- Some entry among the first n has an upper bit set (41_decode.md R122). -/
theorem anyInvalidIndex_of_upper_bits {s : State} {n k : Nat} (hk : k < 46) (hkn : k < n) (hv : (s.idx[k]).extractLsb' 11 5 ≠ 0) :
    anyInvalidIndex s n = true := by
  by_contra hi
  exact hv (upper_bits_zero_iff.mpr (anyInvalidIndex_eq_false_iff.mp (Bool.eq_false_of_not_eq_true hi) k hk hkn))

/-- Settles O24: DEC reads the upper five bits of exactly the first N entries. -/
theorem decInvalidIndex : Obligations.DecInvalidIndex := by
  intro mode n ct b c s ha
  constructor
  · rintro ⟨k, hk, hkn, hv⟩
    exact ⟨_, exec_dec_of_invalid ha (anyInvalidIndex_of_upper_bits hk hkn hv), resultIs_of_acct (s := s) ha rfl, rfl,
      ⟨rfl, rfl, rfl, rfl⟩, rfl, rfl, sameHostSide_refl s⟩
  · intro hv
    exact exec_dec_of_in_range (anyInvalidIndex_eq_false_iff.mpr fun k hk hkn => upper_bits_zero_iff.mp (hv k hk hkn))

/-! ### The decoded bytes -/

/-- Two states with the same prefix agree below b. -/
theorem ent_getElem_of_entPrefix_eq {s t : State} {b i : Nat} (h : entPrefix t b = entPrefix s b) (hi : i < 32) (hib : i < b) :
    t.ent[i] = s.ent[i] := by
  apply Option.some.inj
  rw [← entPrefix_getElem? t hi hib, h, entPrefix_getElem? s hi hib]

theorem leadingBytes_getD (bits : List Bool) (b i : Nat) (old : Byte) :
    (leadingBytes bits b).getD i old = if i < b then BitVec.ofNat 8 (bitVal (bitSlice bits (8 * i) (8 * i + 8))) else old := by
  split
  case isTrue h => simp [leadingBytes, h]
  case isFalse h => rw [List.getD_eq_default _ _ (by simpa using h)]

theorem unpackIndices_ent_getElem (hash : List Byte → Digest) (n b c : Nat) (s : State) {i : Nat} (hi : i < 32) :
    (unpackIndices hash n b c s).ent[i] =
      if i < b then BitVec.ofNat 8 (bitVal (bitSlice (indexBits (idxPrefix s n)) (8 * i) (8 * i + 8))) else s.ent[i] :=
  (writeEnt_getElem _ s hi).trans (leadingBytes_getD _ b i _)

theorem toNat_entLen_unpackIndices (hash : List Byte → Digest) {n b c : Nat} (s : State) (hb : b ≤ 32) :
    (unpackIndices hash n b c s).entLen.toNat = b := by
  rw [unpackIndices_entLen, BitVec.toNat_ofNat, Nat.mod_eq_of_lt (by omega)]

/-- Settles O21, from the state that the unpacking leaves. -/
theorem decUnpacksIndices : Obligations.DecUnpacksIndices := by
  intro mode n ct b c s ha hrange
  obtain ⟨-, -, hb, -⟩ := acct_balanced ha
  have hent := entPrefix_unpackIndices Config.hash256 (n := n) (c := c) (s.setResult n b c) hb
  refine ⟨_, exec_dec_of_valid ha (anyInvalidIndex_eq_false_iff.mpr hrange),
    fun i hi => unpackIndices_ent_getElem _ n b c (s.setResult n b c) hi, toNat_entLen_unpackIndices _ _ hb, ?_,
    unpackIndices_status_of_match, unpackIndices_status_of_mismatch, resultIs_of_acct (s := s) ha rfl, ?_, rfl, rfl,
    sameHostSide_refl s⟩
  · rw [hent, unpackIndices_digest]
  · rw [hent, unpackIndices_hashCalls, State.setResult_hashCalls]

/-! ### The bits -/

/-- The string of the first n indices bit by bit, read from the buffer (41_decode.md R123). -/
theorem indexBits_idxPrefix_getElem? (s : State) {n i : Nat} (hn : n ≤ 46) (hi : i < 11 * n) :
    (indexBits (idxPrefix s n))[i]? = some (indexBit s.idx i) := by
  have hentry := idxPrefix_getElem? s (n := n) (k := i / 11) (by omega) (by omega)
  rw [indexBits_getElem? _ (by rwa [length_idxPrefix s hn]), List.getD_eq_getElem?_getD, hentry, indexBit, Vector.getElem?_eq_getElem]

theorem bitsOf_digest_getElem? (d : Digest) {i : Nat} (hi : i < 256) :
    (bitsOf d.toList)[i]? = some (((d[i / 8]?).getD 0).getLsbD (7 - i % 8)) := by
  rw [bitsOf_getElem? _ (by simpa using hi), List.getD_eq_getElem?_getD, Vector.getElem?_toList]

/-- The comparison of the checksum bit by bit (41_decode.md R126). -/
theorem checksumMatches_iff {n b c : Nat} {s : State} (hn : n ≤ 46) (hbal : 11 * n = 8 * b + c) (hc : c ≤ 256) :
    ChecksumMatches n b c s ↔ ∀ i, i < c → indexBit s.idx (8 * b + i) =
      (((Config.hash256 (decodedBytes n b s))[i / 8]?).getD 0).getLsbD (7 - i % 8) := by
  have hbit {i : Nat} (hi : i < c) :
      (checksumBits (indexBits (idxPrefix s n)) b c)[i]? = some (indexBit s.idx (8 * b + i)) := by
    rw [checksumBits, bitSlice_getElem? (by omega), indexBits_idxPrefix_getElem? s hn (by omega)]
  have hdigest {i : Nat} (hi : i < c) : ((bitsOf (Config.hash256 (decodedBytes n b s)).toList).take c)[i]? =
      some ((((Config.hash256 (decodedBytes n b s))[i / 8]?).getD 0).getLsbD (7 - i % 8)) := by
    rw [List.getElem?_take_of_lt hi, bitsOf_digest_getElem? _ (by omega)]
  constructor
  · intro h i hi
    exact Option.some.inj ((hbit hi).symm.trans ((congrArg (·[i]?) h).trans (hdigest hi)))
  · intro h
    refine List.ext_getElem? fun i => ?_
    rcases Nat.lt_or_ge i c with hi | hi
    · rw [hbit hi, hdigest hi, h i hi]
    · rw [List.getElem?_eq_none, List.getElem?_eq_none]
      · simp; omega
      · simp [checksumBits, bitSlice]; omega

/-- Bit `7 - i` of a decoded byte j is bit 8j + i of the string (41_decode.md R124). -/
theorem getLsbD_ent_unpackIndices (hash : List Byte → Digest) {n b c j i : Nat} (s : State) (hn : n ≤ 46) (hbits : 8 * b ≤ 11 * n)
    (hj : j < 32) (hjb : j < b) (hi : i < 8) :
    ((unpackIndices hash n b c s).ent[j]).getLsbD (7 - i) = indexBit s.idx (8 * j + i) := by
  have hlen : (indexBits (idxPrefix s n)).length = 11 * n := by rw [length_indexBits, length_idxPrefix s hn]
  have hbit := leadingBytes_getLsbD (bits := indexBits (idxPrefix s n)) (by omega) hjb hi
  rw [leadingBytes_getD, if_pos hjb] at hbit
  rw [unpackIndices_ent_getElem _ _ _ _ _ hj, if_pos hjb, hbit]
  apply Option.some.inj
  rw [← List.getElem?_eq_getElem, indexBits_idxPrefix_getElem? s hn (by omega)]

/-- Settles O22: the comparison of the two strings is that of their bits. -/
theorem decValidatesChecksum : Obligations.DecValidatesChecksum := by
  intro mode n ct b c s ha hrange
  obtain ⟨hbal, -, hb, hc⟩ := acct_balanced ha
  have hn : n ≤ 46 := by omega
  have hmatch := checksumMatches_iff (s := s.setResult n b c) hn hbal hc
  refine ⟨_, exec_dec_of_valid ha (anyInvalidIndex_eq_false_iff.mpr hrange), toNat_entLen_unpackIndices _ _ hb,
    fun j hj hjb i hi => getLsbD_ent_unpackIndices _ _ hn (by omega) hj hjb hi, fun h => ?_, fun ⟨i, hi, hne⟩ => ?_⟩
  · rw [unpackIndices_status_of_match (hmatch.mpr h)]
    exact ⟨rfl, rfl⟩
  · rw [unpackIndices_status_of_mismatch fun hm => hne (hmatch.mp hm i hi)]
    exact ⟨rfl, rfl⟩

/-! ### A flipped bit -/

theorem flipIndexBit_idx_getElem (s : State) (i : Nat) {k : Nat} (hk : k < 46) :
    (flipIndexBit s i).idx[k] = if k = i / 11 then s.idx[k] ^^^ BitVec.twoPow 16 (10 - i % 11) else s.idx[k] := by
  simp [flipIndexBit]

/-- A flip changes one bit of the string. -/
theorem indexBit_flipIndexBit (s : State) {i q : Nat} (hq : q < 506) :
    indexBit (flipIndexBit s i).idx q = if q = i then !indexBit s.idx q else indexBit s.idx q := by
  have hk : q / 11 < 46 := by omega
  rw [indexBit, indexBit, Vector.getElem?_eq_getElem hk, Vector.getElem?_eq_getElem hk, Option.getD_some, Option.getD_some,
    flipIndexBit_idx_getElem s i hk]
  by_cases hentry : q / 11 = i / 11
  · rw [if_pos hentry, BitVec.getLsbD_xor, BitVec.getLsbD_twoPow, decide_eq_true (by omega : 10 - i % 11 < 16), Bool.true_and]
    by_cases hqi : q = i
    · rw [if_pos hqi, decide_eq_true (by omega), Bool.xor_true]
    · rw [if_neg hqi, decide_eq_false (by omega), Bool.xor_false]
  · rw [if_neg hentry, if_neg fun h => hentry (congrArg (· / 11) h)]

/-- A flip leaves every entry in its range. -/
theorem anyInvalidIndex_flipIndexBit {s : State} {n : Nat} (i : Nat) (h : anyInvalidIndex s n = false) :
    anyInvalidIndex (flipIndexBit s i) n = false := by
  rw [anyInvalidIndex_eq_false_iff] at h ⊢
  intro k hk hkn
  rw [flipIndexBit_idx_getElem s i hk]
  split
  · rw [BitVec.toNat_xor]
    refine Nat.xor_lt_two_pow (n := 11) (h k hk hkn) ?_
    rw [BitVec.toNat_twoPow]
    exact (Nat.mod_le _ _).trans_lt (Nat.pow_lt_pow_right (by decide) (by omega))
  · exact h k hk hkn

/-- The decoded bytes depend on the leading 8B bits of the string only. -/
theorem decodedBytes_eq_of_agree {s u : State} {n b : Nat} (hn : n ≤ 46) (hb : 8 * b ≤ 11 * n)
    (h : ∀ q, q < 8 * b → indexBit u.idx q = indexBit s.idx q) : decodedBytes n b u = decodedBytes n b s := by
  have hlen (v : State) : (indexBits (idxPrefix v n)).length = 11 * n := by rw [length_indexBits, length_idxPrefix v hn]
  apply bitsOf_injective
  rw [bitsOf_leadingBytes (hb.trans_eq (hlen u).symm), bitsOf_leadingBytes (hb.trans_eq (hlen s).symm)]
  refine List.ext_getElem? fun q => ?_
  rcases Nat.lt_or_ge q (8 * b) with hq | hq
  · rw [List.getElem?_take_of_lt hq, List.getElem?_take_of_lt hq, indexBits_idxPrefix_getElem? u hn (by omega),
      indexBits_idxPrefix_getElem? s hn (by omega), h q hq]
  · simp [Nat.not_lt.mpr hq]

/-- Settles O26: the flip leaves the decoded bytes and so their digest, and changes one bit that is compared with it. -/
theorem checksumSensitivity : Obligations.ChecksumSensitivity := by
  intro mode n ct b c s t i ha h he hi
  obtain ⟨hbal, -, hb, hc⟩ := acct_balanced ha
  have hn : n ≤ 46 := by omega
  obtain ⟨hrange, hmatch, rfl⟩ := exec_dec_success ha h he
  have hbytes : decodedBytes n b (flipIndexBit s (8 * b + i)) = decodedBytes n b s :=
    decodedBytes_eq_of_agree hn (by omega) fun q hq => by rw [indexBit_flipIndexBit s (by omega), if_neg (by omega)]
  have hmismatch : ¬ChecksumMatches n b c (flipIndexBit s (8 * b + i)) := by
    intro hflip
    have hold := (checksumMatches_iff hn hbal hc).mp hmatch i hi
    have hnew := (checksumMatches_iff hn hbal hc).mp hflip i hi
    rw [indexBit_flipIndexBit s (by omega), if_pos rfl, hbytes, ← hold] at hnew
    exact Bool.not_ne_self _ hnew
  have hstatus := unpackIndices_status_of_mismatch (s := (flipIndexBit s (8 * b + i)).setResult n b c) hmismatch
  refine ⟨_, exec_dec_of_valid ha (anyInvalidIndex_flipIndexBit _ hrange), by rw [hstatus], by rw [hstatus], ?_, ?_⟩
  · exact congrArg Config.hash256 hbytes
  · exact congrArg (fun x => (s.writeEnt x).ent) hbytes

/-! ### The round trip -/

/-- The indices ENC wrote hold the packed string (40_encode.md R104). -/
theorem indexBits_packEntropy (hash : List Byte → Digest) {n b c : Nat} (s : State) (hn : n ≤ 46) (hb : b ≤ 32) (hc : c ≤ 256)
    (hbal : 11 * n = 8 * b + c) :
    indexBits (idxPrefix (packEntropy hash n b c s) n) = packedBits (entPrefix s b) (hash (entPrefix s b)) c := by
  have hlen := length_packedBits (x := entPrefix s b) (d := hash (entPrefix s b)) hc
  rw [length_entPrefix s hb, ← hbal] at hlen
  rw [idxPrefix_packEntropy hash s hn, indexBits_groupIndices hlen.ge, List.take_of_length_le hlen.le]

/-- Settles O27: DEC splits the packed string into the entropy and the prefix of the entropy's digest. -/
theorem encDecRoundTrip : Obligations.EncDecRoundTrip := by
  intro mode n ct s t u h he hu
  obtain ⟨b, c, ha, hl, rfl⟩ := exec_enc_success h he
  obtain ⟨hbal, -, hb, hc⟩ := acct_balanced ha
  have hn : n ≤ 46 := by omega
  have hrange : anyInvalidIndex u n = false := anyInvalidIndex_eq_false_iff.mpr fun k hk hkn =>
    hu k hk hkn ▸ packEntropy_idx_lt Config.hash256 b c (s.setResult n b c) hk hkn
  have hbits : indexBits (idxPrefix u n) = packedBits (entPrefix s b) (Config.hash256 (entPrefix s b)) c := by
    rw [idxPrefix_eq_of_agree hu]
    exact indexBits_packEntropy Config.hash256 (s.setResult n b c) hn hb hc hbal
  obtain ⟨hleading, hchecksum⟩ :=
    split_bitsOf_append (c := c) (r := (bitsOf (Config.hash256 (entPrefix s b)).toList).take c) (length_entPrefix s hb)
      (by simpa using hc)
  have hbytes : decodedBytes n b u = entPrefix s b := (congrArg (leadingBytes · b) hbits).trans hleading
  have hmatch : ChecksumMatches n b c u := by
    rw [ChecksumMatches, hbytes, hbits]
    exact hchecksum
  have hstatus := unpackIndices_status_of_match (s := u.setResult n b c) hmatch
  have hent := (entPrefix_unpackIndices Config.hash256 (n := n) (c := c) (u.setResult n b c) hb).trans hbytes
  exact ⟨_, exec_dec_of_valid ha hrange, by rw [hstatus], by rw [hstatus],
    BitVec.eq_of_toNat_eq ((toNat_entLen_unpackIndices _ _ hb).trans hl.symm),
    fun i hi hil => ent_getElem_of_entPrefix_eq hent hi (hl ▸ hil), congrArg Config.hash256 hbytes⟩

end Sys2Proof.Proofs
end

section
/-! PROOFS. The bit-accounting mode by mode, its invariant and its tables (42_accounting.md R140 to R149), and the command ACCT (R150). -/

namespace Sys2Proof.Proofs

open Sys2Proof.Machine

/-! ### Each mode's answer

The test for n = 0 (42_accounting.md R140) changes no answer: every mode's own rule rejects 0. -/

@[simp] theorem acct_std (n ct : Nat) : acct .std n ct = stdTable n := by
  by_cases hn : n = 0
  · subst hn
    rfl
  · exact if_neg hn

@[simp] theorem acct_rlx (n ct : Nat) : acct .rlx n ct = relaxedSplit n := by
  by_cases hn : n = 0
  · subst hn
    rfl
  · exact if_neg hn

theorem acct_exp_some_iff {n ct b c : Nat} :
    acct .exp n ct = some (b, c) ↔ c = ct ∧ ct ≤ 256 ∧ 11 * n = 8 * b + ct ∧ 1 ≤ b ∧ b ≤ 32 := by
  by_cases hn : n = 0
  · subst hn
    simp only [acct, if_true, reduceCtorEq, false_iff]
    omega
  · have hsplit : acct .exp n ct = explicitSplit n ct := if_neg hn
    rw [hsplit, explicitSplit_some]

/-! ### Standard mode -/

theorem stdTable_of_mem : ∀ n ∈ [9, 12, 15, 18, 21, 24], stdTable n = some (4 * n / 3, n / 3) := by decide

theorem stdTable_of_notMem {n : Nat} (hn : n ∉ [9, 12, 15, 18, 21, 24]) : stdTable n = none := by
  refine Option.eq_none_iff_forall_ne_some.mpr fun ⟨b, c⟩ h => hn ?_
  rcases stdTable_some h with ⟨rfl, -⟩ | ⟨rfl, -⟩ | ⟨rfl, -⟩ | ⟨rfl, -⟩ | ⟨rfl, -⟩ | ⟨rfl, -⟩ <;> decide

/-- Settles O7: the table's rows by evaluation, and no row for another n. -/
theorem standardModeRows : Obligations.StandardModeRows := by
  refine ⟨fun ct => ⟨rfl, rfl, rfl, rfl, rfl, rfl⟩, fun n ct hn => ?_, fun n ct hn => ⟨?_, ?_⟩⟩
  · rw [acct_std, stdTable_of_notMem hn]
  · rw [acct_std, stdTable_of_mem n hn]
  · revert n
    decide

/-! ### Relaxed mode -/

/-- The range of B as a range of n: floor(11n/8) is in 1..32 exactly for n in 1..23. -/
theorem relaxedSplit_eq (n : Nat) : relaxedSplit n = if 1 ≤ n ∧ n ≤ 23 then some (11 * n / 8, 11 * n % 8) else none := by
  split
  case isTrue hn => exact relaxedSplit_some.mpr (by omega)
  case isFalse hn =>
    refine Option.eq_none_iff_forall_ne_some.mpr fun ⟨b, c⟩ h => hn ?_
    have := relaxedSplit_some.mp h
    omega

/-- Settles O8: relaxed mode's closed form, and arithmetic. -/
theorem relaxedModeAcceptsExactly : Obligations.RelaxedModeAcceptsExactly := fun n ct =>
  ⟨(acct_rlx n ct).trans (relaxedSplit_eq n), by omega, by omega, by omega⟩

theorem acct_rlx_some_iff {n ct b c : Nat} :
    acct .rlx n ct = some (b, c) ↔ (1 ≤ n ∧ n ≤ 23) ∧ 11 * n / 8 = b ∧ 11 * n % 8 = c := by
  simp [relaxedSplit_eq]

/-! ### Explicit mode -/

/-- Settles O9: the exact conditions of acceptance, from which the bound on n, the congruence and the reachable lengths follow. -/
theorem explicitModeAcceptsExactly : Obligations.ExplicitModeAcceptsExactly := by
  refine ⟨fun n ct b c => acct_exp_some_iff.trans (by omega), rfl, fun n ct h => ?_, fun b n h1 hb hlow hhigh => ?_⟩
  · obtain ⟨⟨b, c⟩, h⟩ := Option.isSome_iff_exists.mp h
    have := acct_exp_some_iff.mp h
    omega
  · exact acct_exp_some_iff.mpr (by omega)

/-! ### The invariant and the tables -/

/-- Outside explicit mode the checksum has at most 8 bits (42_accounting.md R144). -/
theorem acct_checksum_le {mode : Mode} {n ct b c : Nat} (hm : mode ≠ .exp) (h : acct mode n ct = some (b, c)) : c ≤ 8 := by
  cases mode with
  | std => have := stdTable_some (acct_std n ct ▸ h); omega
  | rlx => have := acct_rlx_some_iff.mp h; omega
  | exp => exact absurd rfl hm

/-- Settles O10: the balanced budget bounds n, and each mode bounds C. -/
theorem accountingInvariant : Obligations.AccountingInvariant := by
  intro mode n ct b c h
  obtain ⟨hbal, hb1, hb, hc⟩ := acct_balanced h
  exact ⟨hbal, hb1, hb, hc, by omega, by omega, fun hm => acct_checksum_le hm h⟩

/-- The entropy lengths of relaxed mode, in the order of n (42_accounting.md R147). -/
theorem relaxedLengths_eq_map :
    [1, 2, 4, 5, 6, 8, 9, 11, 12, 13, 15, 16, 17, 19, 20, 22, 23, 24, 26, 27, 28, 30, 31] = (List.range' 1 23).map (11 * · / 8) := by
  decide

/-- Settles O11: the columns by evaluation; the lengths are the values of floor(11n/8), which grows with n. -/
theorem accountingTable : Obligations.AccountingTable := by
  refine ⟨by decide, by decide, fun b => ?_, fun b n n' ct ct' c c' h h' => ?_⟩
  · rw [relaxedLengths_eq_map, List.mem_map]
    constructor
    · rintro ⟨n, ct, c, h⟩
      obtain ⟨hn, hb, -⟩ := acct_rlx_some_iff.mp h
      exact ⟨n, List.mem_range'_1.mpr (by omega), hb⟩
    · rintro ⟨n, hn, hb⟩
      have := List.mem_range'_1.mp hn
      exact ⟨n, 0, _, acct_rlx_some_iff.mpr ⟨by omega, hb, rfl⟩⟩
  · obtain ⟨-, hb, -⟩ := acct_rlx_some_iff.mp h
    obtain ⟨-, hb', -⟩ := acct_rlx_some_iff.mp h'
    omega

/-- Explicit mode with the checksum length as its target reproduces every accounting (42_accounting.md R149). -/
theorem acct_exp_of_acct {mode : Mode} {n ct b c : Nat} (h : acct mode n ct = some (b, c)) : acct .exp n c = some (b, c) := by
  obtain ⟨hbal, hb1, hb, hc⟩ := acct_balanced h
  exact acct_exp_some_iff.mpr ⟨rfl, hc, hbal, hb1, hb⟩

/-- Settles O12: the rows shared with relaxed mode and the row of 24 by evaluation, the rest from the answer of each mode. -/
theorem modesCompared : Obligations.ModesCompared := by
  refine ⟨fun n ct hn => ?_, fun ct => ⟨rfl, rfl, rfl⟩, fun n ct hn => ?_, fun n ct h1 h23 => ?_, fun mode n ct b c _ h => ?_⟩
  · rw [acct_std, acct_rlx]
    revert n
    decide
  · rw [acct_std, stdTable_of_notMem hn]
  · rw [acct_rlx, relaxedSplit_eq, if_pos ⟨h1, h23⟩]
    rfl
  · exact acct_exp_of_acct h

/-! ### ACCT -/

theorem exec_acct_of_none {mode : Mode} {n ct : Nat} {s : State} (ha : acct mode n ct = none) :
    exec (.acct mode n ct) s = .next ((s.setResult n 0 0).finish .invalidWordCount) :=
  congrArg Host.Outcome.next (acctState_of_none ha)

theorem exec_acct_of_some {mode : Mode} {n ct b c : Nat} {s : State} (ha : acct mode n ct = some (b, c)) :
    exec (.acct mode n ct) s = .next ((s.setResult n b c).finish .none) :=
  congrArg Host.Outcome.next (acctState_of_some ha)

/-- Settles O13, from the states that the two outcomes leave. -/
theorem acctCompletes : Obligations.AcctCompletes := by
  intro mode n ct s hn
  cases ha : acct mode n ct with
  | none =>
    refine ⟨_, exec_acct_of_none ha, fun _ => ⟨?_, rfl⟩, fun _ _ h => (nomatch h), ⟨rfl, rfl, rfl, rfl⟩, rfl, rfl,
      sameHostSide_refl s⟩
    exact resultIs_of_setResult (s := s) rfl hn (by decide) (by decide)
  | some p =>
    obtain ⟨b, c⟩ := p
    refine ⟨_, exec_acct_of_some ha, fun h => (nomatch h), fun b' c' h => ?_, ⟨rfl, rfl, rfl, rfl⟩, rfl, rfl, sameHostSide_refl s⟩
    cases h
    exact ⟨resultIs_of_acct (s := s) ha rfl, rfl⟩

end Sys2Proof.Proofs
end

section
/-! PROOFS. The command CLR (43_control.md R160) and the acceptance of a command word (R161). -/

namespace Sys2Proof.Proofs

open Sys2Proof.Machine

/-- CLR has one outcome: the clears, then `finish` with NONE. -/
theorem exec_clr (s : State) : exec .clr s = .next (s.clearBuffers.finish .none) := rfl

theorem resultIs_clr (s : State) : ResultIs 0 0 0 (s.clearBuffers.finish .none) := ⟨rfl, rfl, rfl⟩

/-- Settles O28, from the state that the clears leave. -/
theorem clrClears : Obligations.ClrClears := fun s =>
  ⟨_, exec_clr s, fun _ hi => ⟨Vector.getElem_replicate hi, Vector.getElem_replicate hi⟩, fun _ hk => Vector.getElem_replicate hk,
    State.clearBuffers_entLen s, resultIs_clr s, rfl, State.clearBuffers_cmdl s, State.clearBuffers_hashCalls s, sameHostSide_refl s⟩

/-- Settles O32: the write is an acceptance, and an acceptance is the same for every word. -/
theorem commandAcceptance : Obligations.CommandAcceptance := by
  intro s v hb
  rw [memWrite_accept v hb]
  exact ⟨State.accept_cmdl v s, State.accept_status v s, sameBuffers_accept v _ s, State.accept_result v s,
    State.accept_hashCalls v s, rfl⟩

end Sys2Proof.Proofs
end

section
/-! PROOFS. The error codes: the illegal command (60_exceptions.md R203), the order of the causes (R207), and that no error stops the block
(R211). -/

namespace Sys2Proof.Proofs

open Sys2Proof.Machine

/-- Settles O30, from the one outcome of an illegal word. -/
theorem illegalCommandCompletes : Obligations.IllegalCommandCompletes := fun s _ hd =>
  ⟨_, complete_of_error hd, rfl, ⟨rfl, rfl, rfl, rfl⟩, rfl, rfl, rfl, sameHostSide_refl s⟩

/-! ### The order of the causes -/

/-- A command with operands whose accounting fails completes with INVALID_WORD_COUNT, whatever else is wrong (60_exceptions.md R207). -/
theorem completes_err_of_acct_none {s t : State} {mode : Mode} {n ct : Nat} (h : Completes s t)
    (hd : decode s.cmdl = .ok (.acct mode n ct) ∨ decode s.cmdl = .ok (.enc mode n ct) ∨ decode s.cmdl = .ok (.dec mode n ct))
    (ha : acct mode n ct = none) : t.status.err = 1 := by
  rcases hd with hd | hd | hd
  · obtain rfl := h.unique (.acctNone hd ha)
    rfl
  · obtain rfl := h.unique (.encNone hd ha)
    rfl
  · obtain rfl := h.unique (.decNone hd ha)
    rfl

/-- Past its accounting, ENC can fail by its length check alone (40_encode.md R101). -/
theorem completes_enc_err {s t : State} {mode : Mode} {n ct b c : Nat} (h : Completes s t)
    (hd : decode s.cmdl = .ok (.enc mode n ct)) (ha : acct mode n ct = some (b, c)) :
    t.status.err = if s.entLen.toNat = b then 0 else 1 := by
  split
  next hl =>
    obtain rfl := h.unique (.encPack hd ha hl)
    rfl
  next hl =>
    obtain rfl := h.unique (.encLength hd ha hl)
    rfl

/-- Past its accounting and its index check, DEC's code is the comparison's with the digest it leaves (41_decode.md R126). -/
theorem completes_dec_err {s t : State} {mode : Mode} {n ct b c : Nat} (h : Completes s t)
    (hd : decode s.cmdl = .ok (.dec mode n ct)) (ha : acct mode n ct = some (b, c)) (hi : anyInvalidIndex s n = false) :
    t.status.err = if checksumBits (indexBits (idxPrefix s n)) b c = (bitsOf t.digest.toList).take c then 0 else 3 := by
  obtain rfl := h.unique (.decUnpack hd ha hi)
  split
  next hm => rw [unpackIndices_status_of_match (s := s.setResult n b c) hm]
  next hm => rw [unpackIndices_status_of_mismatch (s := s.setResult n b c) hm]

/-- Settles O31: each clause names the outcome of the completion step, which is unique. -/
theorem errorPriority : Obligations.ErrorPriority := by
  intro s
  obtain ⟨t, hc⟩ := exists_completes s
  refine ⟨t, complete_of_completes hc, fun ⟨e, hd⟩ => ?_, fun _ _ _ => completes_err_of_acct_none hc, fun _ _ _ _ _ hd ha => ?_,
    fun _ _ _ _ _ => completes_enc_err hc, fun mode n ct b c hd ha => ⟨fun ⟨k, hk, hkn, hv⟩ => ?_, fun hrange => ?_⟩, fun hd => ?_⟩
  · obtain rfl := hc.unique (.illegal hd)
    rfl
  · obtain rfl := hc.unique (.acctSome hd ha)
    rfl
  · have hi := anyInvalidIndex_of_upper_bits hk hkn (mt upper_bits_zero_iff.mp hv.not_gt)
    obtain rfl := hc.unique (.decIndex hd ha hi)
    rfl
  · exact completes_dec_err hc hd ha (anyInvalidIndex_eq_false_iff.mpr hrange)
  · obtain rfl := hc.unique (.clr hd)
    rfl

/-! ### Progress -/

/-- A host event leaves ERR as it is, or clears it (10_state.md R27). -/
theorem hostEvent_err (s : State) (ev : HostEvent) :
    (hostEvent ev s).status.err = s.status.err ∨ (hostEvent ev s).status.err = 0 := by
  rcases hostEvent_cases ev s with ⟨-, h⟩ | ⟨v, -, -, h⟩ | ⟨off, n, v, -, -, -, h⟩ | ⟨off, n, v, -, -, -, h⟩ |
    ⟨-, -, ⟨-, -, hstatus, -⟩, -⟩
  · exact .inr (h ▸ rfl)
  · exact .inr (h ▸ rfl)
  · exact .inl (h ▸ rfl)
  · exact .inl (h ▸ rfl)
  · exact .inl (by rw [hstatus])

theorem hostEvent_errLegal (s : State) (ev : HostEvent) (he : ErrLegal s) : ErrLegal (hostEvent ev s) := by
  rcases hostEvent_err s ev with h | h
  · rwa [ErrLegal, h]
  · simp [ErrLegal, h]

/-- A step keeps ERR among its five codes: a completion writes one of them, and no host event writes another. -/
theorem step_errLegal {s t : State} (he : ErrLegal s) (h : step s = .next t) : ErrLegal t := by
  refine step_induction h he (fun hc => ?_) (fun _ => he) hostEvent_errLegal
  obtain ⟨-, -, -, -, -, herr⟩ := complete_frame (complete_of_completes hc)
  exact herr

/-- With a legal code neither the completion step nor the host's turn stops the block. -/
theorem exists_step {s : State} (he : ErrLegal s) : ∃ t, step s = .next t := by
  cases hturn : sequencerTurn s with
  | true =>
    obtain ⟨t, ht, -⟩ := complete_next s
    exact ⟨t, (step_of_sequencerTurn he hturn).trans ht⟩
  | false => exact ⟨_, step_of_hostTurn he hturn⟩

/-- A reserved code faults before any step (93_implementation_defined.md U10). -/
theorem step_of_reservedErr {s : State} (he : ¬ErrLegal s) : step s = .fault .reservedErrCode := if_pos (reservedErr_iff.mpr he)

/-- Settles O53: a step exists, and every step keeps the code legal. -/
theorem noErrorIsFatal : Obligations.NoErrorIsFatal := by
  refine fun s => ⟨fun he => ?_, step_of_reservedErr⟩
  obtain ⟨t, ht⟩ := exists_step he
  exact ⟨t, ht, step_errLegal he ht⟩

end Sys2Proof.Proofs
end

section
/-! PROOFS. Reads while BUSY (70_reset_and_hazards.md R241), and the two ways back to the reset values: the reset input (R230, R231) and CLR
(R233). -/

namespace Sys2Proof.Proofs

open Sys2Proof.Machine

/-! ### Reads while BUSY -/

/-- The offsets whose value a read while BUSY does not specify: ENT_LEN, RESULT and the three buffers. -/
theorem volatile_regionOf_iff {a : Nat} :
    (regionOf a).volatile = true ↔ (12 ≤ a ∧ a < 0x14) ∨ (0x20 ≤ a ∧ a < 0xBC) := by
  rcases regionOf_cases a with h | h | h | h | h | h | h | h | h | h <;>
    simp only [h.2, Region.volatile, reduceCtorEq, true_iff, false_iff] <;> omega

/-- ID, STATUS, CMD and the reserved offsets read as the window's byte, busy or not. -/
theorem readLane_of_exact (s : State) {off j : Nat}
    (h : ¬((12 ≤ off + j ∧ off + j < 0x14) ∨ (0x20 ≤ off + j ∧ off + j < 0xBC))) :
    readLane s off j = windowByte s (off + j) := by
  rw [← volatile_regionOf_iff, Bool.not_eq_true] at h
  rw [readLane, h, Bool.and_false, if_neg Bool.false_ne_true]

/-- The other offsets read as free values while BUSY (log 3). -/
theorem readLane_of_volatile {s : State} (hb : s.status.busy = true) {off j : Nat}
    (h : (12 ≤ off + j ∧ off + j < 0x14) ∨ (0x20 ≤ off + j ∧ off + j < 0xBC)) : readLane s off j = Config.busyByte (s.draws + j) := by
  rw [readLane, hb, volatile_regionOf_iff.mpr h, Bool.and_true, if_pos rfl]

/-- An aligned transaction stays in one 4-byte word of the window, so in one register or buffer (20_memory.md R52). -/
theorem lane_same_word {off j : Nat} {n : Width} (ha : off % n.bytes = 0) (hj : j < n.bytes) : (off + j) / 4 = off / 4 := by
  rcases width_bytes_cases n with hn | hn | hn <;> rw [hn] at ha hj <;> omega

/-- An aligned read whose lanes are 0 reads 0 at every width. -/
theorem readReply_zero_of_lanes {s : State} {off : BitVec 8} {n : Width} (ha : off.toNat % n.bytes = 0)
    (h : ∀ j, j < n.bytes → readLane s off.toNat j = 0) : readReply s off n = ⟨false, 0⟩ := by
  rw [readReply_of_aligned s ha]
  cases n with
  | byte => simp only [readData, h 0 (by decide)]; rfl
  | half => simp only [readData, h 0 (by decide), h 1 (by decide)]; rfl
  | word => simp only [readData, h 0 (by decide), h 1 (by decide), h 2 (by decide), h 3 (by decide)]; rfl

/-- Settles O38: the lanes of an aligned read are all exact, all 0, or all free values. -/
theorem busyReads : Obligations.BusyReads := by
  intro s off n hb ha
  refine ⟨sameBlock_memRead off n s, ?_, ?_, fun hoff j hj => ?_, fun hoff => readReply_zero_of_lanes ha fun j hj => ?_,
    fun hoff j hj => ?_⟩
  · rintro rfl rfl
    exact readReply_id s
  · rintro rfl rfl
    exact readReply_status s
  all_goals have hword := lane_same_word ha hj
  · rw [readReply_lane s ha hj, readLane_of_exact s (by omega)]
  · rw [readLane_of_exact s (by omega), windowByte_cmd_reserved s (by omega)]
  · rw [readReply_lane s ha hj, readLane_of_volatile hb (by omega)]

/-! ### The reset values -/

/-- CLR gives the buffers and ENT_LEN their reset values (43_control.md R160, 10_state.md R42). -/
theorem sameBuffers_reset_clr (s : State) : SameBuffers State.reset (s.clearBuffers.finish .none) := ⟨rfl, rfl, rfl, rfl⟩

/-- Settles O29: beside the buffers, ENT_LEN and RESULT the window shows STATUS and constants. -/
theorem clrIsSoftReset : Obligations.ClrIsSoftReset := by
  refine fun s => ⟨_, exec_clr s, fun a => windowByte_congr_of_buffers (sameBuffers_reset_clr s) rfl, ?_, rfl⟩
  have hstatus : (s.clearBuffers.finish .none).status = ⟨false, true, false, s.status.busyViol, 0⟩ := rfl
  rw [hstatus]
  cases s.status.busyViol <;> rfl

/-- Settles O42: the step is the host's turn, and its event the reset. -/
theorem resetPulse : Obligations.ResetPulse := by
  intro s rest he hs hturn
  have hstep := step_of_hostTurn he hturn
  rw [hostTurn_eq_hostEvent hs] at hstep
  exact ⟨_, hstep, sameBlock_applyReset _, rfl, rfl, rfl, rfl⟩

end Sys2Proof.Proofs
end

section
/-! PROOFS. The run of a command in flight: with a hash unit that answers it ends (70_reset_and_hazards.md R234, R243), and a command that
waits for one that never answers stays in flight (R244). -/

namespace Sys2Proof.Proofs

open Sys2Proof.Machine

/-! ### A hash unit that answers -/

/-- From `s` a run of at most `n` steps reaches BUSY = 0. -/
def EndsWithin (n : Nat) (s : State) : Prop := ∃ k t, k ≤ n ∧ core.run k s = .next t ∧ t.status.busy = false

theorem endsWithin_of_idle {s : State} (n : Nat) (hb : s.status.busy = false) : EndsWithin n s := ⟨0, s, Nat.zero_le n, rfl, hb⟩

theorem endsWithin_succ_of_step {s t : State} {n : Nat} (hstep : step s = .next t) (h : EndsWithin n t) : EndsWithin (n + 1) s := by
  obtain ⟨k, u, hk, hrun, hb⟩ := h
  exact ⟨k + 1, u, Nat.succ_le_succ hk, (run_succ k hstep).trans hrun, hb⟩

/-- A completion step that is due ends the command. -/
theorem endsWithin_of_sequencerTurn {s : State} (n : Nat) (he : ErrLegal s) (hturn : sequencerTurn s = true) :
    EndsWithin (n + 1) s := by
  obtain ⟨t, hc, -, -, hbusy, -⟩ := complete_next s
  exact endsWithin_succ_of_step ((step_of_sequencerTurn he hturn).trans hc) (endsWithin_of_idle n hbusy)

/-- Settles O55, by induction on the delay: each host event is a reset or brings the completion step nearer. -/
theorem completionIsEventual : Obligations.CompletionIsEventual := by
  intro s he hb hp
  change EndsWithin (s.delay + 1) s
  induction hd : s.delay generalizing s with
  | zero => exact endsWithin_of_sequencerTurn 0 he (sequencerTurn_of_ready hb (.inr hd) hp)
  | succ d ih =>
    cases hs : s.script with
    | nil => exact endsWithin_of_sequencerTurn (d + 1) he (sequencerTurn_of_ready hb (.inl hs) hp)
    | cons ev rest =>
      have hstep := step_of_hostTurn he (show sequencerTurn s = false by simp [sequencerTurn, hs, hd])
      rw [hostTurn_eq_hostEvent hs] at hstep
      refine endsWithin_succ_of_step hstep ?_
      by_cases hev : ev = .rst
      · subst hev
        exact endsWithin_of_idle (d + 1) rfl
      · obtain ⟨-, -, -, -, -, -, -, hport, hdelay, viol, hstatus⟩ := hostEvent_busy_frame (s := takeEvent rest s) hb hev
        have hbusy : (hostEvent ev (takeEvent rest s)).status.busy = true := by rw [hstatus]; exact hb
        exact ih _ (hostEvent_errLegal _ ev he) hbusy (hport.trans hp) (hdelay.trans (congrArg (· - 1) hd))

/-! ### A hash unit that never answers -/

/-- A run that goes on takes its first step and then runs on from there. -/
theorem run_succ_next {s t : State} {k : Nat} (h : core.run (k + 1) s = .next t) : ∃ u, step s = .next u ∧ core.run k u = .next t := by
  cases hstep : step s with
  | next u => exact ⟨u, rfl, (run_succ k hstep).symm.trans h⟩
  | fault r => simp [Host.Core.run, show core.step s = .fault r from hstep] at h
  | refused r => simp [Host.Core.run, show core.step s = .refused r from hstep] at h

/-- A command in flight that waits for a hash unit that never answers, with no reset to come (70_reset_and_hazards.md R244, log 6). -/
structure WaitsForHash (s : State) : Prop where
  busy : s.status.busy = true
  silent : s.hashPort = .silent
  needs : needsHash s = true
  no_reset : ∀ ev ∈ s.script, ev ≠ .rst

/-- Whether a command needs the hash is settled at acceptance (10_state.md R40). -/
theorem needsHash_withHostSide (s h : State) : needsHash (withHostSide s h) = needsHash s := by
  obtain ⟨t, hc⟩ := exists_completes s
  rw [needsHash, needsHash, complete_of_completes hc, complete_of_completes (completes_withHostSide h hc)]
  rfl

/-- The host's turn leaves the platform's hash unit as it is while a command is in flight. -/
theorem hostTurn_hashPort {s : State} (hb : s.status.busy = true) (hs : ∀ ev ∈ s.script, ev ≠ .rst) :
    (hostTurn s).hashPort = s.hashPort := by
  cases hscript : s.script with
  | nil => rw [hostTurn_nil hscript]
  | cons ev rest =>
    obtain ⟨-, -, -, -, -, -, -, hport, -⟩ :=
      hostEvent_busy_frame (s := takeEvent rest s) (ev := ev) hb (hs ev (by simp [hscript]))
    rw [hostTurn_eq_hostEvent hscript, hport]
    rfl

/-- The host's turn leaves the command waiting. -/
theorem WaitsForHash.after_hostTurn {s : State} (h : WaitsForHash s) : WaitsForHash (hostTurn s) := by
  have hturn := hostTurn_eq_withHostSide h.busy h.no_reset
  exact {
    busy := by rw [hturn]; exact h.busy
    silent := (hostTurn_hashPort h.busy h.no_reset).trans h.silent
    needs := by rw [hturn, needsHash_withHostSide, h.needs]
    no_reset := fun ev hev => h.no_reset ev (mem_script_hostTurn hev) }

/-- The completion step is never due while the command waits. -/
theorem WaitsForHash.not_due {s : State} (h : WaitsForHash s) : sequencerTurn s = false := by
  simp [sequencerTurn, h.silent, h.needs]

/-- A run of a waiting command is the host's turns alone. -/
theorem WaitsForHash.run_eq {s t : State} {k : Nat} (h : WaitsForHash s) (hrun : core.run k s = .next t) : t = hostTurn^[k] s := by
  induction k generalizing s with
  | zero =>
    injection hrun with hrun
    exact hrun.symm
  | succ k ih =>
    obtain ⟨u, hstep, hrun⟩ := run_succ_next hrun
    obtain ⟨-, ⟨hturn, -⟩ | ⟨-, rfl⟩⟩ := step_cases hstep
    · exact absurd hturn (by simp [h.not_due])
    · rw [Function.iterate_succ_apply]
      exact ih h.after_hostTurn hrun

/-- Settles O59: the run is host turns alone, and these change the host's part alone while a command is in flight. -/
theorem silentHashUnitStaysBusy : Obligations.SilentHashUnitStaysBusy := by
  intro s t mode n ct b c k hb hp ha hcmd hs hrun
  have hneeds : needsHash s = true := by
    rcases hcmd with ⟨hd, hl⟩ | ⟨hd, hrange⟩
    · exact (needsHash_enc hd).mpr ⟨b, c, ha, hl⟩
    · exact (needsHash_dec hd).mpr ⟨by simp [ha], anyInvalidIndex_eq_false_iff.mpr hrange⟩
  have hwaits : WaitsForHash s := ⟨hb, hp, hneeds, hs⟩
  rw [hwaits.run_eq hrun, iterate_hostTurn_eq_withHostSide k hb hs]
  exact ⟨hb, rfl, rfl, rfl, rfl⟩

end Sys2Proof.Proofs
end
